-- ==== Sys2Proof/Word.lean ====
section
/-! DEFINITION. The word types of the engine (00_scope.md R5, R6): every quantity is an unsigned bit vector. -/

namespace Sys2Proof

/-- A byte of MEM (20_memory.md R35). -/
abbrev Byte := BitVec 8

/-- HEAD, TAIL, LENGTH, CAPACITY and the LEN operand: CAP_W = 16 bits (00_scope.md R5). -/
abbrev Half := BitVec 16

/-- A MEM address, BASE, RESULT, a keyword value, half of a command word: 32 bits (00_scope.md R5). -/
abbrev Word := BitVec 32

/-- A command word of format CMD64 (30_encoding.md R50). -/
abbrev CmdWord := BitVec 64

end Sys2Proof
end

