-- ==== Sys2Proof/Config.lean ====
section
/-! DEFINITION. The implementation parameters (00_scope.md R5) and the free values of what the spec leaves open. -/

namespace Sys2Proof.Config

/-- When a read of STATUS is answered, against the running command: the command "writes RESULT as the command's last
action, then sets BUSY to 0" (60_exceptions.md R173). -/
inductive StatusOrder where
  /-- before the command has done anything -/
  | beforeCommand
  /-- after RESULT is written and before BUSY becomes 0; one read at most for each command (log 25) -/
  | beforeBusyFalls
  /-- after BUSY became 0 -/
  | afterCommand
deriving DecidableEq, Repr, Inhabited

/-- CAP_MIN: the smallest capacity INIT accepts (00_scope.md R5). -/
def capMin : Nat := 2

/-- KW_MIN: the shortest keyword in bytes (00_scope.md R5). -/
def kwMin : Nat := 1

/-- KW_MAX: the longest keyword in bytes (00_scope.md R5). -/
def kwMax : Nat := 4

/-- The number of byte addresses of MEM: 2^ADDR_W (20_memory.md R30). -/
def memSize : Nat := 2 ^ 32

/-- What a byte of MEM that nothing has written reads as.
DESIGN CHOICE (log 1, unsafe for claims about runs from reset): MEM's content at power-up is unspecified
(70_reset_and_hazards.md R180, 93_implementation_defined.md U2). -/
def unlistedByte : Byte := 0

/-- The size in bytes of the register block (60_exceptions.md R171). -/
def blockSize : Nat := 64

/-- FREE VALUE (log 7): which prefix of an abandoned command's MEM writes happened
(70_reset_and_hazards.md R182, 93_implementation_defined.md U1). Applied to the counter of draws. -/
opaque freePrefix : Nat → Nat

/-- FREE VALUE (log 6): when a STATUS read made while BUSY = 1 is answered, against a running command that completes
(60_exceptions.md R173 "a read of STATUS is never held"). Applied to the counter of draws. -/
opaque freeStatusOrder : Nat → StatusOrder

end Sys2Proof.Config

namespace Sys2Proof

/-- The kind of a MEM access that the platform is asked about (20_memory.md R36). -/
inductive AccessKind where
  | read
  | write
deriving DecidableEq, Repr

/-- A range of MEM addresses the platform does not admit for one kind of access (20_memory.md R36). -/
structure DeniedRange where
  /-- the first address of the range -/
  first : Nat
  /-- how many addresses the range holds -/
  count : Nat
  /-- the kind of access that is not admitted there -/
  kind : AccessKind
deriving DecidableEq, Repr

/-- The parameters the platform fixes (00_scope.md R5: OPEN; no command and no reset changes them).
The spec gives ENG_BASE and the platform's register addresses no width. DESIGN CHOICE (log 24, unsafe): 32 bits, so the
block of 64 bytes goes on at address 0 past 0xFFFFFFFF.
MemAdmit is held as the list of what it does not admit, so that it is plain data and every predicate on
(address, kind) can be written (log 2). -/
structure Platform where
  /-- ENG_BASE: the platform address of the register block, 32 bits wide (log 24) -/
  engBase : Word
  /-- whether the platform maps the register block at MEM addresses (20_memory.md R34) -/
  blockInMem : Bool
  /-- the accesses MemAdmit does not admit -/
  denied : List DeniedRange
deriving DecidableEq, Repr

end Sys2Proof
end

