-- ==== Sys2Proof/Machine/State.lean ====
section
/-! DEFINITION. The state of the machine as plain data: every register of 10_state.md R10 and R26, MEM
(20_memory.md R30), the platform's parameters (00_scope.md R5), and what the hosts have yet to do. -/

namespace Sys2Proof.Machine

/-- MEM as a list of (address, byte) in canonical form (`Memory.wf`): addresses strictly rising and below 2^32, no
entry equal to what an unlisted address reads as. -/
abbrev Memory := List Host.Cell

/-- The size of a host's access to the register block (60_exceptions.md R171: only 32-bit accesses are accepted). -/
inductive AccessSize where
  | byte
  | half
  | word
deriving DecidableEq, Repr

/-- One access or event of a host agent (60_exceptions.md R170). Register-block addresses are 32 bits wide (log 24). -/
inductive HostAction where
  /-- a read of the register block at a platform address (60_exceptions.md R171) -/
  | regLoad (addr : Word) (size : AccessSize)
  /-- a write of the register block at a platform address (60_exceptions.md R171, R172) -/
  | regStore (addr : Word) (size : AccessSize) (value : Word)
  /-- a read of one byte of MEM (20_memory.md R42, R44) -/
  | memLoad (addr : Word)
  /-- a write of one byte of MEM (70_reset_and_hazards.md R193) -/
  | memStore (addr : Word) (value : Byte)
  /-- reset, with the value of a CMD_HI write that coincides with it, if one does (70_reset_and_hazards.md R180,
  R183) -/
  | reset (coincidentCmdHi : Option Word)
deriving DecidableEq, Repr

/-- What stops the machine. -/
inductive Fault where
  /-- STUCK: a MEM access of a command that `MemAdmit` does not admit. Raised by the commands that access MEM
  (WRITE_BYTE, READ_BYTE, WRITE_BLOCK, READ_BLOCK, INSERT_KEYWORD, FIND_KEYWORD). "the engine has no next step"
  (20_memory.md R36, 60_exceptions.md R158, 93_implementation_defined.md U3). Safe: the machine stops where the
  spec gives no next step. -/
  | stuck (kind : AccessKind) (addr : Word)
deriving DecidableEq, Repr

/-- What the model gives no next state for. -/
inductive Refusal where
  /-- An instruction without a meaning in the model (no arm of this model answers so). Safe. -/
  | notModelled (mnemonic : String)
  /-- A host access to the register block that is not an aligned 32-bit access, raised by host actions: "the
  platform refuses" it and "the model has no step for it" (60_exceptions.md R171, 93_implementation_defined.md
  U7). Safe. -/
  | registerAccess (addr : Word) (size : AccessSize)
  /-- A host register access outside the 64 bytes of the block, raised by host actions: no register of the engine
  is there (60_exceptions.md R171). Safe. -/
  | outsideRegisterBlock (addr : Word)
  /-- A host access, while BUSY = 1, to a MEM byte the running command touches, raised by host actions: a race the
  spec gives no value (70_reset_and_hazards.md R191, 93_implementation_defined.md U4). Safe. -/
  | hostRace (addr : Word)
deriving DecidableEq, Repr

/-- The state of the machine between steps. -/
structure State where
  /-- HEAD: storage offset of the oldest unread byte (10_state.md R11) -/
  head : Half
  /-- TAIL: storage offset of the next slot to write (10_state.md R12) -/
  tail : Half
  /-- LENGTH: number of valid unread bytes (10_state.md R13) -/
  length : Half
  /-- CAPACITY: number of byte slots of the storage region (10_state.md R14) -/
  capacity : Half
  /-- BASE: MEM address of storage offset 0 (10_state.md R15) -/
  base : Word
  /-- BOUND: a successful INIT has bound a storage region (10_state.md R16) -/
  bound : Bool
  /-- RESULT: status and data of the last command (10_state.md R17) -/
  result : Word
  /-- CMD_LO: bits 31:0 of the next command word (10_state.md R26) -/
  cmdLo : Word
  /-- CMD_HI: bits 63:32 of the next command word (10_state.md R26) -/
  cmdHi : Word
  /-- BUSY: from the issue of a command until its RESULT is written (10_state.md R26) -/
  busy : Bool
  /-- MEM (20_memory.md R30) -/
  mem : Memory
  /-- the platform's parameters (00_scope.md R5); nothing changes them -/
  platform : Platform
  /-- the model's own: what the hosts have yet to do, oldest first (60_exceptions.md R170; log 5) -/
  hostQueue : List HostAction
  /-- the model's own: what the last completed host read returned (log 12) -/
  readData : Option Word
  /-- the model's own: how many free values have been drawn (log 8) -/
  draws : Nat
deriving DecidableEq, Repr

/-- The platform of State.reset: MemAdmit at its default, which admits every access (00_scope.md R5); ENG_BASE = 0
and the block not mapped at MEM addresses, DESIGN CHOICE (log 3). -/
def defaultPlatform : Platform := ⟨0, false, []⟩

/-- The machine right after reset (70_reset_and_hazards.md R180), with no byte of MEM listed and no host action
pending (logs 1 and 5). -/
def State.reset : State where
  head := 0
  tail := 0
  length := 0
  capacity := 0
  base := 0
  bound := false
  result := 0
  cmdLo := 0
  cmdHi := 0
  busy := false
  mem := []
  platform := defaultPlatform
  hostQueue := []
  readData := none
  draws := 0

end Sys2Proof.Machine
end

