-- ==== Sys2Proof/Machine/Flags.lean ====
section
/-! DEFINITION. The only flag-like state, RESULT.STATUS (10_state.md R17, R19): the status codes, the RESULT word, and
the checks that decide which status a command reports (60_exceptions.md R150 to R155). -/

namespace Sys2Proof.Machine

/-- The statuses (60_exceptions.md R150). Codes 10 to 15 are reserved and never written (R151). -/
inductive Status where
  | ok
  | invalidCapacity
  | bufferFull
  | insufficientSpace
  | insufficientData
  | notFound
  | invalidKeywordLength
  | empty
  | notInitialized
  | illegalCommand
deriving DecidableEq, Repr

/-- The code of a status (60_exceptions.md R150). -/
def Status.code : Status → Nat
  | .ok => 0
  | .invalidCapacity => 1
  | .bufferFull => 2
  | .insufficientSpace => 3
  | .insufficientData => 4
  | .notFound => 5
  | .invalidKeywordLength => 6
  | .empty => 7
  | .notInitialized => 8
  | .illegalCommand => 9

/-- RESULT = DATA · 2^8 + STATUS with bits 7:4 zero (10_state.md R17; 60_exceptions.md R152, R153). -/
def resultWord (data : Nat) (st : Status) : Word := .ofNat 32 (data * 2 ^ 8 + st.code)

/-- RESULT.STATUS, bits 3:0 (10_state.md R17). -/
def statusField (r : Word) : BitVec 4 := r.extractLsb' 0 4

/-- The reserved bits 7:4 of RESULT (10_state.md R17). -/
def reservedField (r : Word) : BitVec 4 := r.extractLsb' 4 4

/-- RESULT.DATA, bits 31:8 (10_state.md R17). -/
def dataField (r : Word) : BitVec 24 := r.extractLsb' 8 24

/-- The free count C − 1 − LENGTH (45_introspection.md R143, 90_conflicts.md C4). -/
def State.freeCount (s : State) : Nat := s.capacity.toNat - 1 - s.length.toNat

/-- INIT's check (40_init.md R71). -/
def initCheck (cap : Half) : Option Status :=
  if cap.toNat < Config.capMin then some .invalidCapacity else none

/-- WRITE_BYTE's check: LENGTH = C − 1 (41_byte.md R81). -/
def writeByteCheck (s : State) : Option Status :=
  if s.length.toNat = s.capacity.toNat - 1 then some .bufferFull else none

/-- READ_BYTE's check: LENGTH = 0 (41_byte.md R84). -/
def readByteCheck (s : State) : Option Status :=
  if s.length.toNat = 0 then some .empty else none

/-- Block write's check for `n` bytes: LENGTH + n > C − 1, on unbounded integers (42_block.md R91, 00_scope.md R7). -/
def spaceCheck (s : State) (n : Nat) : Option Status :=
  if s.length.toNat + n > s.capacity.toNat - 1 then some .insufficientSpace else none

/-- The check of a read or delete of `n` bytes: n > LENGTH (42_block.md R97, 43_delete.md R111). -/
def dataCheck (s : State) (n : Nat) : Option Status :=
  if n > s.length.toNat then some .insufficientData else none

/-- The keyword-length check: K < 1 or K > 4 (44_keyword.md R121, R127). -/
def keywordLengthCheck (k : Nat) : Option Status :=
  if k < Config.kwMin ∨ k > Config.kwMax then some .invalidKeywordLength else none

/-- INSERT_KEYWORD's checks, the keyword length first (44_keyword.md R121, 60_exceptions.md R154). -/
def insertKeywordCheck (s : State) (k : Nat) : Option Status :=
  (keywordLengthCheck k).or (spaceCheck s k)

/-- FIND_KEYWORD's checks before the search, the keyword length first (44_keyword.md R127, 60_exceptions.md R154). -/
def findKeywordCheck (s : State) (k : Nat) : Option Status :=
  (keywordLengthCheck k).or (dataCheck s k)

end Sys2Proof.Machine
end

