-- ==== Sys2Proof/Machine/Operands.lean ====
section
/-! DEFINITION. Where a command's bytes are: storage addresses, block-buffer addresses, the wrap-aware index
arithmetic (20_memory.md R32, R33, R38, R39) and a keyword's bytes (44_keyword.md R122). -/

namespace Sys2Proof.Machine

/-- SAddr(off) = (BASE + off) mod 2^32 (20_memory.md R32). -/
def State.sAddr (s : State) (off : Nat) : Word := .ofNat 32 (s.base.toNat + off)

/-- BufAddr(A, k) = (A + k) mod 2^32 (20_memory.md R33). -/
def bufAddr (a : Word) (k : Nat) : Word := .ofNat 32 (a.toNat + k)

/-- adv(i, n): index i advanced by n with wrap-around at C (20_memory.md R38). -/
def adv (c i n : Nat) : Nat := if n ≥ c - i then n - (c - i) else i + n

/-- first = min(n, C − i): the bytes before the end of storage (20_memory.md R39). -/
def firstSegment (c i n : Nat) : Nat := min n (c - i)

/-- second = n − first: the bytes from offset 0 on (20_memory.md R39). -/
def secondSegment (c i n : Nat) : Nat := n - firstSegment c i n

/-- The storage offset of byte k of a transfer of n bytes from index i (20_memory.md R39). -/
def splitOffset (c i n k : Nat) : Nat := if k < firstSegment c i n then i + k else k - firstSegment c i n

/-- The index after a transfer of n bytes from index i (20_memory.md R39). -/
def nextIndex (c i n : Nat) : Nat :=
  if secondSegment c i n > 0 then secondSegment c i n
  else if i + firstSegment c i n = c then 0
  else i + firstSegment c i n

/-- CAPACITY as a number, C in the pseudocode. -/
def State.cap (s : State) : Nat := s.capacity.toNat

/-- The MEM address of byte k of a write of n bytes at TAIL (42_block.md R92, 44_keyword.md R121). -/
def State.tailAddr (s : State) (n k : Nat) : Word := s.sAddr (splitOffset s.cap s.tail.toNat n k)

/-- The MEM address of byte k of a read of n bytes at HEAD (42_block.md R98). -/
def State.headAddr (s : State) (n k : Nat) : Word := s.sAddr (splitOffset s.cap s.head.toNat n k)

/-- The MEM address of valid-window position k: SAddr(adv(HEAD, k)) (10_state.md R20, 44_keyword.md R127). -/
def State.windowAddr (s : State) (k : Nat) : Word := s.sAddr (adv s.cap s.head.toNat k)

/-- kb[j] = (V >> (8·(K − 1 − j)))[7:0]: byte j of a keyword, most significant first (44_keyword.md R121, R122). -/
def keywordByte (v : Word) (k j : Nat) : Byte := (v >>> (8 * (k - 1 - j))).setWidth 8

/-- hb = V >> (8·(K − 1)): what the high-byte filter compares with (44_keyword.md R127). -/
def highByte (v : Word) (k : Nat) : Word := v >>> (8 * (k - 1))

end Sys2Proof.Machine
end

