-- ==== Sys2Proof/Machine/Ops.lean ====
section
/-! DEFINITION. The operations every command shares: MEM (20_memory.md R35, R36), the byte moves of a transfer
(R41), the updates of the index registers, and how a command ends (60_exceptions.md R152 to R154). The engine has no
trap: `State.ok` and `State.fail` are how a command ends, and there is no return from a failure (R156, R157). -/

namespace Sys2Proof.Machine

/-- The byte MEM holds at an address (20_memory.md R35). -/
def Memory.read : Memory → Nat → Byte
  | [], _ => Config.unlistedByte
  | (x, c) :: m, a => if a = x then c else Memory.read m a

/-- List a byte at an address, keeping the addresses rising. -/
def Memory.put : Memory → Nat → Byte → Memory
  | [], a, b => [(a, b)]
  | (x, c) :: m, a, b =>
    if a < x then (a, b) :: (x, c) :: m
    else if a = x then (a, b) :: m
    else (x, c) :: Memory.put m a b

/-- List no byte at an address. -/
def Memory.drop : Memory → Nat → Memory
  | [], _ => []
  | (x, c) :: m, a => if a = x then m else (x, c) :: Memory.drop m a

/-- Replace the byte at an address and no other byte (20_memory.md R35), in canonical form. -/
def Memory.write (m : Memory) (a : Nat) (b : Byte) : Memory :=
  if b = Config.unlistedByte then m.drop a else m.put a b

/-- The canonical form: addresses strictly rising and below 2^32, no entry equal to what an unlisted address reads
as. -/
def Memory.wf : Memory → Bool
  | [] => true
  | (x, c) :: m =>
    decide (x < Config.memSize) && decide (c ≠ Config.unlistedByte) && m.all (fun e => decide (x < e.1)) && Memory.wf m

/-- A denied range covers an access. -/
def DeniedRange.covers (d : DeniedRange) (a : Word) (k : AccessKind) : Bool :=
  decide (d.kind = k) && decide (d.first ≤ a.toNat) && decide (a.toNat < d.first + d.count)

/-- The address is one of the 64 the register block takes up from ENG_BASE, modulo 2^32 (60_exceptions.md R171; log 24). -/
def inBlock (p : Platform) (a : Word) : Bool := decide ((a - p.engBase).toNat < Config.blockSize)

/-- MemAdmit(addr, kind) (20_memory.md R36): not denied by the platform, and not in the register block where the
platform maps that at MEM addresses (20_memory.md R34). -/
def admits (p : Platform) (a : Word) (k : AccessKind) : Bool :=
  !(p.blockInMem && inBlock p a) && !p.denied.any (fun d => DeniedRange.covers d a k)

/-- MemRead(a, 1): asks MemAdmit first (20_memory.md R35, R36). -/
def memRead (p : Platform) (m : Memory) (a : Word) : Except Fault Byte :=
  if admits p a .read then .ok (m.read a.toNat) else .error (.stuck .read a)

/-- MemWrite(a, 1, b): asks MemAdmit first (20_memory.md R35, R36). -/
def memWrite (p : Platform) (m : Memory) (a : Word) (b : Byte) : Except Fault Memory :=
  if admits p a .write then .ok (m.write a.toNat b) else .error (.stuck .write a)

/-- Where a byte to store comes from: MEM, or the command itself. -/
inductive Source where
  | mem (addr : Word)
  | value (b : Byte)
deriving DecidableEq, Repr

/-- One byte of a transfer: its source and the MEM address it is stored at. -/
structure Move where
  src : Source
  dst : Word
deriving DecidableEq, Repr

/-- How far a transfer got: MEM then, and what made it stuck if it did not finish. -/
structure Progress where
  mem : Memory
  stuck : Option Fault
deriving DecidableEq, Repr

/-- The byte a move stores. -/
def Source.fetch (p : Platform) (m : Memory) : Source → Except Fault Byte
  | .mem a => memRead p m a
  | .value b => .ok b

/-- The byte moves of a transfer in order: for each, the read of its source and then the write of its destination
(20_memory.md R41). -/
def runMoves (p : Platform) : List Move → Memory → Progress
  | [], m => ⟨m, none⟩
  | v :: vs, m =>
    match v.src.fetch p m with
    | .error r => ⟨m, some r⟩
    | .ok b =>
      match memWrite p m v.dst b with
      | .error r => ⟨m, some r⟩
      | .ok m' => runMoves p vs m'

/-- WRITE_BYTE's one store, at SAddr(TAIL) (41_byte.md R81). -/
def State.byteMoves (s : State) (b : Byte) : List Move := [⟨.value b, s.sAddr s.tail.toNat⟩]

/-- WRITE_BLOCK's moves: byte k from BufAddr(SRC, k) to its storage offset from TAIL (42_block.md R92). -/
def State.blockInMoves (s : State) (src : Word) (n : Nat) : List Move :=
  (List.range n).map fun k => ⟨.mem (bufAddr src k), s.tailAddr n k⟩

/-- READ_BLOCK's moves: byte k from its storage offset from HEAD to BufAddr(DST, k) (42_block.md R98). -/
def State.blockOutMoves (s : State) (dst : Word) (n : Nat) : List Move :=
  (List.range n).map fun k => ⟨.mem (s.headAddr n k), bufAddr dst k⟩

/-- INSERT_KEYWORD's stores: keyword byte k to its storage offset from TAIL (44_keyword.md R121). -/
def State.keywordMoves (s : State) (v : Word) (n : Nat) : List Move :=
  (List.range n).map fun k => ⟨.value (keywordByte v n k), s.tailAddr n k⟩

/-- `n` bytes were stored: LENGTH grows by n and TAIL moves to `next` (10_state.md R12, R13). -/
def State.stored (s : State) (n next : Nat) : State :=
  { s with length := .ofNat 16 (s.length.toNat + n), tail := .ofNat 16 next }

/-- `n` bytes were consumed: LENGTH shrinks by n and HEAD moves to `next` (10_state.md R11, R13). -/
def State.consumed (s : State) (n next : Nat) : State :=
  { s with length := .ofNat 16 (s.length.toNat - n), head := .ofNat 16 next }

/-- ok(d): the command ends with DATA = d and STATUS = OK (60_exceptions.md R152). -/
def State.ok (s : State) (d : Nat) : State := { s with result := resultWord d .ok }

/-- fail(S): the command ends with status S and DATA = 0, and nothing else changes (60_exceptions.md R153). -/
def State.fail (s : State) (st : Status) : State := { s with result := resultWord 0 st }

/-- The shared order of checks of every command but INIT: binding, then the command's own checks, then its effect
(60_exceptions.md R154). -/
def State.whenBound (s : State) (check : Option Status) (effect : Host.Outcome State Fault Refusal) :
    Host.Outcome State Fault Refusal :=
  if s.bound then
    match check with
    | some st => .next (s.fail st)
    | none => effect
  else .next (s.fail .notInitialized)

/-- Run a transfer and go on from the MEM it leaves; a move that MemAdmit does not admit leaves the command stuck
(20_memory.md R36). -/
def State.afterMoves (s : State) (vs : List Move) (next : State → State) : Host.Outcome State Fault Refusal :=
  match (runMoves s.platform vs s.mem).stuck with
  | some r => .fault r
  | none => .next (next { s with mem := (runMoves s.platform vs s.mem).mem })

end Sys2Proof.Machine
end

