-- ==== Sys2Proof/Machine/Block.lean ====
section
/-! DEFINITION. WRITE_BLOCK and READ_BLOCK (42_block.md R90 to R99). -/

namespace Sys2Proof.Machine

/-- WRITE_BLOCK src, len (42_block.md R91, R92). -/
def execWriteBlock (src : Word) (len : Half) (s : State) : Host.Outcome State Fault Refusal :=
  s.whenBound (spaceCheck s len.toNat)
    (s.afterMoves (s.blockInMoves src len.toNat) fun t =>
      (t.stored len.toNat (nextIndex s.cap s.tail.toNat len.toNat)).ok 0)

/-- READ_BLOCK dst, len (42_block.md R97, R98). -/
def execReadBlock (dst : Word) (len : Half) (s : State) : Host.Outcome State Fault Refusal :=
  s.whenBound (dataCheck s len.toNat)
    (s.afterMoves (s.blockOutMoves dst len.toNat) fun t =>
      (t.consumed len.toNat (nextIndex s.cap s.head.toNat len.toNat)).ok 0)

end Sys2Proof.Machine
end

