-- ==== Sys2Proof/Machine/Byte.lean ====
section
/-! DEFINITION. WRITE_BYTE and READ_BYTE (41_byte.md R80 to R85). -/

namespace Sys2Proof.Machine

/-- WRITE_BYTE b (41_byte.md R81). -/
def execWriteByte (b : Byte) (s : State) : Host.Outcome State Fault Refusal :=
  s.whenBound (writeByteCheck s)
    (s.afterMoves (s.byteMoves b) fun t => (t.stored 1 (adv s.cap s.tail.toNat 1)).ok 0)

/-- READ_BYTE (41_byte.md R84). -/
def execReadByte (s : State) : Host.Outcome State Fault Refusal :=
  s.whenBound (readByteCheck s)
    (match memRead s.platform s.mem (s.sAddr s.head.toNat) with
    | .error r => .fault r
    | .ok b => .next ((s.consumed 1 (adv s.cap s.head.toNat 1)).ok b.toNat))

end Sys2Proof.Machine
end

