-- ==== Sys2Proof/Machine/Delete.lean ====
section
/-! DEFINITION. DELETE (43_delete.md R110 to R112). -/

namespace Sys2Proof.Machine

/-- DELETE len (43_delete.md R111). -/
def execDelete (len : Half) (s : State) : Host.Outcome State Fault Refusal :=
  s.whenBound (dataCheck s len.toNat)
    (.next ((s.consumed len.toNat (adv s.cap s.head.toNat len.toNat)).ok 0))

end Sys2Proof.Machine
end

