-- ==== Sys2Proof/Machine/Init.lean ====
section
/-! DEFINITION. INIT (40_init.md R70 to R73). -/

namespace Sys2Proof.Machine

/-- INIT base, cap: binds the buffer, whether BOUND is 0 or 1 (40_init.md R71, R73). -/
def execInit (base : Word) (cap : Half) (s : State) : Host.Outcome State Fault Refusal :=
  match initCheck cap with
  | some st => .next (s.fail st)
  | none =>
    .next ({ s with base := base, capacity := cap, head := 0, tail := 0, length := 0, bound := true }.ok 0)

end Sys2Proof.Machine
end

