-- ==== Sys2Proof/Machine/Introspection.lean ====
section
/-! DEFINITION. GET_LEN and GET_FREE (45_introspection.md R140 to R145). -/

namespace Sys2Proof.Machine

/-- GET_LEN (45_introspection.md R141). -/
def execGetLen (s : State) : Host.Outcome State Fault Refusal :=
  s.whenBound none (.next (s.ok s.length.toNat))

/-- GET_FREE (45_introspection.md R144). -/
def execGetFree (s : State) : Host.Outcome State Fault Refusal :=
  s.whenBound none (.next (s.ok s.freeCount))

end Sys2Proof.Machine
end

