-- ==== Sys2Proof/Machine/Keyword.lean ====
section
/-! DEFINITION. INSERT_KEYWORD and FIND_KEYWORD (44_keyword.md R120 to R133). -/

namespace Sys2Proof.Machine

/-- INSERT_KEYWORD value, klen (44_keyword.md R121). -/
def execInsertKeyword (v : Word) (klen : BitVec 3) (s : State) : Host.Outcome State Fault Refusal :=
  s.whenBound (insertKeywordCheck s klen.toNat)
    (s.afterMoves (s.keywordMoves v klen.toNat) fun t =>
      (t.stored klen.toNat (nextIndex s.cap s.tail.toNat klen.toNat)).ok 0)

/-- RECON(p, n) from the accumulator `acc`: bytes forward from offset `q` with wrap-around, most significant first
(44_keyword.md R126). -/
def State.recon (s : State) : Nat → Nat → Word → Except Fault Word
  | 0, _, acc => .ok acc
  | n + 1, q, acc =>
    match memRead s.platform s.mem (s.sAddr q) with
    | .error r => .error r
    | .ok b => State.recon s n (adv s.cap q 1) ((acc <<< 8) ||| b.setWidth 32)

/-- One candidate position p: the high-byte filter, then the full compare (44_keyword.md R127, R129). -/
def State.candidateMatches (s : State) (v : Word) (k p : Nat) : Except Fault Bool :=
  match memRead s.platform s.mem (s.sAddr p) with
  | .error r => .error r
  | .ok b =>
    if b.setWidth 32 = highByte v k then
      match s.recon k p 0 with
      | .error r => .error r
      | .ok w => .ok (w == v)
    else .ok false

/-- The scan over `n` candidates from candidate `i` on, in ascending order; the answer is the first match's i
(44_keyword.md R127, R130). -/
def State.scan (s : State) (v : Word) (k : Nat) : Nat → Nat → Except Fault (Option Nat)
  | 0, _ => .ok none
  | n + 1, i =>
    match s.candidateMatches v k (adv s.cap s.head.toNat i) with
    | .error r => .error r
    | .ok true => .ok (some i)
    | .ok false => State.scan s v k n (i + 1)

/-- FIND_KEYWORD value, klen (44_keyword.md R127): LENGTH − K + 1 candidates, the distance is i + K (R131). -/
def execFindKeyword (v : Word) (klen : BitVec 3) (s : State) : Host.Outcome State Fault Refusal :=
  s.whenBound (findKeywordCheck s klen.toNat)
    (match s.scan v klen.toNat (s.length.toNat - klen.toNat + 1) 0 with
    | .error r => .fault r
    | .ok (some i) => .next (s.ok (i + klen.toNat))
    | .ok none => .next (s.fail .notFound))

end Sys2Proof.Machine
end

