-- ==== Sys2Proof/Syntax.lean ====
section
/-! DEFINITION. The ten commands (00_scope.md R2; opcode map 30_encoding.md R54), one constructor per row of
spec/opcode_table.json. Each operand has the width of its field (30_encoding.md R52), so every term is a command
the encoding can express; the range check of the assembler, where an operand can be out of its field's range,
is in WellFormed.lean. -/

namespace Sys2Proof

/-- A command with its operands. -/
inductive Instr where
  /-- INIT base, cap (40_init.md R71) -/
  | init (base : Word) (cap : Half)
  /-- WRITE_BYTE b (41_byte.md R81) -/
  | writeByte (b : Byte)
  /-- READ_BYTE (41_byte.md R84) -/
  | readByte
  /-- WRITE_BLOCK src, len (42_block.md R92) -/
  | writeBlock (src : Word) (len : Half)
  /-- READ_BLOCK dst, len (42_block.md R98) -/
  | readBlock (dst : Word) (len : Half)
  /-- DELETE len (43_delete.md R111) -/
  | delete (len : Half)
  /-- INSERT_KEYWORD value, klen (44_keyword.md R121); klen is any 3-bit value (30_encoding.md R57) -/
  | insertKeyword (value : Word) (klen : BitVec 3)
  /-- FIND_KEYWORD value, klen (44_keyword.md R127); klen is any 3-bit value (30_encoding.md R57) -/
  | findKeyword (value : Word) (klen : BitVec 3)
  /-- GET_LEN (45_introspection.md R141) -/
  | getLen
  /-- GET_FREE (45_introspection.md R144) -/
  | getFree
deriving DecidableEq, Repr

end Sys2Proof
end

