-- ==== Sys2Proof/Machine/Dispatch.lean ====
section
/-! DEFINITION. What each command does: one arm per constructor of Instr. -/

namespace Sys2Proof.Machine

/-- The effect of a legal command (40_init.md to 45_introspection.md). -/
def exec (i : Instr) (s : State) : Host.Outcome State Fault Refusal :=
  match i with
  | .init base cap => Sys2Proof.Machine.execInit base cap s
  | .writeByte b => Sys2Proof.Machine.execWriteByte b s
  | .readByte => Sys2Proof.Machine.execReadByte s
  | .writeBlock src len => Sys2Proof.Machine.execWriteBlock src len s
  | .readBlock dst len => Sys2Proof.Machine.execReadBlock dst len s
  | .delete len => Sys2Proof.Machine.execDelete len s
  | .insertKeyword value klen => Sys2Proof.Machine.execInsertKeyword value klen s
  | .findKeyword value klen => Sys2Proof.Machine.execFindKeyword value klen s
  | .getLen => Sys2Proof.Machine.execGetLen s
  | .getFree => Sys2Proof.Machine.execGetFree s

end Sys2Proof.Machine
end

