-- ==== Sys2Proof/Decode.lean ====
section
/-! DEFINITION. The command word CMD64 (30_encoding.md R50 to R58): its fields, the decoder, which is total and
rejects by name, the opcode map as match and mask, and the encoder. -/

namespace Sys2Proof

/-- OPC, bits 3:0 (30_encoding.md R51). -/
def opcField (w : CmdWord) : BitVec 4 := w.extractLsb' 0 4

/-- KLEN, bits 6:4 (30_encoding.md R51). -/
def klenField (w : CmdWord) : BitVec 3 := w.extractLsb' 4 3

/-- RSV, bits 15:7, zero in every legal command (30_encoding.md R51). -/
def rsvField (w : CmdWord) : BitVec 9 := w.extractLsb' 7 9

/-- LEN, bits 31:16 (30_encoding.md R51). -/
def lenField (w : CmdWord) : Half := w.extractLsb' 16 16

/-- VAL, bits 63:32 (30_encoding.md R51). -/
def valField (w : CmdWord) : Word := w.extractLsb' 32 32

/-- The byte operand of WRITE_BYTE, VAL[7:0] = bits 39:32 (30_encoding.md R52). -/
def byteField (w : CmdWord) : Byte := w.extractLsb' 32 8

/-- VAL[31:8] = bits 63:40, which WRITE_BYTE does not use (30_encoding.md R53). -/
def valHighField (w : CmdWord) : BitVec 24 := w.extractLsb' 40 24

/-- Why a word is illegal (30_encoding.md R56). Every reason ends with the one status IllegalCommand. -/
inductive Illegal where
  /-- OPC 0x0 -/
  | zeroOpcode
  /-- OPC 0xB to 0xF, reserved for later revisions -/
  | reservedOpcode
  /-- a non-zero bit in a field the opcode does not use -/
  | unusedFieldNotZero
deriving DecidableEq, Repr

/-- The command `i` if the fields its opcode does not use are zero (30_encoding.md R53, R55). -/
def whenUnusedZero (unusedZero : Bool) (i : Instr) : Except Illegal Instr :=
  if unusedZero then .ok i else .error .unusedFieldNotZero

/-- The decoder: total, it depends on no engine state (30_encoding.md R55, R58), and a word outside the opcode map
is rejected by name (R56). The unused fields of each opcode are those marked 0 in R53. -/
def decode (w : CmdWord) : Except Illegal Instr :=
  match (opcField w).toNat with
  | 0x0 => .error .zeroOpcode
  | 0x1 => whenUnusedZero (klenField w == 0 && rsvField w == 0) (.init (valField w) (lenField w))
  | 0x2 => whenUnusedZero (klenField w == 0 && rsvField w == 0 && lenField w == 0 && valHighField w == 0)
      (.writeByte (byteField w))
  | 0x3 => whenUnusedZero (klenField w == 0 && rsvField w == 0 && lenField w == 0 && valField w == 0) .readByte
  | 0x4 => whenUnusedZero (klenField w == 0 && rsvField w == 0) (.writeBlock (valField w) (lenField w))
  | 0x5 => whenUnusedZero (klenField w == 0 && rsvField w == 0) (.readBlock (valField w) (lenField w))
  | 0x6 => whenUnusedZero (klenField w == 0 && rsvField w == 0 && valField w == 0) (.delete (lenField w))
  | 0x7 => whenUnusedZero (rsvField w == 0 && lenField w == 0) (.insertKeyword (valField w) (klenField w))
  | 0x8 => whenUnusedZero (rsvField w == 0 && lenField w == 0) (.findKeyword (valField w) (klenField w))
  | 0x9 => whenUnusedZero (klenField w == 0 && rsvField w == 0 && lenField w == 0 && valField w == 0) .getLen
  | 0xA => whenUnusedZero (klenField w == 0 && rsvField w == 0 && lenField w == 0 && valField w == 0) .getFree
  | _ => .error .reservedOpcode

/-- A row of the opcode map: a word selects it when (w AND mask) = match (30_encoding.md R54). -/
structure OpcodeRow where
  pattern : CmdWord
  mask : CmdWord
deriving DecidableEq, Repr

/-- `(w AND mask) = match` (30_encoding.md R54). -/
def OpcodeRow.selects (r : OpcodeRow) (w : CmdWord) : Bool := w &&& r.mask == r.pattern

/-- The row of the opcode map that a command's words select (30_encoding.md R54, spec/opcode_table.json). -/
def Instr.row : Instr → OpcodeRow
  | .init _ _ => ⟨0x0000000000000001, 0x000000000000FFFF⟩
  | .writeByte _ => ⟨0x0000000000000002, 0xFFFFFF00FFFFFFFF⟩
  | .readByte => ⟨0x0000000000000003, 0xFFFFFFFFFFFFFFFF⟩
  | .writeBlock _ _ => ⟨0x0000000000000004, 0x000000000000FFFF⟩
  | .readBlock _ _ => ⟨0x0000000000000005, 0x000000000000FFFF⟩
  | .delete _ => ⟨0x0000000000000006, 0xFFFFFFFF0000FFFF⟩
  | .insertKeyword _ _ => ⟨0x0000000000000007, 0x00000000FFFFFF8F⟩
  | .findKeyword _ _ => ⟨0x0000000000000008, 0x00000000FFFFFF8F⟩
  | .getLen => ⟨0x0000000000000009, 0xFFFFFFFFFFFFFFFF⟩
  | .getFree => ⟨0x000000000000000A, 0xFFFFFFFFFFFFFFFF⟩

/-- The ten rows in the order of the opcode map (30_encoding.md R54). -/
def opcodeMap : List OpcodeRow :=
  [Instr.row (.init 0 0), Instr.row (.writeByte 0), Instr.row .readByte, Instr.row (.writeBlock 0 0),
    Instr.row (.readBlock 0 0), Instr.row (.delete 0), Instr.row (.insertKeyword 0 0),
    Instr.row (.findKeyword 0 0), Instr.row .getLen, Instr.row .getFree]

/-- The opcode number of a command (30_encoding.md R54). -/
def Instr.opcode : Instr → BitVec 4
  | .init _ _ => 0x1
  | .writeByte _ => 0x2
  | .readByte => 0x3
  | .writeBlock _ _ => 0x4
  | .readBlock _ _ => 0x5
  | .delete _ => 0x6
  | .insertKeyword _ _ => 0x7
  | .findKeyword _ _ => 0x8
  | .getLen => 0x9
  | .getFree => 0xA

/-- w = {VAL, LEN, RSV, KLEN, OPC} with RSV = 0 (30_encoding.md R51). -/
def packWord (val : Word) (len : Half) (klen : BitVec 3) (opc : BitVec 4) : CmdWord :=
  .ofNat 64 (val.toNat * 2 ^ 32 + len.toNat * 2 ^ 16 + klen.toNat * 2 ^ 4 + opc.toNat)

/-- The encoder: "Every field not listed is 0" (30_encoding.md R59, fields R51, R53). -/
def encode (i : Instr) : CmdWord :=
  match i with
  | .init base cap => packWord base cap 0 i.opcode
  | .writeByte b => packWord (b.setWidth 32) 0 0 i.opcode
  | .readByte => packWord 0 0 0 i.opcode
  | .writeBlock src len => packWord src len 0 i.opcode
  | .readBlock dst len => packWord dst len 0 i.opcode
  | .delete len => packWord 0 len 0 i.opcode
  | .insertKeyword value klen => packWord value 0 klen i.opcode
  | .findKeyword value klen => packWord value 0 klen i.opcode
  | .getLen => packWord 0 0 0 i.opcode
  | .getFree => packWord 0 0 0 i.opcode

/-- CMD_LO, bits 31:0 of a command word (30_encoding.md R50). -/
def loHalf (w : CmdWord) : Word := w.extractLsb' 0 32

/-- CMD_HI, bits 63:32 of a command word (30_encoding.md R50). -/
def hiHalf (w : CmdWord) : Word := w.extractLsb' 32 32

/-- The command word of an instruction whose bits are `w`, of which the table gives `nbits` (the bits above are
zero). CMD64 is the only format and a command is one word, numbered as the table numbers it (30_encoding.md R50). -/
def tableWord (nbits w : Nat) : CmdWord := .ofNat 64 (w % 2 ^ nbits)

/-- The instruction the decoder reads from the table's numbering of a word's bits. -/
def decodeTableWord (nbits w : Nat) : Option Instr :=
  match decode (tableWord nbits w) with
  | .ok i => some i
  | .error _ => none

end Sys2Proof
end

