-- ==== Sys2Proof/Machine/Footprint.lean ====
section
/-! DEFINITION. The MEM bytes a command reads and writes in a state. A reset that strikes a command leaves a prefix of
its writes (70_reset_and_hazards.md R182), and a host must keep off those bytes while it runs (R191). -/

namespace Sys2Proof.Machine

/-- The command word the engine executes: CMD_HI and CMD_LO (60_exceptions.md R172). -/
def State.commandWord (s : State) : CmdWord := s.cmdHi ++ s.cmdLo

/-- The moves of a command that passes its checks; none for one that fails, since a failure accesses no MEM byte but
for FIND_KEYWORD's reads (60_exceptions.md R153). -/
def movesIfAdmitted (s : State) (check : Option Status) (vs : List Move) : List Move :=
  if s.bound && check.isNone then vs else []

/-- The byte moves a command makes in a state, in order (20_memory.md R41, 70_reset_and_hazards.md R196). -/
def commandMoves (i : Instr) (s : State) : List Move :=
  match i with
  | .init _ _ => []
  | .writeByte b => movesIfAdmitted s (writeByteCheck s) (s.byteMoves b)
  | .readByte => []
  | .writeBlock src len => movesIfAdmitted s (spaceCheck s len.toNat) (s.blockInMoves src len.toNat)
  | .readBlock dst len => movesIfAdmitted s (dataCheck s len.toNat) (s.blockOutMoves dst len.toNat)
  | .delete _ => []
  | .insertKeyword v klen => movesIfAdmitted s (insertKeywordCheck s klen.toNat) (s.keywordMoves v klen.toNat)
  | .findKeyword _ _ => []
  | .getLen => []
  | .getFree => []

/-- The addresses a command writes, in order. -/
def commandWrites (i : Instr) (s : State) : List Word := (commandMoves i s).map Move.dst

/-- The address a move reads, if its byte comes from MEM. -/
def Move.readAddr (v : Move) : Option Word :=
  match v.src with
  | .mem a => some a
  | .value _ => none

/-- The addresses a command may read: the sources of its moves, READ_BYTE's byte, and for FIND_KEYWORD the whole valid
window, where all of its reads lie (44_keyword.md R127). -/
def commandReads (i : Instr) (s : State) : List Word :=
  match i with
  | .readByte => if s.bound && (readByteCheck s).isNone then [s.sAddr s.head.toNat] else []
  | .findKeyword _ klen =>
    if s.bound && (findKeywordCheck s klen.toNat).isNone then (List.range s.length.toNat).map s.windowAddr else []
  | .init _ _ => (commandMoves i s).filterMap Move.readAddr
  | .writeByte _ => (commandMoves i s).filterMap Move.readAddr
  | .writeBlock _ _ => (commandMoves i s).filterMap Move.readAddr
  | .readBlock _ _ => (commandMoves i s).filterMap Move.readAddr
  | .delete _ => (commandMoves i s).filterMap Move.readAddr
  | .insertKeyword _ _ => (commandMoves i s).filterMap Move.readAddr
  | .getLen => (commandMoves i s).filterMap Move.readAddr
  | .getFree => (commandMoves i s).filterMap Move.readAddr

/-- The moves of the issued command; an illegal word makes none (30_encoding.md R56). -/
def State.pendingMoves (s : State) : List Move :=
  match decode s.commandWord with
  | .ok i => commandMoves i s
  | .error _ => []

/-- The addresses the issued command writes. -/
def State.pendingWrites (s : State) : List Word := s.pendingMoves.map Move.dst

/-- The addresses the issued command may read. -/
def State.pendingReads (s : State) : List Word :=
  match decode s.commandWord with
  | .ok i => commandReads i s
  | .error _ => []

end Sys2Proof.Machine
end

