-- ==== Sys2Proof/Machine/RegBlock.lean ====
section
/-! DEFINITION. The host's register block (60_exceptions.md R171 to R173): which access it accepts, what a read
returns, what a write does. -/

namespace Sys2Proof.Machine

/-- The offset from ENG_BASE of an address, modulo 2^32 (log 24). -/
def State.blockOffset (s : State) (a : Word) : Nat := (a - s.platform.engBase).toNat

/-- The offset an access selects: "Every access must be an aligned 32-bit access; any other access is one the
platform refuses" (60_exceptions.md R171; log 10). -/
def State.regOffset (s : State) (a : Word) (size : AccessSize) : Except Refusal Nat :=
  if !inBlock s.platform a then .error (.outsideRegisterBlock a)
  else if decide (size = .word) && decide (s.blockOffset a % 4 = 0) then .ok (s.blockOffset a)
  else .error (.registerAccess a size)

/-- A one-bit register as a number. -/
def bit (b : Bool) : Nat := if b then 1 else 0

/-- STATUS: bit 0 BUSY, bit 1 BOUND, bits 31:2 zero (60_exceptions.md R171). -/
def State.statusWord (s : State) : Word := .ofNat 32 (bit s.bound * 2 + bit s.busy)

/-- What a read of the register at an offset returns (60_exceptions.md R171); reserved offsets read as 0. -/
def State.regValue (s : State) (off : Nat) : Word :=
  match off with
  | 0x00 => s.cmdLo
  | 0x04 => s.cmdHi
  | 0x08 => s.result
  | 0x0C => s.statusWord
  | 0x10 => s.head.setWidth 32
  | 0x14 => s.tail.setWidth 32
  | 0x18 => s.length.setWidth 32
  | 0x1C => s.capacity.setWidth 32
  | 0x20 => s.base
  | _ => 0

/-- What a write of the register at an offset does (60_exceptions.md R171, R172): CMD_LO stores, CMD_HI stores and
issues the command word (BUSY becomes 1), every other write is ignored. -/
def State.regWrite (s : State) (off : Nat) (v : Word) : State :=
  match off with
  | 0x00 => { s with cmdLo := v }
  | 0x04 => { s with cmdHi := v, busy := true }
  | _ => s

/-- The offset of STATUS, whose reads are never held (60_exceptions.md R173). -/
def statusOffset : Nat := 0x0C

/-- The reads that are held while BUSY = 1: RESULT, HEAD, TAIL, LENGTH, CAPACITY, BASE (60_exceptions.md R173). -/
def heldLoadOffsets : List Nat := [0x08, 0x10, 0x14, 0x18, 0x1C, 0x20]

/-- The writes that are held while BUSY = 1: CMD_LO and CMD_HI (60_exceptions.md R172). -/
def heldStoreOffsets : List Nat := [0x00, 0x04]

end Sys2Proof.Machine
end

