-- ==== Sys2Proof/Machine/HostPort.lean ====
section
/-! DEFINITION. The host agents' accesses (60_exceptions.md R170 to R174; 20_memory.md R42; 70_reset_and_hazards.md
R180 to R183, R191, R193): what each does, and which comes first while a command executes. -/

namespace Sys2Proof.Machine

/-- Every engine and register-block register at its reset value, MEM untouched (70_reset_and_hazards.md R180). -/
def State.resetRegisters (s : State) : State :=
  { s with
    head := 0, tail := 0, length := 0, capacity := 0, base := 0, bound := false, result := 0
    cmdLo := 0, cmdHi := 0, busy := false }

/-- MEM when a command is abandoned after `k` of its writes (70_reset_and_hazards.md R182); a command that is stuck
before its k-th write has made the writes before that (log 7). -/
def State.abandonedMem (s : State) (k : Nat) : Memory :=
  (runMoves s.platform (s.pendingMoves.take k) s.mem).mem

/-- The drawn length of the prefix: from 0 to the number of writes the command would make
(70_reset_and_hazards.md R182). -/
def State.drawnPrefix (s : State) : Nat := Config.freePrefix s.draws % (s.pendingMoves.length + 1)

/-- Reset: while idle it sets the registers (70_reset_and_hazards.md R180); while a command executes it also abandons
the command after a drawn prefix of its writes (R182). -/
def State.hostReset (s : State) : State :=
  if s.busy then { s.resetRegisters with mem := s.abandonedMem s.drawnPrefix, draws := s.draws + 1 }
  else s.resetRegisters

/-- A byte access to an address where the platform maps the register block is an access to the block, and not a 32-bit
one (60_exceptions.md R171, 20_memory.md R34). -/
def State.hiddenByBlock (s : State) (a : Word) : Bool := s.platform.blockInMem && inBlock s.platform a

/-- What a host's access or event does when it takes effect. A CMD_HI write that coincides with a reset is lost
(70_reset_and_hazards.md R183). -/
def hostAct (a : HostAction) (s : State) : Host.Outcome State Fault Refusal :=
  match a with
  | .regLoad addr size =>
    match s.regOffset addr size with
    | .error r => .refused r
    | .ok off => .next { s with readData := some (s.regValue off) }
  | .regStore addr size v =>
    match s.regOffset addr size with
    | .error r => .refused r
    | .ok off => .next (s.regWrite off v)
  | .memLoad addr =>
    if s.hiddenByBlock addr then .refused (.registerAccess addr .byte)
    else .next { s with readData := some ((s.mem.read addr.toNat).setWidth 32) }
  | .memStore addr b =>
    if s.hiddenByBlock addr then .refused (.registerAccess addr .byte)
    else .next { s with mem := s.mem.write addr.toNat b }
  | .reset _ => .next s.hostReset

/-- An access that is held until BUSY = 0: writes of CMD_LO and CMD_HI (60_exceptions.md R172), reads of RESULT, HEAD,
TAIL, LENGTH, CAPACITY and BASE (R173). -/
def State.heldWhileBusy (s : State) (a : HostAction) : Bool :=
  match a with
  | .regLoad addr size =>
    match s.regOffset addr size with
    | .error _ => false
    | .ok off => heldLoadOffsets.contains off
  | .regStore addr size _ =>
    match s.regOffset addr size with
    | .error _ => false
    | .ok off => heldStoreOffsets.contains off
  | .memLoad _ => false
  | .memStore _ _ => false
  | .reset _ => false

/-- A read of STATUS (60_exceptions.md R173). -/
def State.isStatusLoad (s : State) (a : HostAction) : Bool :=
  match a with
  | .regLoad addr size =>
    match s.regOffset addr size with
    | .error _ => false
    | .ok off => off == statusOffset
  | .regStore _ _ _ => false
  | .memLoad _ => false
  | .memStore _ _ => false
  | .reset _ => false

/-- The address at which a host's MEM access races the issued command: it writes a byte the command reads or writes,
or reads a byte the command writes (70_reset_and_hazards.md R191). -/
def State.raceAddr (s : State) (a : HostAction) : Option Word :=
  match a with
  | .regLoad _ _ => none
  | .regStore _ _ _ => none
  | .memLoad addr => if s.pendingWrites.contains addr then some addr else none
  | .memStore addr _ =>
    if s.pendingWrites.contains addr || s.pendingReads.contains addr then some addr else none
  | .reset _ => none

/-- The two host writes that issue a command word and the read of its RESULT, in the order of one command's use of the
register block (60_exceptions.md R172, 70_reset_and_hazards.md R190). -/
def issueSequence (p : Platform) (w : CmdWord) : List HostAction :=
  [.regStore p.engBase .word (loHalf w), .regStore (p.engBase + 4) .word (hiHalf w),
    .regLoad (p.engBase + 8) .word]

end Sys2Proof.Machine
end

