-- ==== Sys2Proof/Machine/Command.lean ====
section
/-! DEFINITION. One step of the machine: the engine executes the issued command, or the oldest pending host access
takes effect (60_exceptions.md R172, R173; 20_memory.md R40, R42). -/

namespace Sys2Proof.Machine

/-- Completion: RESULT has been written, "then sets BUSY to 0" (60_exceptions.md R173). -/
def complete (o : Host.Outcome State Fault Refusal) : Host.Outcome State Fault Refusal :=
  match o with
  | .next s => .next { s with busy := false }
  | .fault r => .fault r
  | .refused r => .refused r

/-- The engine executes the issued command: a legal word has its command's effect, an illegal word ends with
IllegalCommand (60_exceptions.md R154, 30_encoding.md R55, R56). -/
def runCommand (s : State) : Host.Outcome State Fault Refusal :=
  match decode s.commandWord with
  | .ok i => complete (exec i s)
  | .error _ => complete (.next (s.fail .illegalCommand))

/-- A STATUS read answered between the command's write of RESULT and the fall of BUSY: it shows BUSY = 1 and the BOUND
the command leaves (60_exceptions.md R173; log 6). BUSY falls with it (log 25). -/
def State.statusBeforeBusyFalls (t : State) : State :=
  { t with readData := some ({ t with busy := true }).statusWord }

/-- STATUS read `a`, taken from the pending accesses of `s`, against a command that ends with `o`. A stuck command never
completes: the read is answered at once and BUSY stays 1 (20_memory.md R36, 60_exceptions.md R173). Against one that
completes, `order` says when it is answered; after the completion means that it is the next access to take effect
(log 6). DESIGN CHOICE (log 25, unsafe): at most one STATUS read falls between the write of RESULT and the fall of BUSY,
since both are in one step; the spec does not say how many can. -/
def statusAgainst (a : HostAction) (order : Config.StatusOrder) (s : State) (o : Host.Outcome State Fault Refusal) :
    Host.Outcome State Fault Refusal :=
  match o, order with
  | .fault _, _ => hostAct a s
  | .refused r, _ => .refused r
  | .next _, .beforeCommand => hostAct a s
  | .next t, .beforeBusyFalls => .next t.statusBeforeBusyFalls
  | .next t, .afterCommand => .next { t with hostQueue := a :: s.hostQueue }

/-- A step while BUSY = 1 and STATUS read `a` is the oldest pending access: it is never held (60_exceptions.md R173), and
a free value says when it is answered (log 6). -/
def stepBusyStatus (a : HostAction) (rest : List HostAction) (s : State) : Host.Outcome State Fault Refusal :=
  statusAgainst a (Config.freeStatusOrder s.draws) { s with hostQueue := rest, draws := s.draws + 1 }
    (runCommand { s with hostQueue := rest, draws := s.draws + 1 })

/-- A step while BUSY = 1 and host action `a` is the oldest pending one. A held access waits for the command. A STATUS
read is answered before, during or after the completion, by a free value, or at once beside a stuck command (log 6). A
race is refused (log 9). Anything else (reset, a MEM access off the command's bytes, a register access that is not held)
takes effect at once. DESIGN CHOICE (log 26, unsafe): a MEM access or a reset that is the oldest pending action while
BUSY = 1 is always taken before the completion. The spec lets it fall after BUSY fell too (20_memory.md R42,
70_reset_and_hazards.md R191), where a MEM access to the command's bytes is no race. -/
def stepBusyWith (a : HostAction) (rest : List HostAction) (s : State) : Host.Outcome State Fault Refusal :=
  if s.heldWhileBusy a then runCommand s
  else if s.isStatusLoad a then stepBusyStatus a rest s
  else
    match s.raceAddr a with
    | some addr => .refused (.hostRace addr)
    | none => hostAct a { s with hostQueue := rest }

/-- A step while BUSY = 1 (60_exceptions.md R172, R173). -/
def stepBusy (s : State) : Host.Outcome State Fault Refusal :=
  match s.hostQueue with
  | [] => runCommand s
  | a :: rest => stepBusyWith a rest s

/-- A step while BUSY = 0: the oldest pending host action takes effect; with none pending the engine "is idle and holds
all its registers" (60_exceptions.md R177). -/
def stepIdle (s : State) : Host.Outcome State Fault Refusal :=
  match s.hostQueue with
  | [] => .next s
  | a :: rest => hostAct a { s with hostQueue := rest }

/-- One step. -/
def stepMachine (s : State) : Host.Outcome State Fault Refusal :=
  if s.busy then stepBusy s else stepIdle s

/-- The engine's next step executes the issued command: BUSY = 1, and no pending host access comes before it. -/
def State.runsCommandNext (s : State) : Bool :=
  s.busy &&
    match s.hostQueue with
    | [] => true
    | a :: _ => s.heldWhileBusy a

/-- A program is the sequence of commands a host issues; the next command runs whatever the status of the one before it,
and a stuck command ends nothing (10_state.md R18, 70_reset_and_hazards.md R198). -/
def runProgram : List Instr → State → Host.Outcome State Fault Refusal
  | [], s => .next s
  | i :: is, s =>
    match exec i s with
    | .next t => runProgram is t
    | .fault r => .fault r
    | .refused r => .refused r

/-- `s` with the command word `w` issued and about to execute: CMD_LO, CMD_HI and BUSY as the host's two writes leave
them (60_exceptions.md R172). Pending host accesses that would take effect before the command are dropped (log 20). -/
def State.withIssued (s : State) (w : CmdWord) : State :=
  { s with
    cmdLo := loHalf w, cmdHi := hiHalf w, busy := true
    hostQueue := s.hostQueue.dropWhile fun a => !s.heldWhileBusy a }

end Sys2Proof.Machine
end

