-- ==== Sys2Proof/Machine/Step.lean ====
section
/-! DEFINITION. The step function of the machine and the placing of a command word where it takes its next command
from. Both call definitions of Machine/Command.lean. -/

namespace Sys2Proof.Machine

/-- One step of the machine. -/
def step : State → Host.Outcome State Fault Refusal := stepMachine

/-- `s` with an instruction's word issued, so that the next step executes it (log 20). -/
def State.withFetchWord (s : State) (nbits w : Nat) : State := s.withIssued (tableWord nbits w)

end Sys2Proof.Machine
end

