-- ==== Sys2Proof/WellFormed.lean ====
section
/-! DEFINITION. Well-formedness at the place where an ill-formed command can be written: the assembler's source
(30_encoding.md R59, R60). A source command has numbers for operands; it is well formed when each number is in
the range of its field, and only then does it stand for an `Instr`. -/

namespace Sys2Proof

/-- A source command of the assembler: a mnemonic and its operands as the numbers written (30_encoding.md R59),
with the pseudo-instruction FLUSH (R60). -/
inductive SourceCmd where
  | init (base cap : Nat)
  | flush (base cap : Nat)
  | writeByte (b : Nat)
  | readByte
  | writeBlock (src len : Nat)
  | readBlock (dst len : Nat)
  | delete (len : Nat)
  | insertKeyword (value klen : Nat)
  | findKeyword (value klen : Nat)
  | getLen
  | getFree
deriving DecidableEq, Repr

/-- Every operand is in its field's range: VAL 0 to 2^32 − 1 (the byte of WRITE_BYTE 0 to 255), LEN 0 to 65535,
KLEN 0 to 7 (30_encoding.md R59 "An operand outside its field's range is an assembly error"). -/
def SourceCmd.wellFormed : SourceCmd → Bool
  | .init base cap => decide (base < 2 ^ 32) && decide (cap < 2 ^ 16)
  | .flush base cap => decide (base < 2 ^ 32) && decide (cap < 2 ^ 16)
  | .writeByte b => decide (b < 2 ^ 8)
  | .readByte => true
  | .writeBlock src len => decide (src < 2 ^ 32) && decide (len < 2 ^ 16)
  | .readBlock dst len => decide (dst < 2 ^ 32) && decide (len < 2 ^ 16)
  | .delete len => decide (len < 2 ^ 16)
  | .insertKeyword value klen => decide (value < 2 ^ 32) && decide (klen < 2 ^ 3)
  | .findKeyword value klen => decide (value < 2 ^ 32) && decide (klen < 2 ^ 3)
  | .getLen => true
  | .getFree => true

/-- The command a source command is written for; FLUSH expands to INIT (30_encoding.md R60). -/
def SourceCmd.expand : SourceCmd → Instr
  | .init base cap => .init (.ofNat 32 base) (.ofNat 16 cap)
  | .flush base cap => .init (.ofNat 32 base) (.ofNat 16 cap)
  | .writeByte b => .writeByte (.ofNat 8 b)
  | .readByte => .readByte
  | .writeBlock src len => .writeBlock (.ofNat 32 src) (.ofNat 16 len)
  | .readBlock dst len => .readBlock (.ofNat 32 dst) (.ofNat 16 len)
  | .delete len => .delete (.ofNat 16 len)
  | .insertKeyword value klen => .insertKeyword (.ofNat 32 value) (.ofNat 3 klen)
  | .findKeyword value klen => .findKeyword (.ofNat 32 value) (.ofNat 3 klen)
  | .getLen => .getLen
  | .getFree => .getFree

/-- The assembler never truncates: an ill-formed source command stands for no command (30_encoding.md R59). -/
def SourceCmd.toInstr (c : SourceCmd) : Option Instr :=
  if c.wellFormed then some c.expand else none

end Sys2Proof
end

