-- ==== Sys2Proof/Machine/Assembler.lean ====
section
/-! DEFINITION. The assembler syntax of 30_encoding.md R59 and R60 on text: one command per line, mnemonic then operands
separated by commas, numbers in decimal or with a 0x prefix in hexadecimal, a comment from ; to the end of the
line. The machine does not use it. -/

namespace Sys2Proof.Machine

/-- The value of a digit in a base. -/
def digitValue (radix : Nat) (c : Char) : Option Nat :=
  let n := c.toNat
  let v := if 48 ≤ n ∧ n ≤ 57 then n - 48 else if 65 ≤ n ∧ n ≤ 70 then n - 55 else if 97 ≤ n ∧ n ≤ 102 then n - 87 else 16
  if v < radix then some v else none

/-- The number the digits write after the value `acc`. -/
def digitsValue (radix : Nat) : List Char → Nat → Option Nat
  | [], acc => some acc
  | c :: cs, acc =>
    match digitValue radix c with
    | some v => digitsValue radix cs (acc * radix + v)
    | none => none

/-- A number in decimal or with a 0x prefix in hexadecimal (30_encoding.md R59). -/
def numberOf (cs : List Char) : Option Nat :=
  match cs with
  | [] => none
  | '0' :: 'x' :: d :: ds => digitsValue 16 (d :: ds) 0
  | c :: ds => digitsValue 10 (c :: ds) 0

/-- White space inside a line. -/
def isBlank (c : Char) : Bool := c == ' ' || c == '\t' || c == '\r'

/-- Without the white space at both ends. -/
def trimBlank (cs : List Char) : List Char :=
  ((cs.dropWhile isBlank).reverse.dropWhile isBlank).reverse

/-- The pieces between the occurrences of a separator. -/
def splitAtChar (sep : Char) : List Char → List (List Char)
  | [] => [[]]
  | c :: cs =>
    if c == sep then [] :: splitAtChar sep cs
    else
      match splitAtChar sep cs with
      | [] => [[c]]
      | p :: ps => (c :: p) :: ps

/-- The numbers of a list of operands, if each is one. -/
def numbersOf : List (List Char) → Option (List Nat)
  | [] => some []
  | p :: ps =>
    match numberOf (trimBlank p), numbersOf ps with
    | some n, some ns => some (n :: ns)
    | _, _ => none

/-- The source command of a mnemonic and its operands (30_encoding.md R59, R60). -/
def sourceOf (mnemonic : List Char) (args : List Nat) : Option SourceCmd :=
  match args with
  | [] =>
    if mnemonic = "READ_BYTE".toList then some .readByte
    else if mnemonic = "GET_LEN".toList then some .getLen
    else if mnemonic = "GET_FREE".toList then some .getFree
    else none
  | [a] =>
    if mnemonic = "WRITE_BYTE".toList then some (.writeByte a)
    else if mnemonic = "DELETE".toList then some (.delete a)
    else none
  | [a, b] =>
    if mnemonic = "INIT".toList then some (.init a b)
    else if mnemonic = "FLUSH".toList then some (.flush a b)
    else if mnemonic = "WRITE_BLOCK".toList then some (.writeBlock a b)
    else if mnemonic = "READ_BLOCK".toList then some (.readBlock a b)
    else if mnemonic = "INSERT_KEYWORD".toList then some (.insertKeyword a b)
    else if mnemonic = "FIND_KEYWORD".toList then some (.findKeyword a b)
    else none
  | _ => none

/-- The command a line writes, if it has one; an error (none at all) for anything that is no mnemonic with operands that
are numbers, as many as it takes (30_encoding.md R59, R60). -/
def parseLine (line : List Char) : Option (Option SourceCmd) :=
  let body := trimBlank (line.takeWhile (· != ';'))
  let mnemonic := body.takeWhile fun c => !isBlank c
  let operands := trimBlank (body.dropWhile fun c => !isBlank c)
  if body.isEmpty then some none
  else
    match if operands.isEmpty then some [] else numbersOf (splitAtChar ',' operands) with
    | none => none
    | some args => (sourceOf mnemonic args).map some

/-- The words of one line: none for a line with no command, one for a command, and an assembly error (none at all) for
anything else, an operand out of its field's range included (30_encoding.md R59). -/
def assembleLine (line : List Char) : Option (List CmdWord) :=
  match parseLine line with
  | none => none
  | some none => some []
  | some (some c) => c.toInstr.map fun i => [encode i]

/-- The words of a list of lines, in order. -/
def assembleLines : List (List Char) → Option (List CmdWord)
  | [] => some []
  | l :: ls =>
    match assembleLine l, assembleLines ls with
    | some w, some ws => some (w ++ ws)
    | _, _ => none

/-- The words of a program's text (30_encoding.md R59). -/
def assembleText (text : List Char) : Option (List CmdWord) := assembleLines (splitAtChar '\n' text)

end Sys2Proof.Machine
end

