-- ==== Sys2Proof/Safety.lean ====
section
/-! DEFINITION. What counts as a state in good order and a platform on which no command is stuck: the terms the
statements use. -/

namespace Sys2Proof.Machine

/-- INV1 to INV5 of the bound state (10_state.md R20). -/
structure BufferInv (s : State) : Prop where
  /-- INV1 (CAPACITY ≤ 65535 holds by its width) -/
  capacity_ge : 2 ≤ s.capacity.toNat
  /-- INV2 -/
  head_lt : s.head.toNat < s.capacity.toNat
  /-- INV3 -/
  tail_lt : s.tail.toNat < s.capacity.toNat
  /-- INV4 -/
  length_le : s.length.toNat ≤ s.capacity.toNat - 1
  /-- INV5 -/
  tail_eq : s.tail.toNat = (s.head.toNat + s.length.toNat) % s.capacity.toNat

/-- The unbound state: HEAD = TAIL = LENGTH = CAPACITY = 0 and BASE = 0 (10_state.md R21). -/
structure UnboundInv (s : State) : Prop where
  head_eq : s.head = 0
  tail_eq : s.tail = 0
  length_eq : s.length = 0
  capacity_eq : s.capacity = 0
  base_eq : s.base = 0

/-- RESULT's format: bits 7:4 zero and a status code 0 to 9 (10_state.md R17, 60_exceptions.md R151). -/
structure ResultInv (s : State) : Prop where
  reserved_eq : reservedField s.result = 0
  status_le : (statusField s.result).toNat ≤ 9

/-- The machine is in good order: MEM in canonical form, the index registers as R20 and R21 say, RESULT in its
format. -/
structure Inv (s : State) : Prop where
  mem_wf : s.mem.wf = true
  bound_inv : s.bound = true → BufferInv s
  unbound_inv : s.bound = false → UnboundInv s
  result_inv : ResultInv s

/-- MemAdmit admits every access: the default of 00_scope.md R5, "under which no command is ever stuck" (20_memory.md
R36). -/
def AdmitsAll (p : Platform) : Prop := ∀ a k, admits p a k = true

/-- Every access a command may make in this state is one MemAdmit admits (20_memory.md R36). -/
structure AccessesAdmitted (i : Instr) (s : State) : Prop where
  reads : ∀ a ∈ commandReads i s, admits s.platform a .read = true
  writes : ∀ a ∈ commandWrites i s, admits s.platform a .write = true

/-- The address is one of the storage region (20_memory.md R31). -/
def InStorage (s : State) (a : Word) : Prop := ∃ off < s.cap, a = s.sAddr off

/-- The block buffer of `n` bytes at `a` lies outside the storage region (20_memory.md R33). -/
def BufferOutsideStorage (s : State) (a : Word) (n : Nat) : Prop := ∀ k < n, ¬ InStorage s (bufAddr a k)

/-- The byte at the address of byte k of a block buffer (20_memory.md R33). -/
def State.bufferByte (s : State) (a : Word) (k : Nat) : Byte := s.mem.read (bufAddr a k).toNat

/-- Byte k of the valid window (00_scope.md glossary, "Valid window"). -/
def State.windowByte (s : State) (k : Nat) : Byte := s.mem.read (s.windowAddr k).toNat

/-- The valid window as the list of its bytes, the oldest first (00_scope.md glossary). -/
def State.window (s : State) : List Byte := (List.range s.length.toNat).map s.windowByte

/-- The word of K window bytes from position i, most significant byte first: what RECON gives there when no access is
stuck (44_keyword.md R126). -/
def State.windowWord (s : State) (i : Nat) : Nat → Word
  | 0 => 0
  | k + 1 => (s.windowWord i k <<< 8) ||| (s.windowByte (i + k)).setWidth 32

/-- FIND_KEYWORD's answer as 44_keyword.md R128 gives it: `i` is the first candidate whose K window bytes are the
keyword value. -/
structure FirstMatch (s : State) (v : Word) (k i : Nat) : Prop where
  in_range : i + k ≤ s.length.toNat
  is_match : s.windowWord i k = v
  is_first : ∀ j < i, s.windowWord j k ≠ v

/-- The status codes a word with this opcode can report (60_exceptions.md R155; R56 for the opcodes with no row). -/
def statusesOfOpcode (opc : Nat) : List Nat :=
  match opc with
  | 0x1 => [0, 1, 9]
  | 0x2 => [0, 2, 8, 9]
  | 0x3 => [0, 7, 8, 9]
  | 0x4 => [0, 3, 8, 9]
  | 0x5 => [0, 4, 8, 9]
  | 0x6 => [0, 4, 8, 9]
  | 0x7 => [0, 6, 3, 8, 9]
  | 0x8 => [0, 6, 4, 5, 8, 9]
  | 0x9 => [0, 8, 9]
  | 0xA => [0, 8, 9]
  | _ => [9]

end Sys2Proof.Machine
end

