-- ==== Sys2Proof/Certificates/Slice0/Obligations.lean ====
section
/-! DEFINITION. The statements about the machine. Each docstring names the rules of spec/ it rests on. A state that
differs from `s` in the named fields only is written `t = { s with … }`: every field not named is unchanged. -/

open Sys2Proof Sys2Proof.Machine

/-! ### Encoding -/

/-- Words written out from the spec's encodings decode to the commands they stand for (30_encoding.md R51, R54, R61;
the words of 95_test_vectors.md). -/
def Obligations.WorkedWordsDecode : Prop :=
  decode 0x0000200001000001 = .ok (.init 0x2000 256) ∧
  decode 0x0000004100000002 = .ok (.writeByte 0x41) ∧
  decode 0x0000000000000003 = .ok .readByte ∧
  decode 0x00003000000D0004 = .ok (.writeBlock 0x3000 13) ∧
  decode 0x00004000000D0005 = .ok (.readBlock 0x4000 13) ∧
  decode 0x0000000000040006 = .ok (.delete 4) ∧
  decode 0xCCFB22AA00000047 = .ok (.insertKeyword 0xCCFB22AA 4) ∧
  decode 0xCCFB22AA00000048 = .ok (.findKeyword 0xCCFB22AA 4) ∧
  decode 0x0000000000000009 = .ok .getLen ∧
  decode 0x000000000000000A = .ok .getFree

/-- Decoding the encoding of any command gives that command back with every operand at every value its field admits
(30_encoding.md R51, R52, R53, R59). -/
def Obligations.DecodeOfEncodeIsTheCommand : Prop :=
  ∀ i : Instr, decode (encode i) = .ok i

/-- A legal word is the encoding of the command it decodes to: decoding drops no bit (30_encoding.md R51, R53, R55). -/
def Obligations.EncodeOfDecodeIsTheWord : Prop :=
  ∀ (w : CmdWord) (i : Instr), decode w = .ok i → encode i = w

/-- The decoder, which tests the fields an opcode does not use, accepts exactly the words some row of the opcode map
selects by match and mask, gives them a command of that row, and no word selects two rows (30_encoding.md R54, R55). -/
def Obligations.DecoderAgreesWithOpcodeMap : Prop :=
  (∀ (w : CmdWord) (i : Instr), decode w = .ok i → i.row ∈ opcodeMap ∧ i.row.selects w = true) ∧
  (∀ (w : CmdWord) (r : OpcodeRow), r ∈ opcodeMap → r.selects w = true → ∃ i, decode w = .ok i ∧ i.row = r) ∧
  (∀ (w : CmdWord) (r r' : OpcodeRow), r ∈ opcodeMap → r' ∈ opcodeMap → r.selects w = true → r'.selects w = true →
    r = r')

/-- An issued word that is illegal, by its opcode or because no row of the opcode map selects it, writes RESULT with
IllegalCommand and changes nothing else (30_encoding.md R55, R56); BUSY ends as 60_exceptions.md R173 says. -/
def Obligations.IllegalWordEndsWithIllegalCommand : Prop :=
  ∀ s : State, s.runsCommandNext = true →
    (opcField s.commandWord = 0 ∨ 0xB ≤ (opcField s.commandWord).toNat ∨
      ∀ r ∈ opcodeMap, r.selects s.commandWord = false) →
    step s = .next { s with result := 9, busy := false }

/-- A step at which the engine executes the issued word, when that word decodes to `i`, is `exec i` at that state
followed by the completion, which clears BUSY (60_exceptions.md R172, R173). -/
def Obligations.StepRunsTheDecodedCommand : Prop :=
  ∀ (s : State) (i : Instr), s.runsCommandNext = true → decode s.commandWord = .ok i →
    step s = complete (exec i s)

/-- The next step after a command's word is placed as the issued word executes that command, for every command and state
(30_encoding.md R50, 60_exceptions.md R172). The placing is the model's choice (log 20, DESIGN CHOICE): it drops the
pending host accesses that would come before the command. -/
def Obligations.IssuedWordIsTheCommandThatRuns : Prop :=
  ∀ (s : State) (i : Instr),
    step (s.withFetchWord 64 (encode i).toNat) = complete (exec i (s.withFetchWord 64 (encode i).toNat))

/-- The assembler: FLUSH base, cap is INIT base, cap (30_encoding.md R60); a command stands for the instruction with the
numbers written exactly when each number is in its field's range, and else for none (R59: VAL 0 to 2^32 − 1, the byte of
WRITE_BYTE 0 to 255, LEN 0 to 65535, KLEN 0 to 7); a text with a line whose command has an operand out of range is an
error and never truncated, and a text that assembles gives legal words only (R59; how a line is read, log 21). -/
def Obligations.AssembledTextIsLegal : Prop :=
  (∀ base cap : Nat, (SourceCmd.flush base cap).toInstr = (SourceCmd.init base cap).toInstr) ∧
  (∀ c : SourceCmd, c.wellFormed = false → c.toInstr = none) ∧
  (∀ base cap : Nat, (SourceCmd.init base cap).toInstr =
    if base < 2 ^ 32 ∧ cap < 65536 then some (.init (.ofNat 32 base) (.ofNat 16 cap)) else none) ∧
  (∀ b : Nat, (SourceCmd.writeByte b).toInstr = if b < 256 then some (.writeByte (.ofNat 8 b)) else none) ∧
  SourceCmd.readByte.toInstr = some .readByte ∧
  (∀ src len : Nat, (SourceCmd.writeBlock src len).toInstr =
    if src < 2 ^ 32 ∧ len < 65536 then some (.writeBlock (.ofNat 32 src) (.ofNat 16 len)) else none) ∧
  (∀ dst len : Nat, (SourceCmd.readBlock dst len).toInstr =
    if dst < 2 ^ 32 ∧ len < 65536 then some (.readBlock (.ofNat 32 dst) (.ofNat 16 len)) else none) ∧
  (∀ len : Nat, (SourceCmd.delete len).toInstr = if len < 65536 then some (.delete (.ofNat 16 len)) else none) ∧
  (∀ v klen : Nat, (SourceCmd.insertKeyword v klen).toInstr =
    if v < 2 ^ 32 ∧ klen < 8 then some (.insertKeyword (.ofNat 32 v) (.ofNat 3 klen)) else none) ∧
  (∀ v klen : Nat, (SourceCmd.findKeyword v klen).toInstr =
    if v < 2 ^ 32 ∧ klen < 8 then some (.findKeyword (.ofNat 32 v) (.ofNat 3 klen)) else none) ∧
  SourceCmd.getLen.toInstr = some .getLen ∧ SourceCmd.getFree.toInstr = some .getFree ∧
  (∀ (text line : List Char) (c : SourceCmd), line ∈ splitAtChar '\n' text → parseLine line = some (some c) →
    c.toInstr = none → assembleText text = none) ∧
  (∀ (text : List Char) (ws : List CmdWord), assembleText text = some ws → ∀ w ∈ ws, ∃ i, decode w = .ok i)

/-! ### INIT -/

/-- INIT with a capacity of at least 2 binds the buffer: BASE and CAPACITY take the operands, HEAD, TAIL and LENGTH
become 0, BOUND becomes 1, whether it was 0 or 1, RESULT is OK with DATA 0, and nothing else changes, MEM included
(40_init.md R71, R73). -/
def Obligations.InitBindsAndEmpties : Prop :=
  ∀ (base : Word) (cap : Half) (s : State), 2 ≤ cap.toNat →
    exec (.init base cap) s = .next { s with
      base := base, capacity := cap, head := 0, tail := 0, length := 0, bound := true, result := 0 }

/-- A failed INIT (capacity 0 or 1) changes nothing but RESULT, which is InvalidCapacity, whether the engine is bound or
not (40_init.md R72). -/
def Obligations.FailedInitChangesOnlyResult : Prop :=
  ∀ (base : Word) (cap : Half) (s : State), cap.toNat < 2 →
    exec (.init base cap) s = .next { s with result := 1 }

/-! ### Single bytes -/

/-- WRITE_BYTE with room stores the byte at SAddr(TAIL) and at no other address, adds 1 to LENGTH, moves TAIL to
(TAIL + 1) mod CAPACITY, ends OK, and changes nothing else (41_byte.md R81, 20_memory.md R32, R38). -/
def Obligations.WriteByteStoresAtTail : Prop :=
  ∀ (b : Byte) (s : State), s.mem.wf = true → s.bound = true → BufferInv s →
    s.length.toNat < s.capacity.toNat - 1 → admits s.platform (s.sAddr s.tail.toNat) .write = true →
    ∃ t, exec (.writeByte b) s = .next t ∧
      t.length.toNat = s.length.toNat + 1 ∧
      t.tail.toNat = (s.tail.toNat + 1) % s.capacity.toNat ∧
      t.result = 0 ∧
      t.mem.read (s.sAddr s.tail.toNat).toNat = b ∧
      (∀ a, a ≠ (s.sAddr s.tail.toNat).toNat → t.mem.read a = s.mem.read a) ∧
      t = { s with length := t.length, tail := t.tail, result := t.result, mem := t.mem }

/-- READ_BYTE on a buffer that is not empty delivers the byte at SAddr(HEAD) in RESULT.DATA with status OK, takes 1 off
LENGTH, moves HEAD to (HEAD + 1) mod CAPACITY, and changes nothing else, MEM included (41_byte.md R84). -/
def Obligations.ReadByteDeliversTheOldestByte : Prop :=
  ∀ s : State, s.bound = true → BufferInv s → 0 < s.length.toNat →
    admits s.platform (s.sAddr s.head.toNat) .read = true →
    ∃ t, exec .readByte s = .next t ∧
      t.length.toNat = s.length.toNat - 1 ∧
      t.head.toNat = (s.head.toNat + 1) % s.capacity.toNat ∧
      t.result.toNat = (s.mem.read (s.sAddr s.head.toNat).toNat).toNat * 2 ^ 8 ∧
      t = { s with length := t.length, head := t.head, result := t.result }

/-- From an empty bound buffer, WRITE_BYTE commands end OK up to the (CAPACITY − 1)-th, the window holding their bytes in
order and LENGTH their number; after CAPACITY − 1 of them the next WRITE_BYTE ends with BufferFull and changes nothing
else (41_byte.md R83). -/
def Obligations.CapacityMinusOneBytesFit : Prop :=
  ∀ (bs : List Byte) (s : State), s.mem.wf = true → s.bound = true → BufferInv s → s.length = 0 →
    AdmitsAll s.platform → 0 < bs.length → bs.length ≤ s.capacity.toNat - 1 →
    ∃ t, runProgram (bs.map Instr.writeByte) s = .next t ∧
      statusField t.result = 0 ∧ t.length.toNat = bs.length ∧ t.window = bs ∧
      (bs.length = s.capacity.toNat - 1 → ∀ b, exec (.writeByte b) t = .next { t with result := 2 })

/-- WRITE_BYTE b has the same effect as a WRITE_BLOCK of the single byte b, except that its failure status is BufferFull
where WRITE_BLOCK's is InsufficientSpace; and in a bound state the test LENGTH = C − 1 is LENGTH ≥ C − 1 (41_byte.md
R82). -/
def Obligations.WriteByteIsAWriteBlockOfOneByte : Prop :=
  ∀ (src : Word) (s : State), s.mem.wf = true → s.bound = true → BufferInv s →
    AccessesAdmitted (.writeBlock src 1) s →
    (s.length.toNat = s.capacity.toNat - 1 ↔ s.capacity.toNat - 1 ≤ s.length.toNat) ∧
    (s.length.toNat < s.capacity.toNat - 1 →
      ∃ t, exec (.writeByte (s.bufferByte src 0)) s = .next t ∧ exec (.writeBlock src 1) s = .next t) ∧
    (s.length.toNat = s.capacity.toNat - 1 → ∀ b,
      exec (.writeByte b) s = .next { s with result := 2 } ∧
      exec (.writeBlock src 1) s = .next { s with result := 3 })

/-! ### Blocks -/

/-- WRITE_BLOCK that fits copies byte by byte in ascending order, reading source byte k and then writing it at storage
offset (TAIL + k) mod CAPACITY, whatever overlaps; it adds L to LENGTH, moves TAIL to (TAIL + L) mod CAPACITY, ends
OK and changes nothing else (42_block.md R91, R92; 20_memory.md R39, R41). -/
def Obligations.WriteBlockCopiesInAscendingOrder : Prop :=
  ∀ (src : Word) (len : Half) (s : State), s.bound = true → BufferInv s →
    s.length.toNat + len.toNat ≤ s.capacity.toNat - 1 → AccessesAdmitted (.writeBlock src len) s →
    ∃ t, exec (.writeBlock src len) s = .next t ∧
      t.length.toNat = s.length.toNat + len.toNat ∧
      t.tail.toNat = (s.tail.toNat + len.toNat) % s.capacity.toNat ∧
      t.result = 0 ∧
      t.mem = (List.range len.toNat).foldl
        (fun m k => m.write (s.sAddr ((s.tail.toNat + k) % s.capacity.toNat)).toNat (m.read (bufAddr src k).toNat))
        s.mem ∧
      t = { s with length := t.length, tail := t.tail, result := t.result, mem := t.mem }

/-- READ_BLOCK of no more than LENGTH bytes copies byte by byte in ascending order, reading storage offset
(HEAD + k) mod CAPACITY and then writing it at byte k of the destination, whatever overlaps; it takes L off LENGTH,
moves HEAD to (HEAD + L) mod CAPACITY, ends OK and changes nothing else (42_block.md R97, R98; 20_memory.md R39, R41). -/
def Obligations.ReadBlockCopiesInAscendingOrder : Prop :=
  ∀ (dst : Word) (len : Half) (s : State), s.bound = true → BufferInv s →
    len.toNat ≤ s.length.toNat → AccessesAdmitted (.readBlock dst len) s →
    ∃ t, exec (.readBlock dst len) s = .next t ∧
      t.length.toNat = s.length.toNat - len.toNat ∧
      t.head.toNat = (s.head.toNat + len.toNat) % s.capacity.toNat ∧
      t.result = 0 ∧
      t.mem = (List.range len.toNat).foldl
        (fun m k => m.write (bufAddr dst k).toNat (m.read (s.sAddr ((s.head.toNat + k) % s.capacity.toNat)).toNat))
        s.mem ∧
      t = { s with length := t.length, head := t.head, result := t.result, mem := t.mem }

/-- A WRITE_BLOCK with L = 0 writes nothing, leaves LENGTH and TAIL unchanged and ends OK, also when the buffer is full
(42_block.md R93). -/
def Obligations.ZeroLengthWriteBlockChangesOnlyResult : Prop :=
  ∀ (src : Word) (s : State), s.bound = true → BufferInv s →
    exec (.writeBlock src 0) s = .next { s with result := 0 }

/-- A block that fits and ends exactly at the last slot (L = C − TAIL) has first = L, second = 0 and leaves TAIL = 0;
and no command leaves TAIL = C (42_block.md R94). -/
def Obligations.ExactLandingWrapsTailToZero : Prop :=
  ∀ (src : Word) (len : Half) (s : State), s.bound = true → BufferInv s →
    (len.toNat = s.capacity.toNat - s.tail.toNat → len.toNat ≤ s.capacity.toNat - 1 - s.length.toNat →
      firstSegment s.cap s.tail.toNat len.toNat = len.toNat ∧
      secondSegment s.cap s.tail.toNat len.toNat = 0 ∧
      s.tail.toNat + firstSegment s.cap s.tail.toNat len.toNat = s.capacity.toNat ∧
      ∀ t, exec (.writeBlock src len) s = .next t → t.tail = 0) ∧
    (∀ i t, exec i s = .next t → t.tail ≠ t.capacity)

/-- A READ_BLOCK whose L exceeds LENGTH by any amount fails as a whole with InsufficientData: nothing but RESULT
changes (42_block.md R97, R99). -/
def Obligations.ReadBlockBeyondLengthFailsWhole : Prop :=
  ∀ (dst : Word) (len : Half) (s : State), s.bound = true → s.length.toNat < len.toNat →
    exec (.readBlock dst len) s = .next { s with result := 4 }

/-- Round trip: a WRITE_BLOCK of L bytes into a buffer of n bytes, then a READ_BLOCK of n + L bytes, both buffers
outside the storage region, delivers the n old bytes and then the L source bytes in order, whatever TAIL was, and
leaves the buffer empty (42_block.md R95, R96). -/
def Obligations.BlockRoundTripDeliversTheBytesInOrder : Prop :=
  ∀ (src dst : Word) (len total : Half) (s : State), s.mem.wf = true → s.bound = true → BufferInv s →
    AdmitsAll s.platform → s.length.toNat + len.toNat ≤ s.capacity.toNat - 1 →
    total.toNat = s.length.toNat + len.toNat →
    BufferOutsideStorage s src len.toNat → BufferOutsideStorage s dst total.toNat →
    ∃ t, runProgram [.writeBlock src len, .readBlock dst total] s = .next t ∧
      t.length = 0 ∧ t.head = t.tail ∧ t.result = 0 ∧
      (∀ k < s.length.toNat, t.bufferByte dst k = s.windowByte k) ∧
      (∀ k < len.toNat, t.bufferByte dst (s.length.toNat + k) = s.bufferByte src k)

/-! ### DELETE -/

/-- DELETE of no more than LENGTH bytes moves HEAD to (HEAD + L) mod CAPACITY and takes L off LENGTH, ends OK and changes
nothing else, MEM included; of more it ends with InsufficientData and changes only RESULT (43_delete.md R111). -/
def Obligations.DeleteMovesHead : Prop :=
  ∀ (len : Half) (s : State), s.bound = true → BufferInv s →
    (len.toNat ≤ s.length.toNat →
      ∃ t, exec (.delete len) s = .next t ∧
        t.length.toNat = s.length.toNat - len.toNat ∧
        t.head.toNat = (s.head.toNat + len.toNat) % s.capacity.toNat ∧
        t.result = 0 ∧
        t = { s with length := t.length, head := t.head, result := t.result }) ∧
    (s.length.toNat < len.toNat → exec (.delete len) s = .next { s with result := 4 })

/-- DELETE L leaves HEAD, TAIL, LENGTH and every storage byte as a READ_BLOCK of L bytes into a destination outside the
storage region does, and writes no MEM byte; so every later read of the window gives the same (43_delete.md R112). -/
def Obligations.DeleteIsAReadThatDiscards : Prop :=
  ∀ (dst : Word) (len : Half) (s : State), s.mem.wf = true → s.bound = true → BufferInv s →
    AdmitsAll s.platform → len.toNat ≤ s.length.toNat → BufferOutsideStorage s dst len.toNat →
    ∃ t u, exec (.delete len) s = .next t ∧ exec (.readBlock dst len) s = .next u ∧
      t.head = u.head ∧ t.tail = u.tail ∧ t.length = u.length ∧ t.mem = s.mem ∧
      (∀ off < s.cap, t.mem.read (s.sAddr off).toNat = u.mem.read (s.sAddr off).toNat) ∧
      t.window = u.window

/-! ### Keywords -/

/-- INSERT_KEYWORD with K in 1 to 4 and room stores the K low bytes of V, most significant first, at storage offsets
(TAIL + j) mod CAPACITY and changes no other byte, adds K to LENGTH, moves TAIL to (TAIL + K) mod CAPACITY, ends OK
and changes nothing else (44_keyword.md R121, R122). -/
def Obligations.InsertKeywordStoresMostSignificantByteFirst : Prop :=
  ∀ (v : Word) (klen : BitVec 3) (s : State), s.mem.wf = true → s.bound = true → BufferInv s →
    1 ≤ klen.toNat → klen.toNat ≤ 4 → s.length.toNat + klen.toNat ≤ s.capacity.toNat - 1 →
    AccessesAdmitted (.insertKeyword v klen) s →
    ∃ t, exec (.insertKeyword v klen) s = .next t ∧
      t.length.toNat = s.length.toNat + klen.toNat ∧
      t.tail.toNat = (s.tail.toNat + klen.toNat) % s.capacity.toNat ∧
      t.result = 0 ∧
      (∀ j < klen.toNat, (t.mem.read (s.sAddr ((s.tail.toNat + j) % s.capacity.toNat)).toNat).toNat =
        v.toNat / 2 ^ (8 * (klen.toNat - 1 - j)) % 2 ^ 8) ∧
      (∀ a, (∀ j < klen.toNat, a ≠ (s.sAddr ((s.tail.toNat + j) % s.capacity.toNat)).toNat) →
        t.mem.read a = s.mem.read a) ∧
      t = { s with length := t.length, tail := t.tail, result := t.result, mem := t.mem }

/-- INSERT_KEYWORD reads only V[8K−1:0]: it does the same as with V AND (2^(8K) − 1) (44_keyword.md R123). -/
def Obligations.InsertKeywordIgnoresTheHighBytes : Prop :=
  ∀ (v v' : Word) (klen : BitVec 3) (s : State),
    v'.toNat = v.toNat % 2 ^ (8 * klen.toNat) →
    exec (.insertKeyword v klen) s = exec (.insertKeyword v' klen) s

/-- Apart from where its bytes come from, INSERT_KEYWORD V, K has the same effect as WRITE_BLOCK of the K bytes
kb[0..K−1]: the same next state when a source buffer outside the storage region holds them, and the same failure status
InsufficientSpace (44_keyword.md R124). -/
def Obligations.InsertKeywordIsAWriteBlockOfItsBytes : Prop :=
  ∀ (v src : Word) (klen : BitVec 3) (len : Half) (s : State), s.mem.wf = true → s.bound = true → BufferInv s →
    AdmitsAll s.platform → 1 ≤ klen.toNat → klen.toNat ≤ 4 → len.toNat = klen.toNat →
    BufferOutsideStorage s src len.toNat →
    (∀ j < klen.toNat, (s.bufferByte src j).toNat = v.toNat / 2 ^ (8 * (klen.toNat - 1 - j)) % 2 ^ 8) →
    ∃ t, exec (.insertKeyword v klen) s = .next t ∧ exec (.writeBlock src len) s = .next t ∧
      (s.length.toNat + klen.toNat > s.capacity.toNat - 1 → t = { s with result := 3 })

/-- A KLEN of 0, 5, 6 or 7 is a legal encoding whose command, on a bound engine, ends with InvalidKeywordLength and
changes nothing else, whatever the space and the data (30_encoding.md R57, 60_exceptions.md R154). -/
def Obligations.KeywordLengthOutOfRangeIsReportedFirst : Prop :=
  ∀ (v : Word) (klen : BitVec 3) (s : State), s.bound = true → klen.toNat < 1 ∨ 4 < klen.toNat →
    decode (encode (.insertKeyword v klen)) = .ok (.insertKeyword v klen) ∧
    decode (encode (.findKeyword v klen)) = .ok (.findKeyword v klen) ∧
    exec (.insertKeyword v klen) s = .next { s with result := 6 } ∧
    exec (.findKeyword v klen) s = .next { s with result := 6 }

/-- The high-byte filter decides nothing, and FIND_KEYWORD's result is: OK with distance (the first match's i) + K when
some candidate's K bytes, most significant first, are V, else NotFound; nothing but RESULT changes (44_keyword.md
R126, R127, R128, R130). -/
def Obligations.FindKeywordReturnsTheFirstMatch : Prop :=
  ∀ (v : Word) (klen : BitVec 3) (s : State), s.bound = true → BufferInv s →
    1 ≤ klen.toNat → klen.toNat ≤ 4 → klen.toNat ≤ s.length.toNat → AccessesAdmitted (.findKeyword v klen) s →
    (∀ i, i + klen.toNat ≤ s.length.toNat → s.windowWord i klen.toNat = v →
      (s.windowByte i).setWidth 32 = v >>> (8 * (klen.toNat - 1))) ∧
    (∀ i, FirstMatch s v klen.toNat i →
      exec (.findKeyword v klen) s = .next { s with result := .ofNat 32 ((i + klen.toNat) * 2 ^ 8) }) ∧
    ((∀ i, i + klen.toNat ≤ s.length.toNat → s.windowWord i klen.toNat ≠ v) →
      exec (.findKeyword v klen) s = .next { s with result := 5 })

/-- No masking: a V of 2^(8K) or more is never found, FIND_KEYWORD ends with NotFound whenever LENGTH ≥ K (44_keyword.md
R129). -/
def Obligations.KeywordWiderThanItsLengthIsNeverFound : Prop :=
  ∀ (v : Word) (klen : BitVec 3) (s : State), s.bound = true → BufferInv s →
    1 ≤ klen.toNat → klen.toNat ≤ 4 → klen.toNat ≤ s.length.toNat → AccessesAdmitted (.findKeyword v klen) s →
    2 ^ (8 * klen.toNat) ≤ v.toNat →
    exec (.findKeyword v klen) s = .next { s with result := 5 }

/-- With K in range and fewer than K bytes stored, FIND_KEYWORD ends with InsufficientData, not a false match (44_keyword.md
R125, 90_conflicts.md C2). -/
def Obligations.FindKeywordOnTooLittleDataIsInsufficientData : Prop :=
  ∀ (v : Word) (klen : BitVec 3) (s : State), s.bound = true → 1 ≤ klen.toNat → klen.toNat ≤ 4 →
    s.length.toNat < klen.toNat → exec (.findKeyword v klen) s = .next { s with result := 4 }

/-- A distance that FIND_KEYWORD returns satisfies K ≤ d ≤ LENGTH ≤ 65534, and the K window bytes that end at position
d − 1 are the keyword (44_keyword.md R131). -/
def Obligations.FoundDistanceLiesInTheWindow : Prop :=
  ∀ (v : Word) (klen : BitVec 3) (s t : State), s.bound = true → BufferInv s →
    exec (.findKeyword v klen) s = .next t → statusField t.result = 0 →
    1 ≤ klen.toNat ∧ klen.toNat ≤ (dataField t.result).toNat ∧
    (dataField t.result).toNat ≤ s.length.toNat ∧ s.length.toNat ≤ 65534 ∧
    s.windowWord ((dataField t.result).toNat - klen.toNat) klen.toNat = v

/-- Keyword round trip: INSERT_KEYWORD V, K that ends OK on a buffer of n bytes, with V < 2^(8K), followed at once by
FIND_KEYWORD V, K ends OK with distance n + K, provided no candidate position i < n matches (44_keyword.md R132). -/
def Obligations.InsertedKeywordIsFoundAtItsPlace : Prop :=
  ∀ (v : Word) (klen : BitVec 3) (s t : State), s.mem.wf = true → s.bound = true → BufferInv s →
    AdmitsAll s.platform → exec (.insertKeyword v klen) s = .next t → statusField t.result = 0 →
    v.toNat < 2 ^ (8 * klen.toNat) → (∀ i < s.length.toNat, t.windowWord i klen.toNat ≠ v) →
    exec (.findKeyword v klen) t =
      .next { t with result := .ofNat 32 ((s.length.toNat + klen.toNat) * 2 ^ 8) }

/-- The split is invisible: two bound states with the same window bytes, wherever in storage they lie, give the same
RESULT to a FIND_KEYWORD and to a READ_BYTE (42_block.md R96, 44_keyword.md R127). -/
def Obligations.ResultsDependOnTheWindowOnly : Prop :=
  ∀ (v : Word) (klen : BitVec 3) (s s' t t' : State), s.bound = true → s'.bound = true → BufferInv s → BufferInv s' →
    AdmitsAll s.platform → AdmitsAll s'.platform → s.window = s'.window →
    (exec (.findKeyword v klen) s = .next t → exec (.findKeyword v klen) s' = .next t' → t.result = t'.result) ∧
    (exec .readByte s = .next t → exec .readByte s' = .next t' → t.result = t'.result)

/-! ### Introspection -/

/-- GET_LEN returns LENGTH and GET_FREE returns CAPACITY − 1 − LENGTH as DATA with status OK; neither writes anything but
RESULT (45_introspection.md R141 to R144). -/
def Obligations.GetLenAndGetFreeReportTheCounts : Prop :=
  ∀ s : State, s.bound = true →
    (∃ t, exec .getLen s = .next t ∧ t.result.toNat = s.length.toNat * 2 ^ 8 ∧ t = { s with result := t.result }) ∧
    (∃ t, exec .getFree s = .next t ∧ t.result.toNat = (s.capacity.toNat - 1 - s.length.toNat) * 2 ^ 8 ∧
      t = { s with result := t.result })

/-- A WRITE_BLOCK of L bytes, or an INSERT_KEYWORD of K = L bytes with K in range, is admitted exactly when L ≤ the value
GET_FREE returns in the same state; WRITE_BYTE exactly when that value is at least 1; and GET_FREE writes nothing but
RESULT (45_introspection.md R145). -/
def Obligations.WritesAreAdmittedUpToTheFreeCount : Prop :=
  ∀ (s t : State), s.bound = true → BufferInv s → AdmitsAll s.platform → exec .getFree s = .next t →
    t = { s with result := t.result } ∧
    (∀ src len, (∃ u, exec (.writeBlock src len) s = .next u ∧ statusField u.result = 0) ↔
      len.toNat ≤ (dataField t.result).toNat) ∧
    (∀ v (klen : BitVec 3), 1 ≤ klen.toNat → klen.toNat ≤ 4 →
      ((∃ u, exec (.insertKeyword v klen) s = .next u ∧ statusField u.result = 0) ↔
        klen.toNat ≤ (dataField t.result).toNat)) ∧
    (∀ b, (∃ u, exec (.writeByte b) s = .next u ∧ statusField u.result = 0) ↔ 1 ≤ (dataField t.result).toNat)

/-! ### Statuses -/

/-- While BOUND = 0 every command except INIT ends with NotInitialized and changes nothing else, whatever its operands
(10_state.md R16, 60_exceptions.md R154). -/
def Obligations.UnboundCommandsEndWithNotInitialized : Prop :=
  ∀ (i : Instr) (s : State), s.bound = false → (∀ base cap, i ≠ .init base cap) →
    exec i s = .next { s with result := 8 }

/-- On a bound engine the writes that do not fit, the reads of an empty or too short buffer, and the keyword commands
with K in range report their own status and change nothing else (60_exceptions.md R150, R154; 90_conflicts.md C7). -/
def Obligations.SpaceAndDataChecksReportTheirStatus : Prop :=
  ∀ s : State, s.bound = true →
    (s.length.toNat = s.capacity.toNat - 1 → ∀ b, exec (.writeByte b) s = .next { s with result := 2 }) ∧
    (s.length = 0 → exec .readByte s = .next { s with result := 7 }) ∧
    (∀ src (len : Half), s.capacity.toNat - 1 < s.length.toNat + len.toNat →
      exec (.writeBlock src len) s = .next { s with result := 3 }) ∧
    (∀ v (klen : BitVec 3), 1 ≤ klen.toNat → klen.toNat ≤ 4 →
      s.capacity.toNat - 1 < s.length.toNat + klen.toNat →
      exec (.insertKeyword v klen) s = .next { s with result := 3 })

/-- A failed command changes RESULT and nothing else, and its RESULT is the bare status: DATA and the reserved bits are 0;
so does a word that fails when the engine executes it, an illegal word included, whose completion also clears BUSY
(60_exceptions.md R153). -/
def Obligations.FailedCommandChangesOnlyResult : Prop :=
  (∀ (i : Instr) (s t : State), exec i s = .next t → statusField t.result ≠ 0 →
    t = { s with result := t.result } ∧ dataField t.result = 0 ∧ reservedField t.result = 0) ∧
  (∀ s t : State, s.runsCommandNext = true → step s = .next t → statusField t.result ≠ 0 →
    t = { s with result := t.result, busy := false } ∧ dataField t.result = 0 ∧ reservedField t.result = 0)

/-- The status a word reports is one of its opcode's row of the table of statuses, and nothing else; IllegalCommand for an
opcode with no row (60_exceptions.md R155, R151; 30_encoding.md R56). -/
def Obligations.ReportedStatusIsOneOfTheOpcodes : Prop :=
  ∀ s t : State, s.runsCommandNext = true → step s = .next t →
    (statusField t.result).toNat ∈ statusesOfOpcode (opcField s.commandWord).toNat

/-- No command reads RESULT: what it does is the same whatever the command before it left there (10_state.md R19,
60_exceptions.md R157). -/
def Obligations.NoCommandReadsResult : Prop :=
  ∀ (i : Instr) (r : Word) (s : State), exec i { s with result := r } = exec i s

/-- No command reads or writes CMD_LO, CMD_HI or BUSY, nor anything of the hosts': with other values there it does the
same to everything else and leaves those as they are (10_state.md R26). -/
def Obligations.NoCommandTouchesTheHostRegisters : Prop :=
  ∀ (i : Instr) (s t : State) (lo hi : Word) (b : Bool) (q : List HostAction), exec i s = .next t →
    t.cmdLo = s.cmdLo ∧ t.cmdHi = s.cmdHi ∧ t.busy = s.busy ∧ t.hostQueue = s.hostQueue ∧
    exec i { s with cmdLo := lo, cmdHi := hi, busy := b, hostQueue := q } =
      .next { t with cmdLo := lo, cmdHi := hi, busy := b, hostQueue := q }

/-! ### The whole machine -/

/-- Every step keeps the machine in good order: MEM canonical, INV1 to INV5 while BOUND = 1, the zero registers while
BOUND = 0, RESULT in its format (10_state.md R20, R21, R17). -/
def Obligations.StepKeepsInv : Prop :=
  ∀ s t : State, Inv s → step s = .next t → Inv t

/-- The reset state is in good order (70_reset_and_hazards.md R180, 10_state.md R21). -/
def Obligations.ResetStateHasInv : Prop := Inv State.reset

/-- What a command leaves unchanged when it goes on to a next state, registers and every byte of MEM: the empty places
of the write matrix (10_state.md R23), for all ten commands. CMD_LO, CMD_HI and BUSY are never touched (R26). -/
def Obligations.CommandsWriteOnlyWhatTheMatrixNames : Prop :=
  ∀ s t : State, s.mem.wf = true →
    (∀ base cap, exec (.init base cap) s = .next t →
      t = { s with
        head := t.head, tail := t.tail, length := t.length, capacity := t.capacity, base := t.base,
        bound := t.bound, result := t.result }) ∧
    (exec .readByte s = .next t → t = { s with head := t.head, length := t.length, result := t.result }) ∧
    (∀ len, exec (.delete len) s = .next t →
      t = { s with head := t.head, length := t.length, result := t.result }) ∧
    (∀ v klen, exec (.findKeyword v klen) s = .next t → t = { s with result := t.result }) ∧
    (exec .getLen s = .next t → t = { s with result := t.result }) ∧
    (exec .getFree s = .next t → t = { s with result := t.result }) ∧
    (∀ b, exec (.writeByte b) s = .next t →
      t = { s with tail := t.tail, length := t.length, result := t.result, mem := t.mem } ∧
      ∀ a, a ≠ (s.sAddr s.tail.toNat).toNat → t.mem.read a = s.mem.read a) ∧
    (∀ src len, exec (.writeBlock src len) s = .next t →
      t = { s with tail := t.tail, length := t.length, result := t.result, mem := t.mem } ∧
      ∀ a, (∀ k < len.toNat, a ≠ (s.tailAddr len.toNat k).toNat) → t.mem.read a = s.mem.read a) ∧
    (∀ v klen, exec (.insertKeyword v klen) s = .next t →
      t = { s with tail := t.tail, length := t.length, result := t.result, mem := t.mem } ∧
      ∀ a, (∀ k < klen.toNat, a ≠ (s.tailAddr klen.toNat k).toNat) → t.mem.read a = s.mem.read a) ∧
    (∀ dst len, exec (.readBlock dst len) s = .next t →
      t = { s with head := t.head, length := t.length, result := t.result, mem := t.mem } ∧
      ∀ a, (∀ k < len.toNat, a ≠ (bufAddr dst k).toNat) → t.mem.read a = s.mem.read a)

/-- Every command completes: where the platform admits the accesses it may make and a bound engine satisfies INV1 to
INV5, it goes to a next state (70_reset_and_hazards.md R197, 20_memory.md R36). -/
def Obligations.EveryCommandCompletesUnlessStuck : Prop :=
  ∀ (i : Instr) (s : State), (s.bound = true → BufferInv s) → AccessesAdmitted i s → ∃ t, exec i s = .next t

/-- The one thing that stops a command is an access MemAdmit does not admit: a command never refuses, and when it stops,
the platform does not admit the access it is stuck at (20_memory.md R36, 60_exceptions.md R158). -/
def Obligations.OnlyAnInadmissibleAccessStopsACommand : Prop :=
  ∀ (i : Instr) (s : State),
    (∀ r, exec i s ≠ .refused r) ∧
    (∀ r, exec i s = .fault r → ∃ k a, r = .stuck k a ∧ admits s.platform a k = false)

/-- A command that passed its checks is stuck at the first access MemAdmit does not admit: WRITE_BYTE at its store,
READ_BYTE at its load, each byte of WRITE_BLOCK and READ_BLOCK at its read and then at its write, INSERT_KEYWORD at its
stores, FIND_KEYWORD at its first read (20_memory.md R36, R41; 93_implementation_defined.md U3). -/
def Obligations.InadmissibleAccessIsStuck : Prop :=
  ∀ s : State, s.bound = true → BufferInv s →
    (∀ b, s.length.toNat < s.capacity.toNat - 1 → admits s.platform (s.sAddr s.tail.toNat) .write = false →
      exec (.writeByte b) s = .fault (.stuck .write (s.sAddr s.tail.toNat))) ∧
    (0 < s.length.toNat → admits s.platform (s.sAddr s.head.toNat) .read = false →
      exec .readByte s = .fault (.stuck .read (s.sAddr s.head.toNat))) ∧
    (∀ src (len : Half) k, s.length.toNat + len.toNat ≤ s.capacity.toNat - 1 → k < len.toNat →
      (∀ j < k, admits s.platform (bufAddr src j) .read = true ∧
        admits s.platform (s.sAddr ((s.tail.toNat + j) % s.capacity.toNat)) .write = true) →
      (admits s.platform (bufAddr src k) .read = false →
        exec (.writeBlock src len) s = .fault (.stuck .read (bufAddr src k))) ∧
      (admits s.platform (bufAddr src k) .read = true →
        admits s.platform (s.sAddr ((s.tail.toNat + k) % s.capacity.toNat)) .write = false →
        exec (.writeBlock src len) s =
          .fault (.stuck .write (s.sAddr ((s.tail.toNat + k) % s.capacity.toNat))))) ∧
    (∀ dst (len : Half) k, len.toNat ≤ s.length.toNat → k < len.toNat →
      (∀ j < k, admits s.platform (s.sAddr ((s.head.toNat + j) % s.capacity.toNat)) .read = true ∧
        admits s.platform (bufAddr dst j) .write = true) →
      (admits s.platform (s.sAddr ((s.head.toNat + k) % s.capacity.toNat)) .read = false →
        exec (.readBlock dst len) s =
          .fault (.stuck .read (s.sAddr ((s.head.toNat + k) % s.capacity.toNat)))) ∧
      (admits s.platform (s.sAddr ((s.head.toNat + k) % s.capacity.toNat)) .read = true →
        admits s.platform (bufAddr dst k) .write = false →
        exec (.readBlock dst len) s = .fault (.stuck .write (bufAddr dst k)))) ∧
    (∀ v (klen : BitVec 3) k, 1 ≤ klen.toNat → klen.toNat ≤ 4 →
      s.length.toNat + klen.toNat ≤ s.capacity.toNat - 1 → k < klen.toNat →
      (∀ j < k, admits s.platform (s.sAddr ((s.tail.toNat + j) % s.capacity.toNat)) .write = true) →
      admits s.platform (s.sAddr ((s.tail.toNat + k) % s.capacity.toNat)) .write = false →
      exec (.insertKeyword v klen) s =
        .fault (.stuck .write (s.sAddr ((s.tail.toNat + k) % s.capacity.toNat)))) ∧
    (∀ v (klen : BitVec 3), 1 ≤ klen.toNat → klen.toNat ≤ 4 → klen.toNat ≤ s.length.toNat →
      admits s.platform (s.sAddr s.head.toNat) .read = false →
      exec (.findKeyword v klen) s = .fault (.stuck .read (s.sAddr s.head.toNat)))

/-- A command that goes on to a next state made only accesses that MemAdmit admits: every one of a command but
FIND_KEYWORD; of FIND_KEYWORD those of the window up to the distance it returns, or of every candidate when it ends with
NotFound (20_memory.md R36, 44_keyword.md R127). -/
def Obligations.CompletedCommandMadeAdmittedAccesses : Prop :=
  ∀ (i : Instr) (s t : State), exec i s = .next t →
    ((∀ v klen, i ≠ .findKeyword v klen) → AccessesAdmitted i s) ∧
    (∀ v klen, i = .findKeyword v klen → s.bound = true → BufferInv s →
      (statusField t.result = 0 →
        ∀ p < (dataField t.result).toNat, admits s.platform (s.windowAddr p) .read = true) ∧
      (statusField t.result = 5 →
        ∀ p, p + klen.toNat ≤ s.length.toNat → admits s.platform (s.windowAddr p) .read = true))

/-- The engine is a first-in first-out queue of its window's bytes: writes append, reads take from the front, DELETE
drops, INIT empties it, FIND_KEYWORD, GET_LEN and GET_FREE leave it alone and the two counts are its length and
C − 1 less its length; block buffers outside the storage region (10_state.md R11, R12, 40_init.md R71, 41_byte.md R81,
R84, 42_block.md R95, R98, 43_delete.md R111, 44_keyword.md R121, R127, 45_introspection.md R141, R144). -/
def Obligations.CommandsActOnTheWindowAsAQueue : Prop :=
  ∀ s t : State, s.mem.wf = true → s.bound = true → BufferInv s → AdmitsAll s.platform →
    (∀ b, exec (.writeByte b) s = .next t → statusField t.result = 0 → t.window = s.window ++ [b]) ∧
    (exec .readByte s = .next t → statusField t.result = 0 →
      ∃ b, s.window = b :: t.window ∧ (dataField t.result).toNat = b.toNat) ∧
    (∀ src len, exec (.writeBlock src len) s = .next t → statusField t.result = 0 →
      BufferOutsideStorage s src len.toNat →
      t.window = s.window ++ (List.range len.toNat).map (s.bufferByte src)) ∧
    (∀ dst len, exec (.readBlock dst len) s = .next t → statusField t.result = 0 →
      BufferOutsideStorage s dst len.toNat →
      t.window = s.window.drop len.toNat ∧
      (List.range len.toNat).map (t.bufferByte dst) = s.window.take len.toNat) ∧
    (∀ len, exec (.delete len) s = .next t → statusField t.result = 0 → t.window = s.window.drop len.toNat) ∧
    (∀ v klen, exec (.insertKeyword v klen) s = .next t → statusField t.result = 0 →
      t.window = s.window ++ (List.range klen.toNat).map (keywordByte v klen.toNat)) ∧
    (∀ v klen, exec (.findKeyword v klen) s = .next t → t.window = s.window) ∧
    (exec .getLen s = .next t → t.window = s.window ∧ (dataField t.result).toNat = s.window.length) ∧
    (exec .getFree s = .next t →
      t.window = s.window ∧ (dataField t.result).toNat = s.capacity.toNat - 1 - s.window.length) ∧
    (∀ base cap, exec (.init base cap) s = .next t → statusField t.result = 0 → t.window = [])

/-- Nothing but reset returns BOUND to 0 (10_state.md R16). -/
def Obligations.OnlyResetUnbinds : Prop :=
  ∀ s t : State, s.bound = true → step s = .next t → t.bound = false →
    ∃ v rest, s.hostQueue = .reset v :: rest

/-- CAPACITY and BASE change only by an INIT the engine executes, or by reset (10_state.md R14, R15). -/
def Obligations.OnlyInitAndResetChangeTheBinding : Prop :=
  ∀ s t : State, step s = .next t → t.capacity ≠ s.capacity ∨ t.base ≠ s.base →
    (∃ v rest, s.hostQueue = .reset v :: rest) ∨
    (∃ base cap, s.busy = true ∧ decode s.commandWord = .ok (.init base cap) ∧ 2 ≤ cap.toNat ∧
      t.capacity = cap ∧ t.base = base)

/-! ### Register block and reset -/

/-- What an aligned 32-bit read of each offset of the register block returns on an idle engine; reserved offsets read as
0, and a read changes no register (60_exceptions.md R171). -/
def Obligations.RegisterBlockReadsAsTheMapSays : Prop :=
  ∀ (s : State) (rest : List HostAction) (off : Nat), s.busy = false → off < 64 → off % 4 = 0 →
    s.hostQueue = .regLoad (s.platform.engBase + .ofNat 32 off) .word :: rest →
    ∃ v, step s = .next { s with hostQueue := rest, readData := some v } ∧
      (off = 0x00 → v = s.cmdLo) ∧ (off = 0x04 → v = s.cmdHi) ∧ (off = 0x08 → v = s.result) ∧
      (off = 0x0C → v.toNat = (if s.bound then 2 else 0)) ∧
      (off = 0x10 → v.toNat = s.head.toNat) ∧ (off = 0x14 → v.toNat = s.tail.toNat) ∧
      (off = 0x18 → v.toNat = s.length.toNat) ∧ (off = 0x1C → v.toNat = s.capacity.toNat) ∧
      (off = 0x20 → v = s.base) ∧ (0x24 ≤ off → v = 0)

/-- On an idle engine a write to CMD_LO stores the value and does nothing else, a write to CMD_HI stores the value and
issues (BUSY becomes 1), and a write to any other offset is ignored (60_exceptions.md R171, R172). -/
def Obligations.RegisterBlockWritesAsTheMapSays : Prop :=
  ∀ (s : State) (rest : List HostAction) (off : Nat) (v : Word), s.busy = false → off < 64 → off % 4 = 0 →
    s.hostQueue = .regStore (s.platform.engBase + .ofNat 32 off) .word v :: rest →
    (off = 0x00 → step s = .next { s with hostQueue := rest, cmdLo := v }) ∧
    (off = 0x04 → step s = .next { s with hostQueue := rest, cmdHi := v, busy := true }) ∧
    (0x08 ≤ off → step s = .next { s with hostQueue := rest })

/-- A host access to the register block that is not an aligned 32-bit access is refused, for every offset and size, while
idle and while a command executes (60_exceptions.md R171, 93_implementation_defined.md U7). -/
def Obligations.OtherRegisterAccessesAreRefused : Prop :=
  ∀ (s : State) (rest : List HostAction) (off : Nat) (size : AccessSize) (v : Word), off < 64 →
    size ≠ .word ∨ off % 4 ≠ 0 →
    (s.hostQueue = .regLoad (s.platform.engBase + .ofNat 32 off) size :: rest →
      step s = .refused (.registerAccess (s.platform.engBase + .ofNat 32 off) size)) ∧
    (s.hostQueue = .regStore (s.platform.engBase + .ofNat 32 off) size v :: rest →
      step s = .refused (.registerAccess (s.platform.engBase + .ofNat 32 off) size))

/-- While BUSY = 1 a write to CMD_LO or CMD_HI, and a read of RESULT, HEAD, TAIL, LENGTH, CAPACITY or BASE, is held: the
step executes the issued command and leaves the access pending, with BUSY = 0 when it completes (60_exceptions.md R172,
R173). -/
def Obligations.AccessesAreHeldUntilTheCommandCompletes : Prop :=
  ∀ (s t : State) (a : HostAction) (rest : List HostAction) (off : Nat), s.busy = true → s.hostQueue = a :: rest →
    ((∃ v, a = .regStore (s.platform.engBase + .ofNat 32 off) .word v) ∧ (off = 0x00 ∨ off = 0x04)) ∨
      (a = .regLoad (s.platform.engBase + .ofNat 32 off) .word ∧
        (off = 0x08 ∨ off = 0x10 ∨ off = 0x14 ∨ off = 0x18 ∨ off = 0x1C ∨ off = 0x20)) →
    step s = .next t →
    runCommand s = .next t ∧ t.busy = false ∧ t.hostQueue = a :: rest ∧ t.cmdLo = s.cmdLo ∧ t.cmdHi = s.cmdHi

/-- A read of STATUS while BUSY = 1, by cases on the model's free order of such a read against the command
(60_exceptions.md R173; logs 6 and 25, DESIGN CHOICE). Beside a command that is stuck it is answered at once with BUSY = 1. Beside
one that completes it is answered with BUSY = 1 before the command has done anything; or with BUSY = 1 and the BOUND the
command leaves when RESULT is written and BUSY is yet to fall; or the command completes and the read is the next access
to take effect, with BUSY = 0. -/
def Obligations.StatusReadFollowsTheFreeOrder : Prop :=
  ∀ (s : State) (rest : List HostAction), s.busy = true →
    s.hostQueue = .regLoad (s.platform.engBase + 0x0C) .word :: rest →
    (∀ r, runCommand { s with hostQueue := rest, draws := s.draws + 1 } = .fault r →
      ∃ v, step s = .next { s with hostQueue := rest, draws := s.draws + 1, readData := some v } ∧
        v.toNat = (if s.bound then 3 else 1)) ∧
    (∀ t, runCommand { s with hostQueue := rest, draws := s.draws + 1 } = .next t →
      match Config.freeStatusOrder s.draws with
      | .beforeCommand =>
        ∃ v, step s = .next { s with hostQueue := rest, draws := s.draws + 1, readData := some v } ∧
          v.toNat = (if s.bound then 3 else 1)
      | .beforeBusyFalls =>
        ∃ v, step s = .next { t with readData := some v } ∧ v.toNat = (if t.bound then 3 else 1)
      | .afterCommand =>
        step s = .next { t with hostQueue := s.hostQueue } ∧ t.busy = false ∧
          ∃ v, step { t with hostQueue := s.hostQueue } = .next { t with readData := some v } ∧
            v.toNat = (if t.bound then 2 else 0))

/-- One command's use of the register block: the writes of CMD_LO and CMD_HI and the read of RESULT, on an idle engine,
execute the command once and deliver its RESULT, with BUSY = 0 (60_exceptions.md R172, R173; 20_memory.md R40). -/
def Obligations.IssueSequenceDeliversTheCommandsResult : Prop :=
  ∀ (s t : State) (w : CmdWord) (i : Instr), s.busy = false → s.hostQueue = issueSequence s.platform w →
    decode w = .ok i → exec i s = .next t →
    Sys2Proof.core.run 4 s = .next { t with
      cmdLo := loHalf w, cmdHi := hiHalf w, busy := false, hostQueue := [], readData := some t.result }

/-- Reset of an idle engine sets every engine register and CMD_LO, CMD_HI and BUSY to 0 and writes no MEM byte; a CMD_HI
write that coincides with it is lost and issues nothing (70_reset_and_hazards.md R180, R183). -/
def Obligations.ResetZeroesTheRegistersAndKeepsMem : Prop :=
  ∀ (s : State) (v : Option Word) (rest : List HostAction), s.busy = false → s.hostQueue = .reset v :: rest →
    step s = .next { s with
      head := 0, tail := 0, length := 0, capacity := 0, base := 0, bound := false, result := 0
      cmdLo := 0, cmdHi := 0, busy := false, hostQueue := rest }

/-- Reset while a command executes abandons it: the registers take their reset values, no RESULT of the command is
written, and of its MEM writes some prefix, in order, has happened, of a length from 0 to the number of its writes. Those
writes are the running command's own: all of them leave the MEM that the command leaves where it completes, they end
where a command that stores is stuck (log 7, DEDUCED), and an illegal word has none (70_reset_and_hazards.md R182). That
a pending reset strikes before the completion is the model's choice (log 26). -/
def Obligations.ResetAbandonsTheRunningCommand : Prop :=
  ∀ (s : State) (v : Option Word) (rest : List HostAction), s.busy = true → s.hostQueue = .reset v :: rest →
    (∀ i t, decode s.commandWord = .ok i → exec i s = .next t →
      t.mem = (runMoves s.platform s.pendingMoves s.mem).mem) ∧
    (∀ i r, decode s.commandWord = .ok i → exec i s = .fault r → s.pendingMoves ≠ [] →
      (runMoves s.platform s.pendingMoves s.mem).stuck = some r) ∧
    (∀ e, decode s.commandWord = .error e → s.pendingMoves = []) ∧
    ∃ (t : State) (k : Nat), step s = .next t ∧ k ≤ s.pendingWrites.length ∧
      t.mem = (runMoves s.platform (s.pendingMoves.take k) s.mem).mem ∧
      t = { s with
        head := 0, tail := 0, length := 0, capacity := 0, base := 0, bound := false, result := 0
        cmdLo := 0, cmdHi := 0, busy := false, hostQueue := rest, mem := t.mem, draws := t.draws } ∧
      (s.mem.wf = true → ∀ a, (∀ x ∈ s.pendingWrites, x.toNat ≠ a) → t.mem.read a = s.mem.read a)

/-- A host access to MEM while a command executes: to a byte the command touches it is refused as a race; elsewhere it
takes effect, and the command still runs on the same registers (70_reset_and_hazards.md R191; the model's choice of
the order, logs 9 and 26). -/
def Obligations.HostMemoryAccessDuringACommand : Prop :=
  ∀ (s : State) (a : Word) (b : Byte) (rest : List HostAction), s.busy = true → s.platform.blockInMem = false →
    s.hostQueue = .memStore a b :: rest →
    (a ∈ s.pendingWrites ∨ a ∈ s.pendingReads → step s = .refused (.hostRace a)) ∧
    (a ∉ s.pendingWrites → a ∉ s.pendingReads →
      step s = .next { s with hostQueue := rest, mem := s.mem.write a.toNat b })

/-- On an idle engine a host's write of a MEM byte changes that byte and no engine register (70_reset_and_hazards.md
R193, 20_memory.md R35). -/
def Obligations.HostStoreChangesOnlyItsByte : Prop :=
  ∀ (s : State) (a : Word) (b : Byte) (rest : List HostAction), s.busy = false → s.mem.wf = true →
    s.platform.blockInMem = false → s.hostQueue = .memStore a b :: rest →
    ∃ t, step s = .next t ∧ t = { s with mem := t.mem, hostQueue := rest } ∧
      t.mem.read a.toNat = b ∧ ∀ x, x ≠ a.toNat → t.mem.read x = s.mem.read x
end

