-- ==== Sys2Proof/Laws/Encoding.lean ====
section
/-! SUPPORT. The fields of a packed command word (30_encoding.md R51). -/

namespace Sys2Proof

theorem packWord_toNat (v : Word) (l : Half) (k : BitVec 3) (o : BitVec 4) :
    (packWord v l k o).toNat = v.toNat * 2 ^ 32 + l.toNat * 2 ^ 16 + k.toNat * 2 ^ 4 + o.toNat := by
  have := v.isLt; have := l.isLt; have := k.isLt; have := o.isLt
  simp only [packWord, BitVec.toNat_ofNat]
  omega

theorem field_toNat (w : CmdWord) (lo n : Nat) : (w.extractLsb' lo n).toNat = w.toNat / 2 ^ lo % 2 ^ n := by
  simp [BitVec.extractLsb'_toNat, Nat.shiftRight_eq_div_pow]

@[simp] theorem opcField_packWord (v : Word) (l : Half) (k : BitVec 3) (o : BitVec 4) :
    opcField (packWord v l k o) = o := by
  apply BitVec.eq_of_toNat_eq
  have := v.isLt; have := l.isLt; have := k.isLt; have := o.isLt
  rw [opcField, field_toNat, packWord_toNat]; omega

@[simp] theorem klenField_packWord (v : Word) (l : Half) (k : BitVec 3) (o : BitVec 4) :
    klenField (packWord v l k o) = k := by
  apply BitVec.eq_of_toNat_eq
  have := v.isLt; have := l.isLt; have := k.isLt; have := o.isLt
  rw [klenField, field_toNat, packWord_toNat]; omega

@[simp] theorem rsvField_packWord (v : Word) (l : Half) (k : BitVec 3) (o : BitVec 4) :
    rsvField (packWord v l k o) = 0 := by
  apply BitVec.eq_of_toNat_eq
  have := v.isLt; have := l.isLt; have := k.isLt; have := o.isLt
  rw [rsvField, field_toNat, packWord_toNat]; change _ = 0; omega

@[simp] theorem lenField_packWord (v : Word) (l : Half) (k : BitVec 3) (o : BitVec 4) :
    lenField (packWord v l k o) = l := by
  apply BitVec.eq_of_toNat_eq
  have := v.isLt; have := l.isLt; have := k.isLt; have := o.isLt
  rw [lenField, field_toNat, packWord_toNat]; omega

@[simp] theorem valField_packWord (v : Word) (l : Half) (k : BitVec 3) (o : BitVec 4) :
    valField (packWord v l k o) = v := by
  apply BitVec.eq_of_toNat_eq
  have := v.isLt; have := l.isLt; have := k.isLt; have := o.isLt
  rw [valField, field_toNat, packWord_toNat]; omega

theorem byteField_eq (w : CmdWord) : byteField w = (valField w).setWidth 8 := by
  apply BitVec.eq_of_toNat_eq
  rw [byteField, valField, BitVec.toNat_setWidth, field_toNat, field_toNat]; omega

theorem valHighField_toNat (w : CmdWord) : (valHighField w).toNat = (valField w).toNat / 2 ^ 8 := by
  have := w.isLt
  rw [valHighField, valField, field_toNat, field_toNat]; omega

@[simp] theorem valHighField_packWord_byte (b : Byte) (l : Half) (k : BitVec 3) (o : BitVec 4) :
    valHighField (packWord (b.setWidth 32) l k o) = 0#24 := by
  apply BitVec.eq_of_toNat_eq
  have := b.isLt
  rw [valHighField_toNat, valField_packWord, BitVec.toNat_setWidth]; change _ = 0; omega

@[simp] theorem byteField_packWord_byte (b : Byte) (l : Half) (k : BitVec 3) (o : BitVec 4) :
    byteField (packWord (b.setWidth 32) l k o) = b := by
  rw [byteField_eq, valField_packWord]; simp

/-- The value of a word from its fields (30_encoding.md R51). -/
theorem word_toNat_fields (w : CmdWord) :
    w.toNat = (valField w).toNat * 2 ^ 32 + (lenField w).toNat * 2 ^ 16 + (rsvField w).toNat * 2 ^ 7 +
      (klenField w).toNat * 2 ^ 4 + (opcField w).toNat := by
  have := w.isLt
  rw [valField, lenField, rsvField, klenField, opcField]
  simp only [field_toNat]; omega

/-- A word with RSV = 0 is its own fields packed. -/
theorem packWord_fields {w : CmdWord} (hr : rsvField w = 0) :
    packWord (valField w) (lenField w) (klenField w) (opcField w) = w := by
  apply BitVec.eq_of_toNat_eq
  have h := word_toNat_fields w
  rw [hr] at h
  rw [packWord_toNat, h]; simp

/-- Two words with the same fields are the same word. -/
theorem word_eq_of_fields {w u : CmdWord} (hv : valField w = valField u) (hl : lenField w = lenField u)
    (hr : rsvField w = rsvField u) (hk : klenField w = klenField u) (ho : opcField w = opcField u) : w = u := by
  apply BitVec.eq_of_toNat_eq
  rw [word_toNat_fields w, word_toNat_fields u, hv, hl, hr, hk, ho]

/-- The VAL of a word whose bits 63:40 are zero is its byte. -/
theorem valField_of_high_zero {w : CmdWord} (h : valHighField w = 0) : valField w = (byteField w).setWidth 32 := by
  apply BitVec.eq_of_toNat_eq
  have h2 := valHighField_toNat w
  have := (valField w).isLt
  rw [h] at h2
  change 0 = _ at h2
  rw [byteField_eq, BitVec.toNat_setWidth, BitVec.toNat_setWidth]; omega

theorem opcField_of_toNat {w : CmdWord} {n : Nat} (h : (opcField w).toNat = n) : opcField w = BitVec.ofNat 4 n := by
  apply BitVec.eq_of_toNat_eq; subst h; simp

/-- A command that the decoder gives had its unused fields zero (30_encoding.md R55). -/
theorem whenUnusedZero_ok {b : Bool} {i j : Instr} (h : whenUnusedZero b i = .ok j) : b = true ∧ i = j := by
  unfold whenUnusedZero at h
  split at h
  · rename_i hb; cases h; exact ⟨hb, rfl⟩
  · cases h

/-- The word that CMD_HI and CMD_LO make is the word they are the halves of (30_encoding.md R50). -/
theorem halves_append (w : CmdWord) : hiHalf w ++ loHalf w = w := by
  apply BitVec.eq_of_toNat_eq
  have := w.isLt
  have hl : (loHalf w).toNat = w.toNat % 2 ^ 32 := by rw [loHalf, field_toNat]; simp
  have hh : (hiHalf w).toNat = w.toNat / 2 ^ 32 := by rw [hiHalf, field_toNat]; omega
  rw [BitVec.toNat_append, ← Nat.shiftLeft_add_eq_or_of_lt (loHalf w).isLt, Nat.shiftLeft_eq, hl, hh]; omega

@[simp] theorem tableWord_toNat (w : CmdWord) : tableWord 64 w.toNat = w := by
  apply BitVec.eq_of_toNat_eq
  have := w.isLt
  simp only [tableWord, BitVec.toNat_ofNat]; omega

end Sys2Proof
end

