-- ==== Sys2Proof/Laws/Index.lean ====
section
/-! SUPPORT. The wrap-aware index arithmetic (20_memory.md R38, R39) and when two storage offsets have one address. -/

namespace Sys2Proof.Machine

theorem adv_lt {c i n : Nat} (hi : i < c) (hn : n ≤ c) : adv c i n < c := by
  unfold adv; split <;> omega

/-- adv(i, n) = (i + n) mod C (20_memory.md R38). -/
theorem adv_eq_mod {c i n : Nat} (hi : i < c) (hn : n ≤ c) : adv c i n = (i + n) % c := by
  unfold adv
  split
  · rename_i h
    have h2 : i + n = (n - (c - i)) + c := by omega
    rw [h2, Nat.add_mod_right, Nat.mod_eq_of_lt (by omega)]
  · rw [Nat.mod_eq_of_lt (by omega)]

theorem adv_zero {c i : Nat} (hi : i < c) : adv c i 0 = i := by
  unfold adv; split <;> omega

theorem adv_adv {c i j k : Nat} (hi : i < c) (hjk : j + k ≤ c) : adv c (adv c i j) k = adv c i (j + k) := by
  unfold adv; split <;> split <;> split <;> omega

theorem adv_inj {c i j k : Nat} (hi : i < c) (hj : j < c) (hk : k < c) (h : adv c i j = adv c i k) : j = k := by
  unfold adv at h; split at h <;> split at h <;> omega

theorem secondSegment_pos {c i n : Nat} : secondSegment c i n > 0 ↔ n > c - i := by
  unfold secondSegment firstSegment; omega

/-- Byte k of a transfer is at storage offset adv(i, k) (20_memory.md R39). -/
theorem splitOffset_eq_adv {c i n k : Nat} (hi : i < c) (hk : k < n) : splitOffset c i n k = adv c i k := by
  unfold splitOffset firstSegment adv; split <;> split <;> omega

/-- The next index of a transfer is adv(i, n) (20_memory.md R39). -/
theorem nextIndex_eq_adv {c i n : Nat} (hi : i < c) (hn : n < c) : nextIndex c i n = adv c i n := by
  unfold nextIndex secondSegment firstSegment adv; split <;> (try split) <;> (try split) <;> omega

theorem toNat_ofNat_half {n : Nat} (h : n < 2 ^ 16) : (BitVec.ofNat 16 n).toNat = n := by
  simp only [BitVec.toNat_ofNat]; exact Nat.mod_eq_of_lt h

theorem half_lt (h : Half) : h.toNat < 2 ^ 16 := h.isLt

/-- Two storage offsets have one MEM address only if they are the same offset. -/
theorem sAddr_inj (s : State) {i j : Nat} (hi : i < 2 ^ 16) (hj : j < 2 ^ 16) (h : s.sAddr i = s.sAddr j) : i = j := by
  have h2 := congrArg BitVec.toNat h
  simp only [State.sAddr, BitVec.toNat_ofNat] at h2
  have hb := s.base.isLt
  omega

end Sys2Proof.Machine
end

