-- ==== Sys2Proof/Laws/Memory.lean ====
section
/-! SUPPORT. MEM: a read after a write, the canonical form, and what a transfer's byte moves do to MEM. -/

namespace Sys2Proof.Machine

namespace Memory

theorem read_put (m : Memory) (a b : Nat) (v : Byte) : (m.put a v).read b = if b = a then v else m.read b := by
  induction m with
  | nil => by_cases h : b = a <;> simp [put, read, h]
  | cons e m ih =>
    obtain ⟨x, c⟩ := e
    simp only [put]
    split
    · simp [read]
    · split
      · rename_i h1 h2; subst h2; simp only [read]; split <;> rfl
      · rename_i h1 h2
        simp only [read, ih]
        by_cases hb : b = x
        · subst hb; rw [if_pos rfl, if_pos rfl, if_neg (fun h => h2 h.symm)]
        · simp [hb]

theorem wf_cons {x : Nat} {c : Byte} {m : Memory} :
    wf ((x, c) :: m) = true ↔
      x < Config.memSize ∧ c ≠ Config.unlistedByte ∧ (∀ e ∈ m, x < e.1) ∧ wf m = true := by
  simp [wf, Bool.and_eq_true, and_assoc]

theorem read_of_lt {m : Memory} {a : Nat} (h : ∀ e ∈ m, a < e.1) : m.read a = Config.unlistedByte := by
  induction m with
  | nil => rfl
  | cons e m ih =>
    obtain ⟨x, c⟩ := e
    have hx : a < x := h (x, c) (by simp)
    simp only [read, if_neg (Nat.ne_of_lt hx)]
    exact ih fun e he => h e (by simp [he])

theorem read_drop {m : Memory} (hm : m.wf = true) (a b : Nat) :
    (m.drop a).read b = if b = a then Config.unlistedByte else m.read b := by
  induction m with
  | nil => simp [drop, read]
  | cons e m ih =>
    obtain ⟨x, c⟩ := e
    obtain ⟨-, -, hlt, hwf⟩ := wf_cons.mp hm
    simp only [drop]
    split
    · rename_i h; subst h
      by_cases hb : b = a
      · subst hb; simp [read_of_lt hlt]
      · simp [read, hb]
    · rename_i h
      simp only [read, ih hwf]
      by_cases hb : b = x
      · subst hb; rw [if_pos rfl, if_pos rfl, if_neg (fun h' => h h'.symm)]
      · simp [hb]

/-- A byte read after a byte write to the same address returns the written value (20_memory.md R35). -/
theorem read_write_same {m : Memory} (hm : m.wf = true) (a : Nat) (v : Byte) : (m.write a v).read a = v := by
  unfold write
  split
  · rename_i h; rw [read_drop hm, if_pos rfl, h]
  · rw [read_put, if_pos rfl]

/-- A write changes no other byte (20_memory.md R35). -/
theorem read_write_other {m : Memory} (hm : m.wf = true) {a b : Nat} (h : b ≠ a) (v : Byte) :
    (m.write a v).read b = m.read b := by
  unfold write
  split
  · rw [read_drop hm, if_neg h]
  · rw [read_put, if_neg h]

theorem mem_put {m : Memory} {a : Nat} {v : Byte} {e : Host.Cell} (h : e ∈ m.put a v) : e = (a, v) ∨ e ∈ m := by
  induction m with
  | nil => simpa [put] using h
  | cons d m ih =>
    obtain ⟨x, c⟩ := d
    simp only [put] at h
    split at h
    · simpa using h
    · split at h
      · rcases List.mem_cons.mp h with h | h
        · exact .inl h
        · exact .inr (by simp [h])
      · rcases List.mem_cons.mp h with h | h
        · exact .inr (by simp [h])
        · rcases ih h with h | h
          · exact .inl h
          · exact .inr (by simp [h])

theorem mem_drop {m : Memory} {a : Nat} {e : Host.Cell} (h : e ∈ m.drop a) : e ∈ m := by
  induction m with
  | nil => simp [drop] at h
  | cons d m ih =>
    obtain ⟨x, c⟩ := d
    simp only [drop] at h
    split at h
    · simp [h]
    · rcases List.mem_cons.mp h with h | h
      · simp [h]
      · simp [ih h]

theorem wf_put {m : Memory} (hm : m.wf = true) {a : Nat} (ha : a < Config.memSize) {v : Byte}
    (hv : v ≠ Config.unlistedByte) : (m.put a v).wf = true := by
  induction m with
  | nil => simp [put, wf, ha, hv]
  | cons d m ih =>
    obtain ⟨x, c⟩ := d
    obtain ⟨hx, hc, hlt, hwf⟩ := wf_cons.mp hm
    simp only [put]
    split
    · rename_i hax
      refine wf_cons.mpr ⟨ha, hv, fun e he => ?_, hm⟩
      rcases List.mem_cons.mp he with rfl | he
      · exact hax
      · exact Nat.lt_trans hax (hlt e he)
    · split
      · rename_i h; subst h; exact wf_cons.mpr ⟨ha, hv, hlt, hwf⟩
      · rename_i h1 h2
        refine wf_cons.mpr ⟨hx, hc, fun e he => ?_, ih hwf⟩
        rcases mem_put he with rfl | he
        · exact Nat.lt_of_le_of_ne (Nat.le_of_not_lt h1) (fun h => h2 h.symm)
        · exact hlt e he

theorem wf_drop {m : Memory} (hm : m.wf = true) (a : Nat) : (m.drop a).wf = true := by
  induction m with
  | nil => simp [drop, wf]
  | cons d m ih =>
    obtain ⟨x, c⟩ := d
    obtain ⟨hx, hc, hlt, hwf⟩ := wf_cons.mp hm
    simp only [drop]
    split
    · exact hwf
    · exact wf_cons.mpr ⟨hx, hc, fun e he => hlt e (mem_drop he), ih hwf⟩

/-- A write keeps the canonical form. -/
theorem wf_write {m : Memory} (hm : m.wf = true) {a : Nat} (ha : a < Config.memSize) (v : Byte) :
    (m.write a v).wf = true := by
  unfold write
  split
  · exact wf_drop hm a
  · rename_i h; exact wf_put hm ha h

/-- Memories in canonical form that read the same at every address are the same list. -/
theorem eq_of_read_eq {m n : Memory} (hm : m.wf = true) (hn : n.wf = true) (h : ∀ a, m.read a = n.read a) :
    m = n := by
  induction m generalizing n with
  | nil =>
    cases n with
    | nil => rfl
    | cons d n =>
      obtain ⟨x, c⟩ := d
      obtain ⟨-, hc, -, -⟩ := wf_cons.mp hn
      exact absurd (by simpa [read] using (h x).symm) hc
  | cons d m ih =>
    obtain ⟨x, c⟩ := d
    obtain ⟨-, hc, hlt, hwf⟩ := wf_cons.mp hm
    cases n with
    | nil => exact absurd (by simpa [read] using h x) hc
    | cons d' n =>
      obtain ⟨y, c'⟩ := d'
      obtain ⟨-, hc', hlt', hwf'⟩ := wf_cons.mp hn
      have hxy : x = y := by
        rcases Nat.lt_trichotomy x y with hl | he | hl
        · have := h x
          simp only [read, if_true, if_neg (Nat.ne_of_lt hl)] at this
          rw [read_of_lt fun e he => Nat.lt_trans hl (hlt' e he)] at this
          exact absurd this hc
        · exact he
        · have := h y
          simp only [read, if_true, if_neg (Nat.ne_of_lt hl)] at this
          rw [read_of_lt fun e he => Nat.lt_trans hl (hlt e he)] at this
          exact absurd this.symm hc'
      subst hxy
      have hcc : c = c' := by simpa [read] using h x
      subst hcc
      congr 1
      refine ih hwf hwf' fun a => ?_
      by_cases ha : a = x
      · subst ha; rw [read_of_lt hlt, read_of_lt hlt']
      · simpa [read, ha] using h a

end Memory

theorem word_lt (a : Word) : a.toNat < Config.memSize := a.isLt

/-- A byte of a word's address, read after a write: the basic law at 32-bit addresses. -/
theorem read_write_word {m : Memory} (hm : m.wf = true) (a b : Word) (v : Byte) :
    (m.write a.toNat v).read b.toNat = if b = a then v else m.read b.toNat := by
  split
  · rename_i h; subst h; exact Memory.read_write_same hm _ _
  · rename_i h; exact Memory.read_write_other hm (fun h' => h (BitVec.eq_of_toNat_eq h')) _

theorem memRead_admitted {p : Platform} (hp : AdmitsAll p) (m : Memory) (a : Word) :
    memRead p m a = .ok (m.read a.toNat) := by
  simp [memRead, hp a .read]

theorem memWrite_admitted {p : Platform} (hp : AdmitsAll p) (m : Memory) (a : Word) (b : Byte) :
    memWrite p m a b = .ok (m.write a.toNat b) := by
  simp [memWrite, hp a .write]

/-- The default platform admits every access (00_scope.md R5). -/
theorem admitsAll_default : AdmitsAll defaultPlatform := by
  intro a k; simp [admits, defaultPlatform]

/-- The byte a move stores where every access is admitted. -/
def Source.byteIn (m : Memory) : Source → Byte
  | .mem a => m.read a.toNat
  | .value b => b

/-- MEM after one move where every access is admitted. -/
def Move.apply (v : Move) (m : Memory) : Memory := m.write v.dst.toNat (v.src.byteIn m)

/-- Where its accesses are admitted, a transfer is its moves one after another and is never stuck. -/
theorem runMoves_admitted {p : Platform} (vs : List Move) (m : Memory)
    (hw : ∀ v ∈ vs, admits p v.dst .write = true)
    (hr : ∀ v ∈ vs, ∀ a, v.src = .mem a → admits p a .read = true) :
    runMoves p vs m = ⟨vs.foldl (fun m v => v.apply m) m, none⟩ := by
  induction vs generalizing m with
  | nil => rfl
  | cons v vs ih =>
    have hf : v.src.fetch p m = .ok (v.src.byteIn m) := by
      cases h : v.src with
      | value b => rfl
      | mem a => simp [Source.fetch, Source.byteIn, memRead, hr v (by simp) a h]
    simp only [runMoves, hf, memWrite, hw v (by simp), if_true, List.foldl_cons]
    exact ih _ (fun w hw' => hw w (by simp [hw'])) fun w hw' => hr w (by simp [hw'])

/-- A transfer that finished made only admitted accesses (20_memory.md R36). -/
theorem runMoves_finished {p : Platform} (vs : List Move) {m : Memory} (h : (runMoves p vs m).stuck = none) :
    (∀ v ∈ vs, admits p v.dst .write = true) ∧ ∀ v ∈ vs, ∀ a, v.src = .mem a → admits p a .read = true := by
  induction vs generalizing m with
  | nil => simp
  | cons v vs ih =>
    simp only [runMoves] at h
    cases hf : v.src.fetch p m with
    | error q => rw [hf] at h; cases h
    | ok b =>
      rw [hf] at h
      simp only [memWrite] at h
      by_cases hw : admits p v.dst .write = true
      · simp only [hw, if_true] at h
        obtain ⟨h1, h2⟩ := ih h
        refine ⟨List.forall_mem_cons.mpr ⟨hw, h1⟩, List.forall_mem_cons.mpr ⟨fun a ha => ?_, h2⟩⟩
        simp only [ha, Source.fetch, memRead] at hf
        by_contra hr
        rw [if_neg hr] at hf; cases hf
      · simp only [hw, Bool.false_eq_true, if_false] at h; cases h

/-- After moves whose accesses are admitted, a transfer goes on with the rest. -/
theorem runMoves_append {p : Platform} (vs ws : List Move) (m : Memory)
    (hw : ∀ v ∈ vs, admits p v.dst .write = true)
    (hr : ∀ v ∈ vs, ∀ a, v.src = .mem a → admits p a .read = true) :
    runMoves p (vs ++ ws) m = runMoves p ws (vs.foldl (fun m v => v.apply m) m) := by
  induction vs generalizing m with
  | nil => rfl
  | cons v vs ih =>
    have hf : v.src.fetch p m = .ok (v.src.byteIn m) := by
      cases h : v.src with
      | value b => rfl
      | mem a => simp [Source.fetch, Source.byteIn, memRead, hr v (by simp) a h]
    simp only [List.cons_append, runMoves, hf, memWrite, hw v (by simp), if_true, List.foldl_cons]
    exact ih _ (fun w hw' => hw w (by simp [hw'])) fun w hw' => hr w (by simp [hw'])

/-- A move whose source is not admitted is stuck at its read, one whose source is admitted and whose destination is not
at its write (20_memory.md R36, R41). -/
theorem runMoves_cons_stuck {p : Platform} (v : Move) (vs : List Move) (m : Memory) :
    (∀ a, v.src = .mem a → admits p a .read = false → (runMoves p (v :: vs) m).stuck = some (.stuck .read a)) ∧
    ((∀ a, v.src = .mem a → admits p a .read = true) → admits p v.dst .write = false →
      (runMoves p (v :: vs) m).stuck = some (.stuck .write v.dst)) := by
  constructor
  · intro a ha hr
    simp [runMoves, ha, Source.fetch, memRead, hr]
  · intro hr hw
    cases h : v.src with
    | value b => simp [runMoves, h, Source.fetch, memWrite, hw]
    | mem a => simp [runMoves, h, Source.fetch, memRead, hr a h, memWrite, hw]

/-- A transfer of `n` moves whose first `k` are admitted is stuck at move k, at its read or at its write. -/
theorem runMoves_range_stuck {p : Platform} (f : Nat → Move) (m : Memory) {n k : Nat} (hk : k < n)
    (hw : ∀ j < k, admits p (f j).dst .write = true)
    (hr : ∀ j < k, ∀ a, (f j).src = .mem a → admits p a .read = true) :
    (∀ a, (f k).src = .mem a → admits p a .read = false →
      (runMoves p ((List.range n).map f) m).stuck = some (.stuck .read a)) ∧
    ((∀ a, (f k).src = .mem a → admits p a .read = true) → admits p (f k).dst .write = false →
      (runMoves p ((List.range n).map f) m).stuck = some (.stuck .write (f k).dst)) := by
  have hsplit : ∃ ws, (List.range n).map f = (List.range k).map f ++ f k :: ws := by
    obtain ⟨d, rfl⟩ : ∃ d, n = k + 1 + d := ⟨n - (k + 1), by omega⟩
    exact ⟨_, by rw [List.range_add, List.range_succ, List.map_append, List.map_append, List.append_assoc]; rfl⟩
  obtain ⟨ws, hs⟩ := hsplit
  rw [hs, runMoves_append _ _ _ (by simpa using hw) (by simpa using hr)]
  exact runMoves_cons_stuck _ _ _

/-- A transfer keeps the canonical form, stuck or not. -/
theorem runMoves_wf {p : Platform} (vs : List Move) {m : Memory} (hm : m.wf = true) :
    (runMoves p vs m).mem.wf = true := by
  induction vs generalizing m with
  | nil => exact hm
  | cons v vs ih =>
    simp only [runMoves]
    cases v.src.fetch p m with
    | error r => exact hm
    | ok b =>
      simp only [memWrite]
      split
      · exact hm
      · rename_i heq
        split at heq
        · cases heq; exact ih (Memory.wf_write hm (word_lt _) b)
        · cases heq

/-- A transfer changes no byte outside its destinations, stuck or not. -/
theorem runMoves_frame {p : Platform} (vs : List Move) {m : Memory} (hm : m.wf = true) {a : Nat}
    (ha : ∀ v ∈ vs, v.dst.toNat ≠ a) : (runMoves p vs m).mem.read a = m.read a := by
  induction vs generalizing m with
  | nil => rfl
  | cons v vs ih =>
    simp only [runMoves]
    cases v.src.fetch p m with
    | error r => rfl
    | ok b =>
      simp only [memWrite]
      split
      · rfl
      · rename_i heq
        split at heq
        · cases heq
          rw [ih (Memory.wf_write hm (word_lt _) b) fun w hw => ha w (by simp [hw])]
          exact Memory.read_write_other hm (fun h => ha v (by simp) h.symm) b
        · cases heq

theorem Move.apply_wf {m : Memory} (hm : m.wf = true) (v : Move) : (v.apply m).wf = true :=
  Memory.wf_write hm (word_lt _) _

theorem Move.apply_read {m : Memory} (hm : m.wf = true) (v : Move) (a : Word) :
    (v.apply m).read a.toNat = if a = v.dst then v.src.byteIn m else m.read a.toNat :=
  read_write_word hm _ _ _

theorem foldl_apply_wf (vs : List Move) {m : Memory} (hm : m.wf = true) : (vs.foldl (fun m v => v.apply m) m).wf = true := by
  induction vs generalizing m with
  | nil => exact hm
  | cons v vs ih => exact ih (v.apply_wf hm)

theorem foldl_apply_frame (vs : List Move) {m : Memory} (hm : m.wf = true) {a : Word}
    (ha : ∀ v ∈ vs, v.dst ≠ a) : (vs.foldl (fun m v => v.apply m) m).read a.toNat = m.read a.toNat := by
  induction vs generalizing m with
  | nil => rfl
  | cons v vs ih =>
    rw [List.foldl_cons, ih (v.apply_wf hm) fun w hw => ha w (by simp [hw]), v.apply_read hm,
      if_neg fun h => ha v (by simp) h.symm]

/-- Where no destination is a source and the destinations are distinct, each destination of a transfer ends with the
byte its source held at the start. -/
theorem foldl_apply_read (vs : List Move) {m : Memory} (hm : m.wf = true)
    (hd : (vs.map Move.dst).Nodup)
    (hs : ∀ v ∈ vs, ∀ w ∈ vs, v.src ≠ .mem w.dst) {v : Move} (hv : v ∈ vs) :
    (vs.foldl (fun m v => v.apply m) m).read v.dst.toNat = v.src.byteIn m := by
  induction vs generalizing m with
  | nil => cases hv
  | cons u vs ih =>
    simp only [List.map_cons, List.nodup_cons, List.mem_map, not_exists, not_and] at hd
    rw [List.foldl_cons]
    rcases List.mem_cons.mp hv with rfl | hv
    · rw [foldl_apply_frame vs (v.apply_wf hm) fun w hw => hd.1 w hw, v.apply_read hm, if_pos rfl]
    · rw [ih (u.apply_wf hm) hd.2 (fun x hx y hy => hs x (by simp [hx]) y (by simp [hy])) hv]
      cases h : v.src with
      | value b => rfl
      | mem a =>
        have : a ≠ u.dst := fun e => hs v (by simp [hv]) u (by simp) (by rw [h, e])
        simp only [Source.byteIn, u.apply_read hm, if_neg this]

end Sys2Proof.Machine
end

