-- ==== Sys2Proof/Laws/State.lean ====
section
/-! SUPPORT. One lemma per field per named update of State, true by rfl, so that no proof unfolds a record update. -/

namespace Sys2Proof.Machine

namespace State

variable (s : State) (d n next off : Nat) (st : Status) (m : Memory)

@[simp] theorem ok_head : (s.ok d).head = s.head := rfl
@[simp] theorem ok_tail : (s.ok d).tail = s.tail := rfl
@[simp] theorem ok_length : (s.ok d).length = s.length := rfl
@[simp] theorem ok_capacity : (s.ok d).capacity = s.capacity := rfl
@[simp] theorem ok_base : (s.ok d).base = s.base := rfl
@[simp] theorem ok_bound : (s.ok d).bound = s.bound := rfl
@[simp] theorem ok_result : (s.ok d).result = resultWord d .ok := rfl
@[simp] theorem ok_cmdLo : (s.ok d).cmdLo = s.cmdLo := rfl
@[simp] theorem ok_cmdHi : (s.ok d).cmdHi = s.cmdHi := rfl
@[simp] theorem ok_busy : (s.ok d).busy = s.busy := rfl
@[simp] theorem ok_mem : (s.ok d).mem = s.mem := rfl
@[simp] theorem ok_platform : (s.ok d).platform = s.platform := rfl
@[simp] theorem ok_hostQueue : (s.ok d).hostQueue = s.hostQueue := rfl
@[simp] theorem ok_readData : (s.ok d).readData = s.readData := rfl
@[simp] theorem ok_draws : (s.ok d).draws = s.draws := rfl

@[simp] theorem fail_head : (s.fail st).head = s.head := rfl
@[simp] theorem fail_tail : (s.fail st).tail = s.tail := rfl
@[simp] theorem fail_length : (s.fail st).length = s.length := rfl
@[simp] theorem fail_capacity : (s.fail st).capacity = s.capacity := rfl
@[simp] theorem fail_base : (s.fail st).base = s.base := rfl
@[simp] theorem fail_bound : (s.fail st).bound = s.bound := rfl
@[simp] theorem fail_result : (s.fail st).result = resultWord 0 st := rfl
@[simp] theorem fail_cmdLo : (s.fail st).cmdLo = s.cmdLo := rfl
@[simp] theorem fail_cmdHi : (s.fail st).cmdHi = s.cmdHi := rfl
@[simp] theorem fail_busy : (s.fail st).busy = s.busy := rfl
@[simp] theorem fail_mem : (s.fail st).mem = s.mem := rfl
@[simp] theorem fail_platform : (s.fail st).platform = s.platform := rfl
@[simp] theorem fail_hostQueue : (s.fail st).hostQueue = s.hostQueue := rfl
@[simp] theorem fail_readData : (s.fail st).readData = s.readData := rfl
@[simp] theorem fail_draws : (s.fail st).draws = s.draws := rfl

@[simp] theorem stored_head : (s.stored n next).head = s.head := rfl
@[simp] theorem stored_tail : (s.stored n next).tail = .ofNat 16 next := rfl
@[simp] theorem stored_length : (s.stored n next).length = .ofNat 16 (s.length.toNat + n) := rfl
@[simp] theorem stored_capacity : (s.stored n next).capacity = s.capacity := rfl
@[simp] theorem stored_base : (s.stored n next).base = s.base := rfl
@[simp] theorem stored_bound : (s.stored n next).bound = s.bound := rfl
@[simp] theorem stored_result : (s.stored n next).result = s.result := rfl
@[simp] theorem stored_cmdLo : (s.stored n next).cmdLo = s.cmdLo := rfl
@[simp] theorem stored_cmdHi : (s.stored n next).cmdHi = s.cmdHi := rfl
@[simp] theorem stored_busy : (s.stored n next).busy = s.busy := rfl
@[simp] theorem stored_mem : (s.stored n next).mem = s.mem := rfl
@[simp] theorem stored_platform : (s.stored n next).platform = s.platform := rfl
@[simp] theorem stored_hostQueue : (s.stored n next).hostQueue = s.hostQueue := rfl
@[simp] theorem stored_readData : (s.stored n next).readData = s.readData := rfl
@[simp] theorem stored_draws : (s.stored n next).draws = s.draws := rfl

@[simp] theorem consumed_head : (s.consumed n next).head = .ofNat 16 next := rfl
@[simp] theorem consumed_tail : (s.consumed n next).tail = s.tail := rfl
@[simp] theorem consumed_length : (s.consumed n next).length = .ofNat 16 (s.length.toNat - n) := rfl
@[simp] theorem consumed_capacity : (s.consumed n next).capacity = s.capacity := rfl
@[simp] theorem consumed_base : (s.consumed n next).base = s.base := rfl
@[simp] theorem consumed_bound : (s.consumed n next).bound = s.bound := rfl
@[simp] theorem consumed_result : (s.consumed n next).result = s.result := rfl
@[simp] theorem consumed_cmdLo : (s.consumed n next).cmdLo = s.cmdLo := rfl
@[simp] theorem consumed_cmdHi : (s.consumed n next).cmdHi = s.cmdHi := rfl
@[simp] theorem consumed_busy : (s.consumed n next).busy = s.busy := rfl
@[simp] theorem consumed_mem : (s.consumed n next).mem = s.mem := rfl
@[simp] theorem consumed_platform : (s.consumed n next).platform = s.platform := rfl
@[simp] theorem consumed_hostQueue : (s.consumed n next).hostQueue = s.hostQueue := rfl
@[simp] theorem consumed_readData : (s.consumed n next).readData = s.readData := rfl
@[simp] theorem consumed_draws : (s.consumed n next).draws = s.draws := rfl

@[simp] theorem resetRegisters_head : (s.resetRegisters).head = 0 := rfl
@[simp] theorem resetRegisters_tail : (s.resetRegisters).tail = 0 := rfl
@[simp] theorem resetRegisters_length : (s.resetRegisters).length = 0 := rfl
@[simp] theorem resetRegisters_capacity : (s.resetRegisters).capacity = 0 := rfl
@[simp] theorem resetRegisters_base : (s.resetRegisters).base = 0 := rfl
@[simp] theorem resetRegisters_bound : (s.resetRegisters).bound = false := rfl
@[simp] theorem resetRegisters_result : (s.resetRegisters).result = 0 := rfl
@[simp] theorem resetRegisters_cmdLo : (s.resetRegisters).cmdLo = 0 := rfl
@[simp] theorem resetRegisters_cmdHi : (s.resetRegisters).cmdHi = 0 := rfl
@[simp] theorem resetRegisters_busy : (s.resetRegisters).busy = false := rfl
@[simp] theorem resetRegisters_mem : (s.resetRegisters).mem = s.mem := rfl
@[simp] theorem resetRegisters_platform : (s.resetRegisters).platform = s.platform := rfl
@[simp] theorem resetRegisters_hostQueue : (s.resetRegisters).hostQueue = s.hostQueue := rfl
@[simp] theorem resetRegisters_readData : (s.resetRegisters).readData = s.readData := rfl
@[simp] theorem resetRegisters_draws : (s.resetRegisters).draws = s.draws := rfl

@[simp] theorem ok_sAddr : (s.ok d).sAddr off = s.sAddr off := rfl
@[simp] theorem ok_cap : (s.ok d).cap = s.cap := rfl
@[simp] theorem fail_sAddr : (s.fail st).sAddr off = s.sAddr off := rfl
@[simp] theorem fail_cap : (s.fail st).cap = s.cap := rfl
@[simp] theorem stored_sAddr : (s.stored n next).sAddr off = s.sAddr off := rfl
@[simp] theorem stored_cap : (s.stored n next).cap = s.cap := rfl
@[simp] theorem consumed_sAddr : (s.consumed n next).sAddr off = s.sAddr off := rfl
@[simp] theorem consumed_cap : (s.consumed n next).cap = s.cap := rfl
@[simp] theorem setMem_sAddr : (({ s with mem := m } : State)).sAddr off = s.sAddr off := rfl
@[simp] theorem setMem_cap : (({ s with mem := m } : State)).cap = s.cap := rfl

@[simp] theorem statusBeforeBusyFalls_head : s.statusBeforeBusyFalls.head = s.head := rfl
@[simp] theorem statusBeforeBusyFalls_tail : s.statusBeforeBusyFalls.tail = s.tail := rfl
@[simp] theorem statusBeforeBusyFalls_length : s.statusBeforeBusyFalls.length = s.length := rfl
@[simp] theorem statusBeforeBusyFalls_capacity : s.statusBeforeBusyFalls.capacity = s.capacity := rfl
@[simp] theorem statusBeforeBusyFalls_base : s.statusBeforeBusyFalls.base = s.base := rfl
@[simp] theorem statusBeforeBusyFalls_bound : s.statusBeforeBusyFalls.bound = s.bound := rfl
@[simp] theorem statusBeforeBusyFalls_result : s.statusBeforeBusyFalls.result = s.result := rfl
@[simp] theorem statusBeforeBusyFalls_cmdLo : s.statusBeforeBusyFalls.cmdLo = s.cmdLo := rfl
@[simp] theorem statusBeforeBusyFalls_cmdHi : s.statusBeforeBusyFalls.cmdHi = s.cmdHi := rfl
@[simp] theorem statusBeforeBusyFalls_busy : s.statusBeforeBusyFalls.busy = s.busy := rfl
@[simp] theorem statusBeforeBusyFalls_mem : s.statusBeforeBusyFalls.mem = s.mem := rfl
@[simp] theorem statusBeforeBusyFalls_platform : s.statusBeforeBusyFalls.platform = s.platform := rfl
@[simp] theorem statusBeforeBusyFalls_hostQueue : s.statusBeforeBusyFalls.hostQueue = s.hostQueue := rfl
@[simp] theorem statusBeforeBusyFalls_draws : s.statusBeforeBusyFalls.draws = s.draws := rfl
@[simp] theorem statusBeforeBusyFalls_readData :
    s.statusBeforeBusyFalls.readData = some (State.statusWord { s with busy := true }) := rfl

end State

end Sys2Proof.Machine
end

