-- ==== Sys2Proof/Laws/Exec.lean ====
section
/-! SUPPORT. What the shared operations can do, said once: the check order, a transfer's end, the RESULT word, and the
search over the window. -/

namespace Sys2Proof.Machine

/-! ### The arms of exec -/

section

variable (s : State)

theorem exec_init (base : Word) (cap : Half) : exec (.init base cap) s = execInit base cap s := rfl
theorem exec_writeByte (b : Byte) : exec (.writeByte b) s = execWriteByte b s := rfl
theorem exec_readByte : exec .readByte s = execReadByte s := rfl
theorem exec_writeBlock (src : Word) (len : Half) : exec (.writeBlock src len) s = execWriteBlock src len s := rfl
theorem exec_readBlock (dst : Word) (len : Half) : exec (.readBlock dst len) s = execReadBlock dst len s := rfl
theorem exec_delete (len : Half) : exec (.delete len) s = execDelete len s := rfl
theorem exec_insertKeyword (v : Word) (k : BitVec 3) : exec (.insertKeyword v k) s = execInsertKeyword v k s := rfl
theorem exec_findKeyword (v : Word) (k : BitVec 3) : exec (.findKeyword v k) s = execFindKeyword v k s := rfl
theorem exec_getLen : exec .getLen s = execGetLen s := rfl
theorem exec_getFree : exec .getFree s = execGetFree s := rfl

end

/-! ### RESULT -/

theorem Status.code_le (st : Status) : st.code ≤ 9 := by cases st <;> decide

theorem Status.code_eq_zero {st : Status} : st.code = 0 ↔ st = .ok := by cases st <;> decide

theorem statusField_toNat (r : Word) : (statusField r).toNat = r.toNat % 2 ^ 4 := by
  simp [statusField, BitVec.extractLsb'_toNat]

theorem reservedField_toNat (r : Word) : (reservedField r).toNat = r.toNat / 2 ^ 4 % 2 ^ 4 := by
  simp [reservedField, BitVec.extractLsb'_toNat, Nat.shiftRight_eq_div_pow]

theorem dataField_toNat (r : Word) : (dataField r).toNat = r.toNat / 2 ^ 8 := by
  have := r.isLt
  simp only [dataField, BitVec.extractLsb'_toNat, Nat.shiftRight_eq_div_pow]; omega

theorem resultWord_toNat {d : Nat} (hd : d < 2 ^ 24) (st : Status) : (resultWord d st).toNat = d * 2 ^ 8 + st.code := by
  have := st.code_le
  simp only [resultWord, BitVec.toNat_ofNat]; omega

@[simp] theorem statusField_resultWord (d : Nat) (st : Status) : (statusField (resultWord d st)).toNat = st.code := by
  have := st.code_le
  rw [statusField_toNat]; simp only [resultWord, BitVec.toNat_ofNat]; omega

@[simp] theorem reservedField_resultWord (d : Nat) (st : Status) : reservedField (resultWord d st) = 0 := by
  have := st.code_le
  apply BitVec.eq_of_toNat_eq
  rw [reservedField_toNat]; simp only [resultWord, BitVec.toNat_ofNat]; change _ = 0; omega

theorem dataField_resultWord {d : Nat} (hd : d < 2 ^ 24) (st : Status) : (dataField (resultWord d st)).toNat = d := by
  have := st.code_le
  rw [dataField_toNat, resultWord_toNat hd]; omega

/-- A RESULT word built by `resultWord` has the format of 10_state.md R17. -/
theorem resultInv_of_eq {s : State} {d : Nat} {st : Status} (h : s.result = resultWord d st) : ResultInv s :=
  ⟨by rw [h]; simp, by rw [h, statusField_resultWord]; exact st.code_le⟩

/-- A status field of 0 is the status OK. -/
theorem statusField_eq_zero {d : Nat} {st : Status} : statusField (resultWord d st) = 0 ↔ st = .ok := by
  rw [← Status.code_eq_zero, ← statusField_resultWord d st]
  exact ⟨fun h => by rw [h]; rfl, fun h => BitVec.eq_of_toNat_eq h⟩

/-! ### Check order -/

/-- How a command behind the shared checks goes on to a next state: it failed the binding, it failed a check of its own,
or it had its effect (60_exceptions.md R154). -/
theorem whenBound_next {s t : State} {c : Option Status} {e : Host.Outcome State Fault Refusal}
    (h : s.whenBound c e = .next t) :
    (s.bound = false ∧ t = s.fail .notInitialized) ∨ (s.bound = true ∧ ∃ st, c = some st ∧ t = s.fail st) ∨
      (s.bound = true ∧ c = none ∧ e = .next t) := by
  unfold State.whenBound at h
  split at h
  · rename_i hb
    cases c with
    | none => exact .inr (.inr ⟨hb, rfl, h⟩)
    | some st => cases h; exact .inr (.inl ⟨hb, st, rfl, rfl⟩)
  · rename_i hb; cases h; exact .inl ⟨by simpa using hb, rfl⟩

theorem whenBound_unbound {s : State} (hb : s.bound = false) (c : Option Status)
    (e : Host.Outcome State Fault Refusal) : s.whenBound c e = .next (s.fail .notInitialized) := by
  simp [State.whenBound, hb]

theorem whenBound_failed {s : State} (hb : s.bound = true) (st : Status) (e : Host.Outcome State Fault Refusal) :
    s.whenBound (some st) e = .next (s.fail st) := by
  simp [State.whenBound, hb]

theorem whenBound_passed {s : State} (hb : s.bound = true) (e : Host.Outcome State Fault Refusal) :
    s.whenBound none e = e := by
  simp [State.whenBound, hb]

/-- A command behind the shared checks stops only where its effect stops. -/
theorem whenBound_fault {s : State} {c : Option Status} {e : Host.Outcome State Fault Refusal} {r : Fault}
    (h : s.whenBound c e = .fault r) : s.bound = true ∧ c = none ∧ e = .fault r := by
  unfold State.whenBound at h
  split at h
  · rename_i hb
    cases c with
    | none => exact ⟨hb, rfl, h⟩
    | some st => cases h
  · cases h

theorem whenBound_refused {s : State} {c : Option Status} {e : Host.Outcome State Fault Refusal} {r : Refusal}
    (h : s.whenBound c e = .refused r) : s.bound = true ∧ c = none ∧ e = .refused r := by
  unfold State.whenBound at h
  split at h
  · rename_i hb
    cases c with
    | none => exact ⟨hb, rfl, h⟩
    | some st => cases h
  · cases h

theorem spaceCheck_none {s : State} {n : Nat} :
    spaceCheck s n = none ↔ s.length.toNat + n ≤ s.capacity.toNat - 1 := by
  unfold spaceCheck; split <;> simp <;> omega

theorem spaceCheck_some {s : State} {n : Nat} (h : s.capacity.toNat - 1 < s.length.toNat + n) :
    spaceCheck s n = some .insufficientSpace := by
  unfold spaceCheck; rw [if_pos h]

theorem dataCheck_none {s : State} {n : Nat} : dataCheck s n = none ↔ n ≤ s.length.toNat := by
  unfold dataCheck; split <;> simp <;> omega

theorem dataCheck_some {s : State} {n : Nat} (h : s.length.toNat < n) : dataCheck s n = some .insufficientData := by
  unfold dataCheck; rw [if_pos h]

theorem keywordLengthCheck_none {k : Nat} : keywordLengthCheck k = none ↔ 1 ≤ k ∧ k ≤ 4 := by
  unfold keywordLengthCheck Config.kwMin Config.kwMax; split <;> simp <;> omega

theorem keywordLengthCheck_some {k : Nat} (h : k < 1 ∨ 4 < k) : keywordLengthCheck k = some .invalidKeywordLength := by
  unfold keywordLengthCheck Config.kwMin Config.kwMax; rw [if_pos h]

theorem insertKeywordCheck_none {s : State} {k : Nat} :
    insertKeywordCheck s k = none ↔ (1 ≤ k ∧ k ≤ 4) ∧ s.length.toNat + k ≤ s.capacity.toNat - 1 := by
  unfold insertKeywordCheck; rw [Option.or_eq_none_iff, keywordLengthCheck_none, spaceCheck_none]

theorem findKeywordCheck_none {s : State} {k : Nat} :
    findKeywordCheck s k = none ↔ (1 ≤ k ∧ k ≤ 4) ∧ k ≤ s.length.toNat := by
  unfold findKeywordCheck; rw [Option.or_eq_none_iff, keywordLengthCheck_none, dataCheck_none]

/-! ### Transfers -/

/-- A transfer that goes on to a next state went through all its moves. -/
theorem afterMoves_next {s t : State} {vs : List Move} {f : State → State} (h : s.afterMoves vs f = .next t) :
    (runMoves s.platform vs s.mem).stuck = none ∧
      t = f { s with mem := (runMoves s.platform vs s.mem).mem } := by
  unfold State.afterMoves at h
  split at h
  · cases h
  · rename_i hn; cases h; exact ⟨hn, rfl⟩

theorem afterMoves_refused {s : State} {vs : List Move} {f : State → State} {r : Refusal} :
    s.afterMoves vs f ≠ .refused r := by
  unfold State.afterMoves; split <;> simp

/-- A transfer whose accesses are admitted goes on from the MEM its moves leave. -/
theorem afterMoves_admitted {s : State} {vs : List Move} (f : State → State)
    (hw : ∀ v ∈ vs, admits s.platform v.dst .write = true)
    (hr : ∀ v ∈ vs, ∀ a, v.src = .mem a → admits s.platform a .read = true) :
    s.afterMoves vs f = .next (f { s with mem := vs.foldl (fun m v => v.apply m) s.mem }) := by
  unfold State.afterMoves; rw [runMoves_admitted vs s.mem hw hr]

/-- A transfer that is stuck ends the command there. -/
theorem afterMoves_stuck {s : State} {vs : List Move} {r : Fault} (h : (runMoves s.platform vs s.mem).stuck = some r)
    (f : State → State) : s.afterMoves vs f = .fault r := by
  unfold State.afterMoves; rw [h]

/-- A transfer that ends in a fault is stuck at that access. -/
theorem afterMoves_fault {s : State} {vs : List Move} {f : State → State} {r : Fault}
    (h : s.afterMoves vs f = .fault r) : (runMoves s.platform vs s.mem).stuck = some r := by
  unfold State.afterMoves at h
  split at h
  · cases h; assumption
  · cases h

/-- What makes a transfer stuck is an access the platform does not admit. -/
theorem runMoves_stuck {p : Platform} (vs : List Move) {m : Memory} {r : Fault}
    (h : (runMoves p vs m).stuck = some r) : ∃ k a, r = .stuck k a ∧ admits p a k = false := by
  induction vs generalizing m with
  | nil => cases h
  | cons v vs ih =>
    simp only [runMoves] at h
    cases hf : v.src.fetch p m with
    | error q =>
      rw [hf] at h; cases h
      cases hv : v.src with
      | value b => simp [hv, Source.fetch] at hf
      | mem a =>
        simp only [hv, Source.fetch, memRead] at hf
        split at hf
        · cases hf
        · rename_i ha; cases hf; exact ⟨_, _, rfl, by simpa using ha⟩
    | ok b =>
      rw [hf] at h
      simp only [memWrite] at h
      by_cases ha : admits p v.dst .write = true
      · simp only [ha, if_true] at h; exact ih h
      · simp only [ha, Bool.false_eq_true, if_false] at h; cases h; exact ⟨_, _, rfl, by simpa using ha⟩

/-! ### The search -/

/-- RECON looks at MEM, the platform, BASE and CAPACITY only. -/
theorem recon_congr {s t : State} (hp : t.platform = s.platform) (hm : t.mem = s.mem) (hb : t.base = s.base)
    (hc : t.capacity = s.capacity) (n q : Nat) (acc : Word) : t.recon n q acc = s.recon n q acc := by
  induction n generalizing q acc with
  | zero => rfl
  | succ n ih => simp only [State.recon, State.sAddr, State.cap, hp, hm, hb, hc, ih]

/-- The scan looks at MEM, the platform, BASE, CAPACITY and HEAD only. -/
theorem scan_congr {s t : State} (hp : t.platform = s.platform) (hm : t.mem = s.mem) (hb : t.base = s.base)
    (hc : t.capacity = s.capacity) (hh : t.head = s.head) (v : Word) (k n i : Nat) :
    t.scan v k n i = s.scan v k n i := by
  induction n generalizing i with
  | zero => rfl
  | succ n ih =>
    simp only [State.scan, State.candidateMatches, State.sAddr, State.cap, hp, hm, hb, hc, hh, ih,
      recon_congr hp hm hb hc]

/-- What makes RECON stuck is an access the platform does not admit. -/
theorem recon_error {s : State} {n q : Nat} {acc : Word} {r : Fault} (h : s.recon n q acc = .error r) :
    ∃ k a, r = .stuck k a ∧ admits s.platform a k = false := by
  induction n generalizing q acc with
  | zero => cases h
  | succ n ih =>
    simp only [State.recon, memRead] at h
    by_cases ha : admits s.platform (s.sAddr q) .read = true
    · simp only [ha, if_true] at h; exact ih h
    · simp only [ha, Bool.false_eq_true, if_false] at h; cases h; exact ⟨_, _, rfl, by simpa using ha⟩

/-- What makes the scan stuck is an access the platform does not admit. -/
theorem scan_error {s : State} {v : Word} {k n i : Nat} {r : Fault} (h : s.scan v k n i = .error r) :
    ∃ k a, r = .stuck k a ∧ admits s.platform a k = false := by
  induction n generalizing i with
  | zero => cases h
  | succ n ih =>
    rw [State.scan] at h
    cases hc : s.candidateMatches v k (adv s.cap s.head.toNat i) with
    | ok b => cases b <;> simp only [hc] at h <;> first | exact ih h | cases h
    | error q =>
      simp only [hc] at h
      cases h
      simp only [State.candidateMatches, memRead] at hc
      by_cases ha : admits s.platform (s.sAddr (adv s.cap s.head.toNat i)) .read = true
      · simp only [ha, if_true] at hc
        split at hc
        · split at hc
          · cases hc; exact recon_error (by assumption)
          · cases hc
        · cases hc
      · simp only [ha, Bool.false_eq_true, if_false] at hc; cases hc; exact ⟨_, _, rfl, by simpa using ha⟩

/-- A read that delivers a byte was admitted. -/
theorem memRead_ok {p : Platform} {m : Memory} {a : Word} {b : Byte} (h : memRead p m a = .ok b) :
    admits p a .read = true := by
  unfold memRead at h
  split at h
  · assumption
  · cases h

theorem windowAddr_eq {s : State} : ∀ k, s.windowAddr k = s.sAddr (adv s.cap s.head.toNat k) := fun _ => rfl

/-- RECON over window positions gives the window's word (44_keyword.md R126). -/
theorem recon_window {s : State} (hi : BufferInv s) (n : Nat) {i j : Nat} (hn : i + j + n ≤ s.length.toNat)
    (hr : ∀ k < s.length.toNat, admits s.platform (s.windowAddr k) .read = true) :
    s.recon n (adv s.cap s.head.toNat (i + j)) (s.windowWord i j) = .ok (s.windowWord i (j + n)) := by
  induction n generalizing j with
  | zero => rfl
  | succ n ih =>
    have h1 := hi.head_lt
    have h2 := hi.length_le
    have hadm := hr (i + j) (by omega)
    rw [windowAddr_eq] at hadm
    have hstep : adv s.cap (adv s.cap s.head.toNat (i + j)) 1 = adv s.cap s.head.toNat (i + (j + 1)) := by
      rw [adv_adv (by exact h1) (by unfold State.cap; omega), Nat.add_assoc]
    simp only [State.recon, memRead, hadm, if_true, hstep]
    have := ih (j := j + 1) (by omega)
    rw [show j + 1 + n = j + (n + 1) by omega] at this
    exact this

theorem windowWord_lt (s : State) (i k : Nat) (hk : k ≤ 4) : (s.windowWord i k).toNat < 2 ^ (8 * k) := by
  induction k with
  | zero => simp [State.windowWord]
  | succ k ih =>
    have h := ih (by omega)
    have hb := (s.windowByte (i + k)).isLt
    rw [State.windowWord]
    have hsh : (s.windowWord i k <<< 8).toNat = (s.windowWord i k).toNat * 2 ^ 8 := by
      rw [BitVec.toNat_shiftLeft, Nat.shiftLeft_eq, Nat.mod_eq_of_lt]
      calc (s.windowWord i k).toNat * 2 ^ 8 < 2 ^ (8 * k) * 2 ^ 8 := by omega
        _ = 2 ^ (8 * (k + 1)) := by rw [← Nat.pow_add]; congr 1
        _ ≤ 2 ^ 32 := Nat.pow_le_pow_right (by decide) (by omega)
    rw [BitVec.toNat_or]
    apply Nat.or_lt_two_pow
    · rw [hsh]
      calc (s.windowWord i k).toNat * 2 ^ 8 < 2 ^ (8 * k) * 2 ^ 8 := by omega
        _ = 2 ^ (8 * (k + 1)) := by rw [← Nat.pow_add]; congr 1
    · rw [BitVec.toNat_setWidth]
      calc _ ≤ (s.windowByte (i + k)).toNat := Nat.mod_le _ _
        _ < 2 ^ 8 := hb
        _ ≤ 2 ^ (8 * (k + 1)) := Nat.pow_le_pow_right (by decide) (by omega)

/-- The window's word one byte longer: the bytes so far, then one more at the least significant end. -/
theorem windowWord_succ_toNat (s : State) (i k : Nat) (hk : k < 4) :
    (s.windowWord i (k + 1)).toNat = (s.windowWord i k).toNat * 2 ^ 8 + (s.windowByte (i + k)).toNat := by
  have h := windowWord_lt s i k (by omega)
  have hb := (s.windowByte (i + k)).isLt
  have hle : 2 ^ (8 * k) ≤ 2 ^ 24 := Nat.pow_le_pow_right (by decide) (by omega)
  rw [State.windowWord, BitVec.toNat_or, BitVec.toNat_shiftLeft, Nat.shiftLeft_eq, BitVec.toNat_setWidth,
    Nat.mod_eq_of_lt (by omega), Nat.mod_eq_of_lt (a := (s.windowByte (i + k)).toNat) (by omega), Nat.mul_comm,
    Nat.two_pow_add_eq_or_of_lt hb]

/-- The first byte of a window word is its top byte (44_keyword.md R128). -/
theorem windowWord_div (s : State) (i k : Nat) (hk : k < 4) :
    (s.windowWord i (k + 1)).toNat / 2 ^ (8 * k) = (s.windowByte i).toNat := by
  induction k with
  | zero => rw [windowWord_succ_toNat s i 0 (by omega)]; simp [State.windowWord]
  | succ k ih =>
    rw [windowWord_succ_toNat s i (k + 1) hk, show 8 * (k + 1) = 8 + 8 * k by omega, Nat.pow_add, ← Nat.div_div_eq_div_mul]
    have hb := (s.windowByte (i + (k + 1))).isLt
    rw [show ((s.windowWord i (k + 1)).toNat * 2 ^ 8 + (s.windowByte (i + (k + 1))).toNat) / 2 ^ 8
      = (s.windowWord i (k + 1)).toNat by omega]
    exact ih (by omega)

/-- A candidate of the scan, in terms of the window. -/
theorem candidateMatches_window {s : State} (hi : BufferInv s) {v : Word} {k i : Nat} (hk : 1 ≤ k) (hk4 : k ≤ 4)
    (hik : i + k ≤ s.length.toNat)
    (hr : ∀ j < s.length.toNat, admits s.platform (s.windowAddr j) .read = true) :
    s.candidateMatches v k (adv s.cap s.head.toNat i) = .ok (s.windowWord i k == v) := by
  have hadm := hr i (by omega)
  have hrec : s.recon k (adv s.cap s.head.toNat i) 0 = .ok (s.windowWord i k) := by
    have h := recon_window hi k (i := i) (j := 0) (by omega) hr
    rw [Nat.add_zero, Nat.zero_add] at h
    exact h
  have hb : s.mem.read (s.sAddr (adv s.cap s.head.toNat i)).toNat = s.windowByte i := rfl
  rw [windowAddr_eq] at hadm
  simp only [State.candidateMatches, memRead, hadm, if_true, hb]
  by_cases hf : (s.windowByte i).setWidth 32 = highByte v k
  · rw [if_pos hf, hrec]
  · rw [if_neg hf]
    congr 1
    symm
    rw [beq_eq_false_iff_ne]
    intro h
    apply hf
    subst h
    obtain ⟨k, rfl⟩ : ∃ k', k = k' + 1 := ⟨k - 1, by omega⟩
    apply BitVec.eq_of_toNat_eq
    have hb8 := (s.windowByte i).isLt
    rw [highByte, BitVec.toNat_ushiftRight, Nat.shiftRight_eq_div_pow, BitVec.toNat_setWidth,
      Nat.mod_eq_of_lt (by omega), show 8 * (k + 1 - 1) = 8 * k by simp, windowWord_div s i k (by omega)]

/-- The scan answers the first matching candidate, or none (44_keyword.md R127, R130). -/
theorem scan_window {s : State} (hi : BufferInv s) {v : Word} {k : Nat} (hk : 1 ≤ k) (hk4 : k ≤ 4)
    (hr : ∀ j < s.length.toNat, admits s.platform (s.windowAddr j) .read = true) (n : Nat) {i : Nat}
    (hn : i + n + k ≤ s.length.toNat + 1) :
    (∃ j, i ≤ j ∧ j < i + n ∧ s.scan v k n i = .ok (some j) ∧ s.windowWord j k = v ∧
        ∀ l, i ≤ l → l < j → s.windowWord l k ≠ v) ∨
      (s.scan v k n i = .ok none ∧ ∀ l, i ≤ l → l < i + n → s.windowWord l k ≠ v) := by
  induction n generalizing i with
  | zero => exact .inr ⟨rfl, fun l h1 h2 => by omega⟩
  | succ n ih =>
    have hc := candidateMatches_window hi (v := v) hk hk4 (i := i) (by omega) hr
    by_cases hm : s.windowWord i k = v
    · refine .inl ⟨i, Nat.le_refl _, by omega, ?_, hm, fun l h1 h2 => by omega⟩
      simp [State.scan, hc, hm]
    · have hs : s.scan v k (n + 1) i = s.scan v k n (i + 1) := by
        rw [State.scan, hc, beq_eq_false_iff_ne.mpr hm]
      rw [hs]
      rcases ih (i := i + 1) (by omega) with ⟨j, h1, h2, h3, h4, h5⟩ | ⟨h1, h2⟩
      · refine .inl ⟨j, by omega, by omega, h3, h4, fun l hl1 hl2 => ?_⟩
        rcases Nat.eq_or_lt_of_le hl1 with rfl | hl
        · exact hm
        · exact h5 l hl hl2
      · refine .inr ⟨h1, fun l hl1 hl2 => ?_⟩
        rcases Nat.eq_or_lt_of_le hl1 with rfl | hl
        · exact hm
        · exact h2 l hl (by omega)

/-! ### What a search that ended has read -/

/-- RECON that ends has read its window positions. -/
theorem recon_reads {s : State} (hi : BufferInv s) (n : Nat) {i : Nat} (hn : i + n ≤ s.length.toNat) {acc w : Word}
    (h : s.recon n (adv s.cap s.head.toNat i) acc = .ok w) :
    ∀ p, i ≤ p → p < i + n → admits s.platform (s.windowAddr p) .read = true := by
  induction n generalizing i acc with
  | zero => intro p h1 h2; omega
  | succ n ih =>
    have h1 := hi.head_lt
    have h2 := hi.length_le
    have hstep : adv s.cap (adv s.cap s.head.toNat i) 1 = adv s.cap s.head.toNat (i + 1) :=
      adv_adv h1 (by unfold State.cap; omega)
    rw [State.recon, hstep] at h
    split at h
    · cases h
    · rename_i b hb
      intro p hp1 hp2
      rcases Nat.eq_or_lt_of_le hp1 with rfl | hp
      · exact memRead_ok hb
      · exact ih (by omega) h p hp (by omega)

/-- A candidate that was decided was read at its first byte, and at all of its bytes if it matches (44_keyword.md
R127). -/
theorem candidateMatches_reads {s : State} (hi : BufferInv s) {v : Word} {k i : Nat} (hik : i + k ≤ s.length.toNat)
    {b : Bool} (h : s.candidateMatches v k (adv s.cap s.head.toNat i) = .ok b) :
    admits s.platform (s.windowAddr i) .read = true ∧
      (b = true → ∀ p, i ≤ p → p < i + k → admits s.platform (s.windowAddr p) .read = true) := by
  unfold State.candidateMatches at h
  split at h
  · cases h
  · rename_i c hc
    refine ⟨memRead_ok hc, ?_⟩
    split at h
    · split at h
      · cases h
      · exact fun _ => recon_reads hi k hik (by assumption)
    · cases h; exact fun hb => nomatch hb

/-- A search that found a match has read the window up to its end; one that found none has read every candidate's first
byte (44_keyword.md R127, R130). -/
theorem scan_reads {s : State} (hi : BufferInv s) {v : Word} {k : Nat} (n : Nat) {i : Nat}
    (hn : i + n + k ≤ s.length.toNat + 1) :
    (∀ j, s.scan v k n i = .ok (some j) →
      ∀ p, i ≤ p → p < j + k → admits s.platform (s.windowAddr p) .read = true) ∧
    (s.scan v k n i = .ok none → ∀ p, i ≤ p → p < i + n → admits s.platform (s.windowAddr p) .read = true) := by
  induction n generalizing i with
  | zero => exact ⟨fun j h => (nomatch h), fun _ p h1 h2 => by omega⟩
  | succ n ih =>
    obtain ⟨ih1, ih2⟩ := ih (i := i + 1) (by omega)
    rw [State.scan]
    cases hc : s.candidateMatches v k (adv s.cap s.head.toNat i) with
    | error r => exact ⟨fun j h => (nomatch h), fun h => nomatch h⟩
    | ok b =>
      obtain ⟨h1, h2⟩ := candidateMatches_reads hi (by omega) hc
      cases b with
      | true => exact ⟨fun j h => by cases h; exact h2 rfl, fun h => nomatch h⟩
      | false =>
        constructor
        · intro j h p hp1 hp2
          rcases Nat.eq_or_lt_of_le hp1 with rfl | hp
          · exact h1
          · exact ih1 j h p hp hp2
        · intro h p hp1 hp2
          rcases Nat.eq_or_lt_of_le hp1 with rfl | hp
          · exact h1
          · exact ih2 h p hp (by omega)

end Sys2Proof.Machine
end

