-- ==== Sys2Proof/Laws/Step.lean ====
section
/-! SUPPORT. Which step comes next, and what a transfer does in a bound state that satisfies INV1 to INV5. -/

namespace Sys2Proof.Machine

/-! ### Scheduling -/

/-- Where the engine executes the issued command next, a step is that command. -/
theorem step_of_runsCommandNext {s : State} (h : s.runsCommandNext = true) :
    s.busy = true ∧ step s = runCommand s := by
  simp only [State.runsCommandNext, Bool.and_eq_true] at h
  obtain ⟨hb, hq⟩ := h
  refine ⟨hb, ?_⟩
  unfold step stepMachine stepBusy
  rw [if_pos hb]
  cases hs : s.hostQueue with
  | nil => rfl
  | cons a rest =>
    rw [hs] at hq
    simp only [stepBusyWith, hq, if_true]

/-- Whether an access is held depends on the platform only. -/
theorem heldWhileBusy_of_platform {s t : State} (h : s.platform = t.platform) (a : HostAction) :
    s.heldWhileBusy a = t.heldWhileBusy a := by
  cases a <;> simp [State.heldWhileBusy, State.regOffset, State.blockOffset, h]

/-- A word just issued is the command that runs next. -/
theorem withIssued_runsCommandNext (s : State) (w : CmdWord) : (s.withIssued w).runsCommandNext = true := by
  unfold State.runsCommandNext State.withIssued
  simp only [Bool.true_and]
  cases h : s.hostQueue.dropWhile (fun a => !s.heldWhileBusy a) with
  | nil => rfl
  | cons a rest =>
    have := List.head?_dropWhile_not (fun a => !s.heldWhileBusy a) s.hostQueue
    rw [h] at this
    simp only [List.head?_cons, Bool.not_eq_false'] at this
    exact this

@[simp] theorem withIssued_commandWord (s : State) (w : CmdWord) : (s.withIssued w).commandWord = w :=
  halves_append w

/-- STATUS is BOUND and BUSY (60_exceptions.md R171). -/
theorem statusWord_toNat (s : State) : s.statusWord.toNat = bit s.bound * 2 + bit s.busy := by
  unfold State.statusWord; cases s.bound <;> cases s.busy <;> rfl

/-- On an idle engine the oldest pending access takes effect. -/
theorem step_idle {s : State} (hb : s.busy = false) {a : HostAction} {rest : List HostAction}
    (hq : s.hostQueue = a :: rest) : step s = hostAct a { s with hostQueue := rest } := by
  unfold step stepMachine stepIdle; rw [hb, hq]; rfl

/-- While BUSY = 1 a STATUS read that is the oldest pending access is ordered against the command (log 6). -/
theorem step_busy_status {s : State} (hb : s.busy = true) {a : HostAction} {rest : List HostAction}
    (hq : s.hostQueue = a :: rest) (hh : s.heldWhileBusy a = false) (hs : s.isStatusLoad a = true) :
    step s = stepBusyStatus a rest s := by
  unfold step stepMachine stepBusy
  simp only [hb, if_true, hq, stepBusyWith, hh, hs, Bool.false_eq_true, if_false]

/-- While BUSY = 1 any other access that is not held and does not race the command takes effect. -/
theorem step_busy_access {s : State} (hb : s.busy = true) {a : HostAction} {rest : List HostAction}
    (hq : s.hostQueue = a :: rest) (hh : s.heldWhileBusy a = false) (hs : s.isStatusLoad a = false)
    (hr : s.raceAddr a = none) : step s = hostAct a { s with hostQueue := rest } := by
  unfold step stepMachine stepBusy
  simp only [hb, if_true, hq, stepBusyWith, hh, hs, hr, Bool.false_eq_true, if_false]

/-! ### The shape of a register access -/

theorem blockOffset_add (b : Word) {off : Nat} (h : off < 64) : (b + BitVec.ofNat 32 off - b).toNat = off := by
  rw [BitVec.add_comm, BitVec.add_sub_cancel]; simp; omega

/-- An aligned word access selects its offset (60_exceptions.md R171). -/
theorem regOffset_word (s : State) {off : Nat} (h : off < 64) (h4 : off % 4 = 0) :
    s.regOffset (s.platform.engBase + .ofNat 32 off) .word = .ok off := by
  unfold State.regOffset inBlock State.blockOffset Config.blockSize
  simp only [blockOffset_add _ h]; simp [h, h4]

/-- Any other access inside the block is one the platform refuses (60_exceptions.md R171). -/
theorem regOffset_other (s : State) {off : Nat} {size : AccessSize} (h : off < 64) (h4 : size ≠ .word ∨ off % 4 ≠ 0) :
    s.regOffset (s.platform.engBase + .ofNat 32 off) size =
      .error (.registerAccess (s.platform.engBase + .ofNat 32 off) size) := by
  unfold State.regOffset inBlock State.blockOffset Config.blockSize
  simp only [blockOffset_add _ h]
  have : (decide (size = .word) && decide (off % 4 = 0)) = false := by
    rcases h4 with h4 | h4 <;> simp [h4]
  simp [h, this]

/-! ### A STATUS read beside a running command -/

section

variable (a : HostAction) (order : Config.StatusOrder) (s t : State)

@[simp] theorem statusAgainst_fault (r : Fault) : statusAgainst a order s (.fault r) = hostAct a s := rfl
@[simp] theorem statusAgainst_refused (r : Refusal) : statusAgainst a order s (.refused r) = .refused r := rfl
@[simp] theorem statusAgainst_beforeCommand : statusAgainst a .beforeCommand s (.next t) = hostAct a s := rfl
@[simp] theorem statusAgainst_beforeBusyFalls :
    statusAgainst a .beforeBusyFalls s (.next t) = .next t.statusBeforeBusyFalls := rfl
@[simp] theorem statusAgainst_afterCommand :
    statusAgainst a .afterCommand s (.next t) = .next { t with hostQueue := a :: s.hostQueue } := rfl

/-- How a step with a STATUS read pending goes on: the read is answered and the command has not run, or the command has
run and the read was answered before BUSY fell, or it is the next access. -/
theorem statusAgainst_next {a : HostAction} {order : Config.StatusOrder} {s u : State}
    {o : Host.Outcome State Fault Refusal} (h : statusAgainst a order s o = .next u) :
    hostAct a s = .next u ∨
      ∃ t, o = .next t ∧ (u = t.statusBeforeBusyFalls ∨ u = { t with hostQueue := a :: s.hostQueue }) := by
  cases o with
  | next t =>
    cases order with
    | beforeCommand => exact .inl h
    | beforeBusyFalls => cases h; exact .inr ⟨t, rfl, .inl rfl⟩
    | afterCommand => cases h; exact .inr ⟨t, rfl, .inr rfl⟩
  | fault r => exact .inl h
  | refused r => cases h

end

/-! ### Transfers in a bound state -/

section

variable {s : State}

/-- Byte k of a write is at storage offset (TAIL + k) mod C (20_memory.md R39). -/
theorem tailAddr_eq (hi : BufferInv s) {n k : Nat} (hn : s.length.toNat + n ≤ s.capacity.toNat - 1) (hk : k < n) :
    s.tailAddr n k = s.sAddr ((s.tail.toNat + k) % s.capacity.toNat) := by
  have h := hi.tail_lt
  unfold State.tailAddr State.cap
  rw [splitOffset_eq_adv h hk, adv_eq_mod h (by omega)]

/-- Byte k of a read is at storage offset (HEAD + k) mod C, which is window position k (20_memory.md R39). -/
theorem headAddr_eq (hi : BufferInv s) {n k : Nat} (hk : k < n) : s.headAddr n k = s.windowAddr k := by
  have h := hi.head_lt
  unfold State.headAddr State.windowAddr State.cap
  rw [splitOffset_eq_adv h hk]

theorem windowAddr_mod (hi : BufferInv s) {k : Nat} (hk : k < s.capacity.toNat) :
    s.windowAddr k = s.sAddr ((s.head.toNat + k) % s.capacity.toNat) := by
  have h := hi.head_lt
  unfold State.windowAddr State.cap
  rw [adv_eq_mod h (by omega)]

/-- Window positions have distinct addresses. -/
theorem windowAddr_inj (hi : BufferInv s) {i j : Nat} (hic : i < s.capacity.toNat) (hjc : j < s.capacity.toNat)
    (h : s.windowAddr i = s.windowAddr j) : i = j := by
  have h1 := hi.head_lt
  have hc := s.capacity.isLt
  have hi' : adv s.cap s.head.toNat i < s.cap := adv_lt h1 (by unfold State.cap; omega)
  have hj' : adv s.cap s.head.toNat j < s.cap := adv_lt h1 (by unfold State.cap; omega)
  unfold State.cap at hi' hj'
  exact adv_inj h1 hic hjc (sAddr_inj s (by omega) (by omega) h)

/-- Byte k of a write lands at window position LENGTH + k (10_state.md R20 INV5). -/
theorem tailAddr_window (hi : BufferInv s) {n k : Nat} (hn : s.length.toNat + n ≤ s.capacity.toNat - 1) (hk : k < n) :
    s.tailAddr n k = s.windowAddr (s.length.toNat + k) := by
  have := hi.capacity_ge
  rw [tailAddr_eq hi hn hk, windowAddr_mod hi (by omega), hi.tail_eq, Nat.mod_add_mod, Nat.add_assoc]

theorem tailByte_window (hi : BufferInv s) (hn : s.length.toNat < s.capacity.toNat - 1) :
    s.sAddr s.tail.toNat = s.windowAddr s.length.toNat := by
  have := tailAddr_window hi (n := 1) (k := 0) (by omega) (by omega)
  have h0 := tailAddr_eq hi (n := 1) (k := 0) (by omega) (by omega)
  rw [this, Nat.add_zero, Nat.add_zero, Nat.mod_eq_of_lt hi.tail_lt] at h0
  exact h0.symm

theorem windowAddr_inStorage (hi : BufferInv s) {k : Nat} (hk : k < s.capacity.toNat) : InStorage s (s.windowAddr k) :=
  ⟨_, adv_lt hi.head_lt (by unfold State.cap; omega), rfl⟩

theorem mem_blockInMoves {src : Word} {n : Nat} {v : Move} :
    v ∈ s.blockInMoves src n ↔ ∃ k < n, v = ⟨.mem (bufAddr src k), s.tailAddr n k⟩ := by
  simp [State.blockInMoves, eq_comm]

theorem mem_blockOutMoves {dst : Word} {n : Nat} {v : Move} :
    v ∈ s.blockOutMoves dst n ↔ ∃ k < n, v = ⟨.mem (s.headAddr n k), bufAddr dst k⟩ := by
  simp [State.blockOutMoves, eq_comm]

theorem mem_keywordMoves {w : Word} {n : Nat} {v : Move} :
    v ∈ s.keywordMoves w n ↔ ∃ k < n, v = ⟨.value (keywordByte w n k), s.tailAddr n k⟩ := by
  simp [State.keywordMoves, eq_comm]

/-- The destinations of a write's moves are distinct. -/
theorem tailAddr_nodup (hi : BufferInv s) {n : Nat} (hn : s.length.toNat + n ≤ s.capacity.toNat - 1) :
    ((List.range n).map (s.tailAddr n)).Nodup := by
  have := hi.capacity_ge
  refine List.Nodup.map_on ?_ List.nodup_range
  intro i hi' j hj' h
  rw [List.mem_range] at hi' hj'
  rw [tailAddr_window hi hn hi', tailAddr_window hi hn hj'] at h
  have := windowAddr_inj hi (by omega) (by omega) h
  omega

/-- The bytes of a block buffer have distinct addresses. -/
theorem bufAddr_inj {a : Word} {i j : Nat} (hi : i < 2 ^ 16) (hj : j < 2 ^ 16) (h : bufAddr a i = bufAddr a j) : i = j := by
  have h2 := congrArg BitVec.toNat h
  have := a.isLt
  simp only [bufAddr, BitVec.toNat_ofNat] at h2
  omega

theorem bufAddr_nodup (a : Word) {n : Nat} (hn : n < 2 ^ 16) : ((List.range n).map (bufAddr a)).Nodup := by
  refine List.Nodup.map_on ?_ List.nodup_range
  intro i hi j hj h
  rw [List.mem_range] at hi hj
  exact bufAddr_inj (by omega) (by omega) h

/-- After a write of n bytes: the registers, and INV1 to INV5 again (10_state.md R20). -/
theorem stored_inv (hi : BufferInv s) {n next : Nat} (hn : s.length.toNat + n ≤ s.capacity.toNat - 1)
    (hx : next = (s.tail.toNat + n) % s.capacity.toNat) :
    (s.stored n next).length.toNat = s.length.toNat + n ∧ (s.stored n next).tail.toNat = next ∧
      BufferInv (s.stored n next) := by
  have hc := hi.capacity_ge
  have hcl := s.capacity.isLt
  have hlt : next < s.capacity.toNat := hx ▸ Nat.mod_lt _ (by omega)
  have hl : (BitVec.ofNat 16 (s.length.toNat + n)).toNat = s.length.toNat + n := toNat_ofNat_half (by omega)
  have ht : (BitVec.ofNat 16 next).toNat = next := toNat_ofNat_half (by omega)
  refine ⟨hl, ht, ⟨hc, hi.head_lt, ?_, ?_, ?_⟩⟩
  · simp only [State.stored_tail, State.stored_capacity, ht]; exact hlt
  · simp only [State.stored_length, State.stored_capacity, hl]; exact hn
  · simp only [State.stored_length, State.stored_capacity, State.stored_tail, State.stored_head, hl, ht]
    rw [hx, hi.tail_eq, Nat.mod_add_mod, Nat.add_assoc]

/-- After a read of n bytes: the registers, and INV1 to INV5 again (10_state.md R20). -/
theorem consumed_inv (hi : BufferInv s) {n next : Nat} (hn : n ≤ s.length.toNat)
    (hx : next = (s.head.toNat + n) % s.capacity.toNat) :
    (s.consumed n next).length.toNat = s.length.toNat - n ∧ (s.consumed n next).head.toNat = next ∧
      BufferInv (s.consumed n next) := by
  have hc := hi.capacity_ge
  have hcl := s.capacity.isLt
  have hll := s.length.isLt
  have hle := hi.length_le
  have hlt : next < s.capacity.toNat := hx ▸ Nat.mod_lt _ (by omega)
  have hl : (BitVec.ofNat 16 (s.length.toNat - n)).toNat = s.length.toNat - n := toNat_ofNat_half (by omega)
  have ht : (BitVec.ofNat 16 next).toNat = next := toNat_ofNat_half (by omega)
  refine ⟨hl, ht, ⟨hc, ?_, hi.tail_lt, ?_, ?_⟩⟩
  · simp only [State.consumed_head, State.consumed_capacity, ht]; exact hlt
  · simp only [State.consumed_length, State.consumed_capacity, hl]; omega
  · simp only [State.consumed_length, State.consumed_capacity, State.consumed_tail, State.consumed_head, hl, ht]
    rw [hx, hi.tail_eq, Nat.mod_add_mod]
    congr 1; omega

/-- `BufferInv` looks at the index registers only. -/
theorem BufferInv.congr {t : State} (hi : BufferInv s) (h1 : t.head = s.head) (h2 : t.tail = s.tail)
    (h3 : t.length = s.length) (h4 : t.capacity = s.capacity) : BufferInv t := by
  obtain ⟨a, b, c, d, e⟩ := hi
  exact ⟨by rwa [h4], by rwa [h1, h4], by rwa [h2, h4], by rwa [h3, h4], by rwa [h1, h2, h3, h4]⟩

theorem nextIndex_mod {i n : Nat} (hic : i < s.capacity.toNat) (hn : n < s.capacity.toNat) :
    nextIndex s.cap i n = (i + n) % s.capacity.toNat := by
  unfold State.cap; rw [nextIndex_eq_adv hic hn, adv_eq_mod hic (by omega)]

theorem adv_mod {i n : Nat} (hic : i < s.capacity.toNat) (hn : n ≤ s.capacity.toNat) :
    adv s.cap i n = (i + n) % s.capacity.toNat := by
  unfold State.cap; rw [adv_eq_mod hic hn]

end

end Sys2Proof.Machine
end

