-- ==== Sys2Proof/Laws/Commands.lean ====
section
/-! SUPPORT. The successful path of each command as one equation, where the platform admits its accesses: the provers
cite these and do not unfold the meanings. -/

namespace Sys2Proof.Machine

/-- MEM after a list of moves where every access is admitted. -/
def movesApplied (vs : List Move) (m : Memory) : Memory := vs.foldl (fun m v => v.apply m) m

theorem movesApplied_wf (vs : List Move) {m : Memory} (hm : m.wf = true) : (movesApplied vs m).wf = true :=
  foldl_apply_wf vs hm

theorem accessesAdmitted_of_all {s : State} (h : AdmitsAll s.platform) (i : Instr) : AccessesAdmitted i s :=
  ⟨fun a _ => h a _, fun a _ => h a _⟩

@[simp] theorem ok_status (s : State) (d : Nat) : statusField (s.ok d).result = 0 := by
  rw [State.ok_result, statusField_eq_zero]

theorem fail_status {s : State} {st : Status} : statusField (s.fail st).result = 0 ↔ st = .ok := by
  rw [State.fail_result, statusField_eq_zero]

/-- The moves of a command that passes its checks are admitted where its accesses are. -/
theorem moves_admitted {i : Instr} {s : State} {c : Option Status} {vs : List Move}
    (hm : commandMoves i s = movesIfAdmitted s c vs)
    (hrd : commandReads i s = (commandMoves i s).filterMap Move.readAddr) (hb : s.bound = true) (hc : c = none)
    (ha : AccessesAdmitted i s) :
    (∀ v ∈ vs, admits s.platform v.dst .write = true) ∧
      (∀ v ∈ vs, ∀ a, v.src = .mem a → admits s.platform a .read = true) := by
  obtain ⟨h1, h2⟩ := ha
  subst hc
  rw [hrd] at h1
  simp only [commandWrites, hm, movesIfAdmitted, hb, Option.isNone_none, Bool.and_self, if_true] at h1 h2
  constructor
  · intro v hv; exact h2 _ (List.mem_map.mpr ⟨v, hv, rfl⟩)
  · intro v hv a h; exact h1 a (List.mem_filterMap.mpr ⟨v, hv, by simp [Move.readAddr, h]⟩)

section

variable {s : State} (hb : s.bound = true) (hi : BufferInv s)

include hb hi

theorem execWriteByte_admitted {b : Byte} (hl : s.length.toNat < s.capacity.toNat - 1)
    (ha : admits s.platform (s.sAddr s.tail.toNat) .write = true) :
    exec (.writeByte b) s = .next ((State.stored { s with mem := s.mem.write (s.sAddr s.tail.toNat).toNat b } 1
      ((s.tail.toNat + 1) % s.capacity.toNat)).ok 0) := by
  have hc : writeByteCheck s = none := by unfold writeByteCheck; rw [if_neg (by omega)]
  have hx := adv_mod hi.tail_lt (n := 1) (by omega)
  rw [exec_writeByte, execWriteByte, hc, whenBound_passed hb, afterMoves_admitted, hx]
  · rfl
  · simpa [State.byteMoves] using ha
  · simp [State.byteMoves]

theorem execReadByte_admitted (hl : 0 < s.length.toNat)
    (ha : admits s.platform (s.sAddr s.head.toNat) .read = true) :
    exec .readByte s = .next ((s.consumed 1 ((s.head.toNat + 1) % s.capacity.toNat)).ok
      (s.mem.read (s.sAddr s.head.toNat).toNat).toNat) := by
  have hc : readByteCheck s = none := by unfold readByteCheck; rw [if_neg (by omega)]
  have := hi.capacity_ge
  have hx := adv_mod hi.head_lt (n := 1) (by omega)
  rw [exec_readByte, execReadByte, hc, whenBound_passed hb, memRead, if_pos ha, hx]

theorem execWriteBlock_admitted {src : Word} {len : Half}
    (hl : s.length.toNat + len.toNat ≤ s.capacity.toNat - 1) (ha : AccessesAdmitted (.writeBlock src len) s) :
    exec (.writeBlock src len) s =
      .next ((State.stored { s with mem := movesApplied (s.blockInMoves src len.toNat) s.mem } len.toNat
        ((s.tail.toNat + len.toNat) % s.capacity.toNat)).ok 0) := by
  have hc : spaceCheck s len.toNat = none := spaceCheck_none.mpr hl
  obtain ⟨hw, hr⟩ := moves_admitted rfl rfl hb hc ha
  have := hi.capacity_ge
  have hx := nextIndex_mod hi.tail_lt (n := len.toNat) (by omega)
  rw [exec_writeBlock, execWriteBlock, hc, whenBound_passed hb, afterMoves_admitted _ hw hr, hx]; rfl

theorem execReadBlock_admitted {dst : Word} {len : Half} (hl : len.toNat ≤ s.length.toNat)
    (ha : AccessesAdmitted (.readBlock dst len) s) :
    exec (.readBlock dst len) s =
      .next ((State.consumed { s with mem := movesApplied (s.blockOutMoves dst len.toNat) s.mem } len.toNat
        ((s.head.toNat + len.toNat) % s.capacity.toNat)).ok 0) := by
  have hc : dataCheck s len.toNat = none := dataCheck_none.mpr hl
  obtain ⟨hw, hr⟩ := moves_admitted rfl rfl hb hc ha
  have := hi.capacity_ge
  have := hi.length_le
  have hx := nextIndex_mod hi.head_lt (n := len.toNat) (by omega)
  rw [exec_readBlock, execReadBlock, hc, whenBound_passed hb, afterMoves_admitted _ hw hr, hx]; rfl

theorem execDelete_passed {len : Half} (hl : len.toNat ≤ s.length.toNat) :
    exec (.delete len) s =
      .next ((s.consumed len.toNat ((s.head.toNat + len.toNat) % s.capacity.toNat)).ok 0) := by
  have hc : dataCheck s len.toNat = none := dataCheck_none.mpr hl
  have := hi.capacity_ge
  have := hi.length_le
  have hx := adv_mod hi.head_lt (n := len.toNat) (by omega)
  rw [exec_delete, execDelete, hc, whenBound_passed hb, hx]

theorem execInsertKeyword_admitted {v : Word} {klen : BitVec 3} (h1 : 1 ≤ klen.toNat) (h4 : klen.toNat ≤ 4)
    (hl : s.length.toNat + klen.toNat ≤ s.capacity.toNat - 1) (ha : AccessesAdmitted (.insertKeyword v klen) s) :
    exec (.insertKeyword v klen) s =
      .next ((State.stored { s with mem := movesApplied (s.keywordMoves v klen.toNat) s.mem } klen.toNat
        ((s.tail.toNat + klen.toNat) % s.capacity.toNat)).ok 0) := by
  have hc : insertKeywordCheck s klen.toNat = none := insertKeywordCheck_none.mpr ⟨⟨h1, h4⟩, hl⟩
  obtain ⟨hw, hr⟩ := moves_admitted rfl rfl hb hc ha
  have := hi.capacity_ge
  have hx := nextIndex_mod hi.tail_lt (n := klen.toNat) (by omega)
  rw [exec_insertKeyword, execInsertKeyword, hc, whenBound_passed hb, afterMoves_admitted _ hw hr, hx]; rfl

/-- A search that reads admitted addresses ends with the first match or with NotFound (44_keyword.md R127, R128). -/
theorem execFindKeyword_admitted {v : Word} {klen : BitVec 3} (h1 : 1 ≤ klen.toNat) (h4 : klen.toNat ≤ 4)
    (hl : klen.toNat ≤ s.length.toNat) (ha : AccessesAdmitted (.findKeyword v klen) s) :
    (∃ i, FirstMatch s v klen.toNat i ∧ exec (.findKeyword v klen) s = .next (s.ok (i + klen.toNat))) ∨
      ((∀ i, i + klen.toNat ≤ s.length.toNat → s.windowWord i klen.toNat ≠ v) ∧
        exec (.findKeyword v klen) s = .next (s.fail .notFound)) := by
  have hc : findKeywordCheck s klen.toNat = none := findKeywordCheck_none.mpr ⟨⟨h1, h4⟩, hl⟩
  have hr : ∀ j < s.length.toNat, admits s.platform (s.windowAddr j) .read = true := by
    intro j hj
    apply ha.reads
    simp only [commandReads, hb, hc, Option.isNone_none, Bool.and_self, if_true]
    exact List.mem_map.mpr ⟨j, List.mem_range.mpr hj, rfl⟩
  rw [exec_findKeyword, execFindKeyword, hc, whenBound_passed hb]
  rcases scan_window hi (v := v) h1 h4 hr (s.length.toNat - klen.toNat + 1) (i := 0) (by omega) with
    ⟨j, a1, a2, a3, a4, a5⟩ | ⟨a1, a2⟩
  · left; exact ⟨j, ⟨by omega, a4, fun l hl => a5 l (by omega) hl⟩, by rw [a3]⟩
  · right; exact ⟨fun l hl => a2 l (by omega) (by omega), by rw [a1]⟩

end

/-- The MEM a write's moves leave, in storage offsets (42_block.md R92, 20_memory.md R39). -/
theorem blockIn_applied {s : State} (hi : BufferInv s) (src : Word) {n : Nat}
    (hn : s.length.toNat + n ≤ s.capacity.toNat - 1) (m : Memory) :
    movesApplied (s.blockInMoves src n) m = (List.range n).foldl
      (fun m k => m.write (s.sAddr ((s.tail.toNat + k) % s.capacity.toNat)).toNat (m.read (bufAddr src k).toNat)) m := by
  unfold movesApplied State.blockInMoves
  rw [List.foldl_map]
  apply List.foldl_ext
  intro m k hk
  rw [List.mem_range] at hk
  simp only [Move.apply, Source.byteIn, tailAddr_eq hi hn hk]

/-- The MEM a read's moves leave, in storage offsets (42_block.md R98, 20_memory.md R39). -/
theorem blockOut_applied {s : State} (hi : BufferInv s) (dst : Word) {n : Nat} (hn : n ≤ s.length.toNat) (m : Memory) :
    movesApplied (s.blockOutMoves dst n) m = (List.range n).foldl
      (fun m k => m.write (bufAddr dst k).toNat (m.read (s.sAddr ((s.head.toNat + k) % s.capacity.toNat)).toNat)) m := by
  unfold movesApplied State.blockOutMoves
  rw [List.foldl_map]
  apply List.foldl_ext
  intro m k hk
  rw [List.mem_range] at hk
  have := hi.length_le
  have := hi.capacity_ge
  simp only [Move.apply, Source.byteIn, headAddr_eq hi hk, windowAddr_mod hi (k := k) (by omega)]

/-- Byte j of a keyword as a number (44_keyword.md R122). -/
theorem keywordByte_toNat (v : Word) (k j : Nat) :
    (keywordByte v k j).toNat = v.toNat / 2 ^ (8 * (k - 1 - j)) % 2 ^ 8 := by
  simp [keywordByte, Nat.shiftRight_eq_div_pow]

end Sys2Proof.Machine
end

