-- ==== Sys2Proof/Laws/OpcodeMap.lean ====
section
/-! SUPPORT. What a row of the opcode map tests, in fields: the masks of 30_encoding.md R54 against R53. -/

namespace Sys2Proof

/-- Two words are equal when their fields are. -/
theorem word_eq_iff_fields {w u : CmdWord} :
    w = u ↔ valField w = valField u ∧ lenField w = lenField u ∧ rsvField w = rsvField u ∧
      klenField w = klenField u ∧ opcField w = opcField u :=
  ⟨fun h => by subst h; simp, fun ⟨a, b, c, d, e⟩ => word_eq_of_fields a b c d e⟩

theorem valField_and (w m : CmdWord) : valField (w &&& m) = valField w &&& valField m := BitVec.extractLsb'_and
theorem lenField_and (w m : CmdWord) : lenField (w &&& m) = lenField w &&& lenField m := BitVec.extractLsb'_and
theorem rsvField_and (w m : CmdWord) : rsvField (w &&& m) = rsvField w &&& rsvField m := BitVec.extractLsb'_and
theorem klenField_and (w m : CmdWord) : klenField (w &&& m) = klenField w &&& klenField m := BitVec.extractLsb'_and
theorem opcField_and (w m : CmdWord) : opcField (w &&& m) = opcField w &&& opcField m := BitVec.extractLsb'_and

/-- A row selects a word when each field, masked, is the field of its pattern. -/
theorem selects_iff (r : OpcodeRow) (w : CmdWord) :
    r.selects w = true ↔
      valField w &&& valField r.mask = valField r.pattern ∧ lenField w &&& lenField r.mask = lenField r.pattern ∧
      rsvField w &&& rsvField r.mask = rsvField r.pattern ∧ klenField w &&& klenField r.mask = klenField r.pattern ∧
      opcField w &&& opcField r.mask = opcField r.pattern := by
  rw [OpcodeRow.selects, beq_iff_eq, word_eq_iff_fields, valField_and, lenField_and, rsvField_and, klenField_and,
    opcField_and]

/-- VAL with its low byte masked off is zero when bits 63:40 are. -/
theorem valField_high_mask (w : CmdWord) : valField w &&& (0xFFFFFF00 : Word) = 0 ↔ valHighField w = 0 := by
  rw [← BitVec.toNat_inj, ← BitVec.toNat_inj, valHighField_toNat]
  have : (valField w &&& (0xFFFFFF00 : Word)) = (valField w >>> 8) <<< 8 := by
    apply BitVec.eq_of_getLsbD_eq
    intro i hi
    interval_cases i <;> simp
  rw [this]
  have := (valField w).isLt
  simp [Nat.shiftRight_eq_div_pow, Nat.shiftLeft_eq]
  omega

end Sys2Proof
end

