-- ==== Sys2Proof/Laws/PerInstr.lean ====
section
/-! SUPPORT. Facts about every command's encoding, one lemma per command. -/

namespace Sys2Proof.Laws.EncodedFields

/-- A command's word has RSV zero and its opcode in OPC (30_encoding.md R51, R53, R54). -/
def Statement (i : Instr) : Prop := rsvField (encode i) = 0 ∧ opcField (encode i) = i.opcode

theorem init (base : Word) (cap : Half) : Statement (.init base cap) := by simp [Statement, encode]
theorem writeByte (b : Byte) : Statement (.writeByte b) := by simp [Statement, encode]
theorem readByte : Statement .readByte := by simp [Statement, encode]
theorem writeBlock (src : Word) (len : Half) : Statement (.writeBlock src len) := by simp [Statement, encode]
theorem readBlock (dst : Word) (len : Half) : Statement (.readBlock dst len) := by simp [Statement, encode]
theorem delete (len : Half) : Statement (.delete len) := by simp [Statement, encode]
theorem insertKeyword (v : Word) (klen : BitVec 3) : Statement (.insertKeyword v klen) := by simp [Statement, encode]
theorem findKeyword (v : Word) (klen : BitVec 3) : Statement (.findKeyword v klen) := by simp [Statement, encode]
theorem getLen : Statement .getLen := by simp [Statement, encode]
theorem getFree : Statement .getFree := by simp [Statement, encode]

end Sys2Proof.Laws.EncodedFields
end

