-- ==== Sys2Proof/Laws/Window.lean ====
section
/-! SUPPORT. What a transfer's moves do to the bytes of the valid window, and the window after a write or a read. -/

namespace Sys2Proof.Machine

section

variable {s : State}

@[simp] theorem window_length (s : State) : s.window.length = s.length.toNat := by simp [State.window]

theorem window_getElem? {k : Nat} (h : k < s.length.toNat) : s.window[k]? = some (s.windowByte k) := by
  simp [State.window, h]

theorem blockInMoves_nodup (hi : BufferInv s) (src : Word) {n : Nat}
    (hn : s.length.toNat + n ≤ s.capacity.toNat - 1) : ((s.blockInMoves src n).map Move.dst).Nodup := by
  simpa [State.blockInMoves, List.map_map, Function.comp_def] using tailAddr_nodup hi hn

theorem keywordMoves_nodup (hi : BufferInv s) (v : Word) {n : Nat}
    (hn : s.length.toNat + n ≤ s.capacity.toNat - 1) : ((s.keywordMoves v n).map Move.dst).Nodup := by
  simpa [State.keywordMoves, List.map_map, Function.comp_def] using tailAddr_nodup hi hn

/-- After a write that left the old window bytes and stored `f k` at window position LENGTH + k, the window is the old
one and then those bytes (42_block.md R95). -/
theorem window_stored {t : State} {m : Memory} (hi : BufferInv s) {n next : Nat}
    (hn : s.length.toNat + n ≤ s.capacity.toNat - 1) (f : Nat → Byte)
    (ht : t = (State.stored { s with mem := m } n next).ok 0)
    (hold : ∀ k < s.length.toNat, m.read (s.windowAddr k).toNat = s.mem.read (s.windowAddr k).toNat)
    (hnew : ∀ k < n, m.read (s.windowAddr (s.length.toNat + k)).toNat = f k) :
    t.window = s.window ++ (List.range n).map f := by
  have hc := hi.capacity_ge
  have hcl := s.capacity.isLt
  have hl : t.length.toNat = s.length.toNat + n := by
    subst ht; exact toNat_ofNat_half (by change s.length.toNat + n < _; omega)
  have hw : ∀ k, t.windowByte k = m.read (s.windowAddr k).toNat := by intro k; subst ht; rfl
  unfold State.window
  rw [hl]
  apply List.ext_getElem
  · simp
  · intro k h1 h2
    simp only [List.getElem_map, List.getElem_range, hw]
    by_cases hk : k < s.length.toNat
    · rw [List.getElem_append_left (by simpa using hk)]
      simp only [List.getElem_map, List.getElem_range]
      exact hold k hk
    · rw [List.getElem_append_right (by simpa using hk)]
      simp only [List.getElem_map, List.getElem_range, List.length_map, List.length_range]
      simp at h1
      have := hnew (k - s.length.toNat) (by omega)
      rw [← this]
      congr 3; omega

/-- After a read that left the window's bytes, the window is the old one without its first `n` bytes. -/
theorem window_consumed {t : State} {m : Memory} (hi : BufferInv s) {n : Nat} (hn : n ≤ s.length.toNat) {d : Nat}
    (ht : t = (State.consumed { s with mem := m } n ((s.head.toNat + n) % s.capacity.toNat)).ok d)
    (hold : ∀ k < s.length.toNat, m.read (s.windowAddr k).toNat = s.mem.read (s.windowAddr k).toNat) :
    t.window = s.window.drop n := by
  have hc := hi.capacity_ge
  have hle := hi.length_le
  obtain ⟨k1, k2, k3⟩ := consumed_inv (s := { s with mem := m }) (hi.congr rfl rfl rfl rfl) hn rfl
  have hl : t.length.toNat = s.length.toNat - n := by subst ht; exact k1
  have hw : ∀ k, k + n < s.length.toNat → t.windowByte k = m.read (s.windowAddr (n + k)).toNat := by
    intro k hk
    have : t.windowAddr k = s.windowAddr (n + k) := by
      have hti : BufferInv t := by subst ht; exact k3.congr rfl rfl rfl rfl
      have hh : t.head.toNat = (s.head.toNat + n) % s.capacity.toNat := by subst ht; exact k2
      have hcap : t.capacity = s.capacity := by subst ht; rfl
      have hbase : ∀ o, t.sAddr o = s.sAddr o := by intro o; subst ht; rfl
      rw [windowAddr_mod hti (by rw [hcap]; omega), windowAddr_mod hi (by omega), hbase, hh, hcap, Nat.mod_add_mod,
        Nat.add_assoc]
    unfold State.windowByte
    rw [this]; subst ht; rfl
  unfold State.window
  rw [hl]
  apply List.ext_getElem
  · simp
  · intro k h1 h2
    simp only [List.length_map, List.length_range] at h1
    simp only [List.getElem_map, List.getElem_range, List.getElem_drop]
    rw [hw k (by omega), hold _ (by omega)]; rfl

/-- WRITE_BLOCK's moves leave the bytes of the window. -/
theorem blockIn_old (hm : s.mem.wf = true) (hi : BufferInv s) (src : Word) {n : Nat}
    (hn : s.length.toNat + n ≤ s.capacity.toNat - 1) {k : Nat} (hk : k < s.length.toNat) :
    (movesApplied (s.blockInMoves src n) s.mem).read (s.windowAddr k).toNat = s.mem.read (s.windowAddr k).toNat := by
  have hc := hi.capacity_ge
  apply foldl_apply_frame _ hm
  intro v hv
  obtain ⟨j, hj, rfl⟩ := mem_blockInMoves.mp hv
  intro h
  rw [tailAddr_window hi hn hj] at h
  have := windowAddr_inj hi (by omega) (by omega) h
  omega

/-- From a source buffer outside the storage region, WRITE_BLOCK's moves store its bytes after the window. -/
theorem blockIn_new (hm : s.mem.wf = true) (hi : BufferInv s) (src : Word) {n : Nat}
    (hn : s.length.toNat + n ≤ s.capacity.toNat - 1) (ho : BufferOutsideStorage s src n) {k : Nat} (hk : k < n) :
    (movesApplied (s.blockInMoves src n) s.mem).read (s.windowAddr (s.length.toNat + k)).toNat = s.bufferByte src k := by
  have hc := hi.capacity_ge
  have := foldl_apply_read (s.blockInMoves src n) hm (blockInMoves_nodup hi src hn) ?_
    (mem_blockInMoves.mpr ⟨k, hk, rfl⟩)
  · rw [← tailAddr_window hi hn hk]; exact this
  · intro v hv w hw h
    obtain ⟨j, hj, rfl⟩ := mem_blockInMoves.mp hv
    obtain ⟨l, hl, rfl⟩ := mem_blockInMoves.mp hw
    simp only [Source.mem.injEq] at h
    rw [tailAddr_window hi hn hl] at h
    exact ho j hj (h ▸ windowAddr_inStorage hi (by omega))

/-- INSERT_KEYWORD's moves leave the bytes of the window. -/
theorem keyword_old (hm : s.mem.wf = true) (hi : BufferInv s) (v : Word) {n : Nat}
    (hn : s.length.toNat + n ≤ s.capacity.toNat - 1) {k : Nat} (hk : k < s.length.toNat) :
    (movesApplied (s.keywordMoves v n) s.mem).read (s.windowAddr k).toNat = s.mem.read (s.windowAddr k).toNat := by
  have hc := hi.capacity_ge
  apply foldl_apply_frame _ hm
  intro u hu
  obtain ⟨j, hj, rfl⟩ := mem_keywordMoves.mp hu
  intro h
  rw [tailAddr_window hi hn hj] at h
  have := windowAddr_inj hi (by omega) (by omega) h
  omega

/-- INSERT_KEYWORD's moves store the keyword's bytes after the window. -/
theorem keyword_new (hm : s.mem.wf = true) (hi : BufferInv s) (v : Word) {n : Nat}
    (hn : s.length.toNat + n ≤ s.capacity.toNat - 1) {k : Nat} (hk : k < n) :
    (movesApplied (s.keywordMoves v n) s.mem).read (s.windowAddr (s.length.toNat + k)).toNat = keywordByte v n k := by
  have hc := hi.capacity_ge
  have := foldl_apply_read (s.keywordMoves v n) hm (keywordMoves_nodup hi v hn) ?_
    (mem_keywordMoves.mpr ⟨k, hk, rfl⟩)
  · rw [← tailAddr_window hi hn hk]; exact this
  · intro u hu w hw h
    obtain ⟨j, hj, rfl⟩ := mem_keywordMoves.mp hu
    cases h

/-- READ_BLOCK's moves to a destination outside the storage region leave the storage region. -/
theorem blockOut_old (hm : s.mem.wf = true) (dst : Word) {n : Nat} (ho : BufferOutsideStorage s dst n) {a : Word}
    (ha : InStorage s a) : (movesApplied (s.blockOutMoves dst n) s.mem).read a.toNat = s.mem.read a.toNat := by
  apply foldl_apply_frame _ hm
  intro v hv
  obtain ⟨j, hj, rfl⟩ := mem_blockOutMoves.mp hv
  intro h
  subst h; exact ho j hj ha

/-- READ_BLOCK's moves to a destination outside the storage region deliver the window's bytes in order. -/
theorem blockOut_new (hm : s.mem.wf = true) (hi : BufferInv s) (dst : Word) {n : Nat} (hn : n ≤ s.length.toNat)
    (ho : BufferOutsideStorage s dst n) {k : Nat} (hk : k < n) :
    (movesApplied (s.blockOutMoves dst n) s.mem).read (bufAddr dst k).toNat = s.windowByte k := by
  have hle := hi.length_le
  have hc := hi.capacity_ge
  have hll := s.length.isLt
  have := foldl_apply_read (s.blockOutMoves dst n) hm ?_ ?_ (mem_blockOutMoves.mpr ⟨k, hk, rfl⟩)
  · refine Eq.trans this ?_; simp only [Source.byteIn, headAddr_eq hi hk]; rfl
  · simpa [State.blockOutMoves, List.map_map, Function.comp_def] using bufAddr_nodup dst (n := n) (by omega)
  · intro v hv w hw h
    obtain ⟨j, hj, rfl⟩ := mem_blockOutMoves.mp hv
    obtain ⟨l, hl, rfl⟩ := mem_blockOutMoves.mp hw
    simp only [Source.mem.injEq] at h
    rw [headAddr_eq hi hj] at h
    exact ho l hl (h ▸ windowAddr_inStorage hi (by omega))

end

end Sys2Proof.Machine
end

