-- ==== Sys2Proof/Tests/Slice0.lean ====
section
/-! SUPPORT. Tests of the model: words and vectors of spec/95_test_vectors.md (their ids stand before the tests), and for
every statement with hypotheses a concrete state and operands that meet them. -/

namespace Sys2Proof.Tests

open Sys2Proof Sys2Proof.Machine

/-! ### Helpers -/

/-- The bytes listed from an address on. -/
def stores (a : Nat) : List Byte → Memory → Memory
  | [], m => m
  | b :: bs, m => stores (a + 1) bs (m.write a b)

/-- The `n` bytes from an address on. -/
def loads (m : Memory) (a n : Nat) : List Byte := (List.range n).map fun k => m.read (a + k)

/-- A bound engine with BASE = 0x100 (the conventions of 95_test_vectors.md). -/
def boundAt (cap head tail len : Half) (m : Memory) : State :=
  { State.reset with base := 0x100, bound := true, capacity := cap, head := head, tail := tail, length := len, mem := m }

/-- The next step of the issued word ends with this RESULT, HEAD, TAIL and LENGTH, with BUSY = 0. -/
def reports (w : CmdWord) (s : State) (r : Word) (head tail len : Half) : Bool :=
  match step (s.withIssued w) with
  | .next t => t.result == r && t.head == head && t.tail == tail && t.length == len && !t.busy
  | .fault _ => false
  | .refused _ => false

/-- The `n` bytes from an address on after the issued word. -/
def leaves (w : CmdWord) (s : State) (a n : Nat) (bs : List Byte) : Bool :=
  match step (s.withIssued w) with
  | .next t => loads t.mem a n == bs
  | .fault _ => false
  | .refused _ => false

/-- A property of the state after an outcome that goes on. -/
def andThen (o : Host.Outcome State Fault Refusal) (p : State → Bool) : Bool :=
  match o with
  | .next t => p t
  | .fault _ => false
  | .refused _ => false

/-- The word is rejected for this reason. -/
def rejects (w : CmdWord) (e : Illegal) : Bool :=
  match decode w with
  | .ok _ => false
  | .error r => r == e

/-! ### Well-formedness: each check refuses (30_encoding.md R59) -/

theorem test_wf_init_base : (SourceCmd.init (2 ^ 32) 8).wellFormed = false := by decide
theorem test_wf_init_cap : (SourceCmd.init 0 65536).wellFormed = false := by decide
theorem test_wf_flush_base : (SourceCmd.flush (2 ^ 32) 8).wellFormed = false := by decide
theorem test_wf_flush_cap : (SourceCmd.flush 0 65536).wellFormed = false := by decide
theorem test_wf_write_byte : (SourceCmd.writeByte 256).wellFormed = false := by decide
theorem test_wf_write_block_src : (SourceCmd.writeBlock (2 ^ 32) 1).wellFormed = false := by decide
theorem test_wf_write_block_len : (SourceCmd.writeBlock 0 65536).wellFormed = false := by decide
theorem test_wf_read_block_dst : (SourceCmd.readBlock (2 ^ 32) 1).wellFormed = false := by decide
theorem test_wf_read_block_len : (SourceCmd.readBlock 0 65536).wellFormed = false := by decide
theorem test_wf_delete : (SourceCmd.delete 65536).wellFormed = false := by decide
theorem test_wf_insert_value : (SourceCmd.insertKeyword (2 ^ 32) 1).wellFormed = false := by decide
theorem test_wf_insert_klen : (SourceCmd.insertKeyword 0 8).wellFormed = false := by decide
theorem test_wf_find_value : (SourceCmd.findKeyword (2 ^ 32) 1).wellFormed = false := by decide
theorem test_wf_find_klen : (SourceCmd.findKeyword 0 8).wellFormed = false := by decide
/-- The largest operands of the fields are accepted, and an INIT of capacity 0 is a command (30_encoding.md R59). -/
theorem test_wf_accepts :
    (SourceCmd.init (2 ^ 32 - 1) 65535).wellFormed = true ∧ (SourceCmd.findKeyword 0 7).wellFormed = true ∧
    (SourceCmd.init 0 0).toInstr = some (.init 0 0) := by decide

/-! ### Decoding: a word of every command, bit by bit from 30_encoding.md R51 and R54 -/

/-- V-I1 -/
theorem test_decode_init : decodeTableWord 64 0x0000200001000001 = some (.init 0x2000 256) := by decide
/-- V-B1 -/
theorem test_decode_write_byte : decodeTableWord 64 0x0000004100000002 = some (.writeByte 0x41) := by decide
/-- V-B5 -/
theorem test_decode_read_byte : decodeTableWord 64 0x0000000000000003 = some .readByte := by decide
/-- V-K3 -/
theorem test_decode_write_block : decodeTableWord 64 0x0000300000060004 = some (.writeBlock 0x3000 6) := by decide
/-- V-K11 -/
theorem test_decode_read_block : decodeTableWord 64 0x0000400000060005 = some (.readBlock 0x4000 6) := by decide
/-- V-D1 -/
theorem test_decode_delete : decodeTableWord 64 0x0000000000020006 = some (.delete 2) := by decide
/-- V-N1 -/
theorem test_decode_insert_keyword : decodeTableWord 64 0x00000D0A00000027 = some (.insertKeyword 0x0D0A 2) := by decide
/-- 30_encoding.md R61 -/
theorem test_decode_find_keyword : decode 0xCCFB22AA00000048 = .ok (.findKeyword 0xCCFB22AA 4) := by rfl
/-- V-G1 -/
theorem test_decode_get_len : decodeTableWord 64 0x0000000000000009 = some .getLen := by decide
/-- V-G2 -/
theorem test_decode_get_free : decodeTableWord 64 0x000000000000000A = some .getFree := by decide
/-- The halves of the worked encoding (30_encoding.md R61). -/
theorem test_halves : loHalf 0xCCFB22AA00000048 = 0x00000048 ∧ hiHalf 0xCCFB22AA00000048 = 0xCCFB22AA := by decide
theorem test_encode_find_keyword : encode (.findKeyword 0xCCFB22AA 4) = 0xCCFB22AA00000048 := by decide

/-- V-X1 -/
theorem test_reject_zero_word : rejects 0x0000000000000000 .zeroOpcode = true := by decide
/-- V-X2, V-X3 -/
theorem test_reject_reserved_opcodes :
    rejects 0x000000000000000B .reservedOpcode = true ∧ rejects 0xFFFFFFFFFFFFFFFF .reservedOpcode = true := by decide
/-- V-X4, V-X5, V-X10, V-I9, V-B9, V-B12, V-K17, V-D7, V-N12, V-F14, V-G9: a bit in a field the opcode does not use -/
theorem test_reject_unused_fields :
    ([0x0000000000000089, 0x0000010000088001, 0x0000000100090006, 0x0000200001000011, 0x0000014100000002,
      0x0000000000010003, 0x0000300000010024, 0x0000000100010006, 0x0000004100040017, 0x0000010200010028,
      0x0000000100000009] : List CmdWord).all (fun w => rejects w .unusedFieldNotZero) = true := by decide

/-! ### Commands: vectors of 95_test_vectors.md -/

/-- V-I1: the worked example of 40_init.md R71. -/
theorem test_init : andThen (step (State.reset.withFetchWord 64 0x0000200001000001)) (fun t =>
    decide (t = { State.reset with base := 0x2000, capacity := 256, bound := true, cmdLo := 0x01000001
                                   cmdHi := 0x2000 })) = true := by decide
/-- V-I6: a failed INIT keeps the old binding. -/
theorem test_init_fails : andThen (step ((boundAt 8 2 5 3 []).withIssued 0x0000900000010001)) (fun t =>
    t.result == 1 && t.base == 0x100 && t.capacity == 8 && t.head == 2 && t.tail == 5 && t.length == 3) = true := by
  decide
/-- V-B1: the byte lands at offset 7 and TAIL wraps. -/
theorem test_write_byte : reports 0x0000004100000002 (boundAt 8 5 7 2 []) 0 5 0 3 = true ∧
    leaves 0x0000004100000002 (boundAt 8 5 7 2 []) 0x100 8 [0, 0, 0, 0, 0, 0, 0, 0x41] = true := by decide
/-- V-B4 -/
theorem test_write_byte_full : reports 0x0000002200000002 (boundAt 2 1 0 1 []) 2 1 0 1 = true := by decide
/-- V-B5: HEAD wraps. -/
theorem test_read_byte : reports 0x0000000000000003 (boundAt 8 7 2 3 [(0x107, 0x5A)]) 0x5A00 0 2 2 = true := by decide
/-- V-B6 -/
theorem test_read_byte_empty : reports 0x0000000000000003 (boundAt 8 4 4 0 []) 7 4 4 0 = true := by decide
/-- V-K3: a split write. -/
theorem test_write_block_split :
    reports 0x0000300000060004 (boundAt 8 5 5 0 (stores 0x3000 [0x61, 0x62, 0x63, 0x64, 0x65, 0x66] [])) 0 5 3 6 = true ∧
    leaves 0x0000300000060004 (boundAt 8 5 5 0 (stores 0x3000 [0x61, 0x62, 0x63, 0x64, 0x65, 0x66] [])) 0x100 8
      [0x64, 0x65, 0x66, 0, 0, 0x61, 0x62, 0x63] = true := by decide
/-- V-K9: the source overlaps the storage region, and the copy goes forward. -/
theorem test_write_block_overlap :
    leaves 0x0000010000030004 (boundAt 8 1 1 0 (stores 0x100 [0x22, 0x33, 0x44] [])) 0x100 8
      [0x22, 0x22, 0x22, 0x22, 0, 0, 0, 0] = true := by decide
/-- V-K15: a split read of a full buffer. -/
theorem test_read_block_split :
    reports 0x0000400000070005 (boundAt 8 6 5 7 (stores 0x100 [3, 4, 5, 6, 7, 0, 1, 2] [])) 0 5 5 0 = true ∧
    leaves 0x0000400000070005 (boundAt 8 6 5 7 (stores 0x100 [3, 4, 5, 6, 7, 0, 1, 2] [])) 0x4000 7
      [1, 2, 3, 4, 5, 6, 7] = true := by decide
/-- V-K18: the destination overlaps the storage region. -/
theorem test_read_block_overlap :
    leaves 0x0000010400020005 (boundAt 8 2 6 4 (stores 0x102 [0x0A, 0x0B, 0x0C, 0x0D] [])) 0x100 8
      [0, 0, 0x0A, 0x0B, 0x0A, 0x0B, 0, 0] = true := by decide
/-- V-D1: HEAD wraps. -/
theorem test_delete : reports 0x0000000000020006 (boundAt 8 7 1 2 []) 0 1 1 0 = true := by decide
/-- V-D3 -/
theorem test_delete_too_much : reports 0x0000000000040006 (boundAt 8 5 0 3 []) 4 5 0 3 = true := by decide
/-- V-N11: a split keyword, most significant byte first. -/
theorem test_insert_keyword : reports 0x0102030400000047 (boundAt 8 5 5 0 []) 0 5 1 4 = true ∧
    leaves 0x0102030400000047 (boundAt 8 5 5 0 []) 0x100 8 [4, 0, 0, 0, 0, 1, 2, 3] = true := by decide
/-- V-N10: the length check comes before the space check. -/
theorem test_insert_keyword_length_first : reports 0x0000004100000077 (boundAt 8 0 7 7 []) 6 0 7 7 = true := by decide
/-- V-F1: a match across the wrap. -/
theorem test_find_keyword :
    reports 0x00000D0A00000028 (boundAt 8 6 1 3 (stores 0x100 [0x0A, 0, 0, 0, 0, 0, 0x41, 0x0D] [])) 0x300 6 1 3 = true := by
  decide
/-- V-F4 and V-F8: the high-byte filter alone is no match; the value is not masked. -/
theorem test_find_keyword_full_compare :
    reports 0x00000D0A00000028 (boundAt 8 0 4 4 (stores 0x100 [0x0D, 0x0B, 0x0D, 0x0A] [])) 0x400 0 4 4 = true ∧
    reports 0x1234567800000028 (boundAt 8 0 2 2 (stores 0x100 [0x56, 0x78] [])) 5 0 2 2 = true := by decide
/-- V-G1, V-G7 -/
theorem test_get_len : reports 0x0000000000000009 (boundAt 256 0 13 13 []) 0xD00 0 13 13 = true ∧
    reports 0x0000000000000009 State.reset 8 0 0 0 = true := by decide
/-- V-G2, V-G4 -/
theorem test_get_free : reports 0x000000000000000A (boundAt 256 0 30 30 []) 0xE100 0 30 30 = true ∧
    reports 0x000000000000000A (boundAt 65535 0 0 0 []) 0xFFFE00 0 0 0 = true := by decide
/-- V-X6, V-X7: legality before binding, binding before the keyword length. -/
theorem test_check_order : reports 0x000000000000000B State.reset 9 0 0 0 = true ∧
    reports 0x0000004100000008 State.reset 8 0 0 0 = true := by decide
/-- V-I5, V-K10: storage and block buffers wrap mod 2^32 (20_memory.md R32, R33). -/
theorem test_addresses_wrap :
    ({ State.reset with base := 0xFFFFFFF0 } : State).sAddr 0x10 = 0 ∧ bufAddr 0xFFFFFFFF 1 = 0 := by decide

/-! ### The host interface -/

/-- The register block: a read of STATUS while idle and bound returns 2 (60_exceptions.md R171). -/
theorem test_status_read : andThen (step { boundAt 8 0 0 0 [] with hostQueue := [.regLoad 0x0C .word] })
    (fun t => t.readData == some 2) = true := by decide
/-- The three accesses of one command: INIT 0x2000, 256 is issued and its RESULT read (60_exceptions.md R172, R173). -/
theorem test_issue_sequence :
    andThen (Sys2Proof.core.run 4 { State.reset with hostQueue := issueSequence defaultPlatform 0x0000200001000001 })
      (fun t => t.readData == some 0 && t.bound && t.capacity == 256 && !t.busy && t.hostQueue.isEmpty) = true := by decide
/-- The same with a word that fails: GET_LEN on the reset state (V-R2). -/
theorem test_issue_sequence_status :
    andThen (Sys2Proof.core.run 4 { State.reset with hostQueue := issueSequence defaultPlatform 9 })
      (fun t => t.readData == some 8) = true := by decide
/-- A write of CMD_LO alone issues nothing (60_exceptions.md R172). -/
theorem test_cmd_lo_does_not_issue : andThen (step { State.reset with hostQueue := [.regStore 0 .word 9] })
    (fun t => t.cmdLo == 9 && !t.busy) = true := by decide
/-- A half-word access is refused (60_exceptions.md R171). -/
theorem test_half_access_refused :
    step { State.reset with hostQueue := [.regLoad 8 .half] } = .refused (.registerAccess 8 .half) := by rfl
/-- V-R1, and a CMD_HI write that coincides is lost (70_reset_and_hazards.md R183). -/
theorem test_reset : step { boundAt 8 2 5 3 [(5, 1)] with hostQueue := [.reset (some 1)], result := 4, cmdLo := 3 } =
    .next { State.reset with mem := [(5, 1)] } := by rfl
/-- A host store to the storage region while a WRITE_BYTE to it runs is a race (70_reset_and_hazards.md R191). -/
theorem test_race_refused :
    step { boundAt 8 0 0 0 [] with cmdLo := 2, busy := true, hostQueue := [.memStore 0x100 7] } =
      .refused (.hostRace 0x100) := by rfl
/-- A command whose store is not admitted, with a host access pending. -/
def stuckRunning (a : HostAction) : State :=
  { boundAt 8 0 0 0 [] with platform := ⟨0, false, [⟨0x100, 1, .write⟩]⟩, cmdLo := 2, busy := true, hostQueue := [a] }
/-- A STATUS read beside a stuck command returns BUSY = 1 and BOUND = 1, whatever the free order (20_memory.md R36,
60_exceptions.md R173). -/
theorem test_stuck_status_read : andThen (step (stuckRunning (.regLoad 0x0C .word)))
    (fun t => t.readData == some 3 && t.busy && t.hostQueue.isEmpty) = true := by rfl
/-- An access MemAdmit does not admit leaves the command stuck (20_memory.md R36). -/
theorem test_stuck :
    step (State.withIssued { boundAt 8 0 0 0 [] with platform := ⟨0, false, [⟨0x100, 1, .write⟩]⟩ } 2) =
      .fault (.stuck .write 0x100) := by rfl
/-- Where the platform maps the register block over the storage region, the access is not admitted (20_memory.md R34). -/
theorem test_block_hides_storage :
    step (State.withIssued { boundAt 8 0 0 0 [] with platform := ⟨0x100, true, []⟩ } 2) = .fault (.stuck .write 0x100) := by
  rfl
/-- An idle engine holds its registers (60_exceptions.md R177). -/
theorem test_idle : step (boundAt 8 2 5 3 []) = .next (boundAt 8 2 5 3 []) := by rfl

/-- 30_encoding.md R59, R60: a comment, FLUSH and a hexadecimal number; an operand out of range is an error. -/
theorem test_assembler :
    assembleText "FLUSH 0x100, 8 ; empty\nFIND_KEYWORD 0xCCFB22AA, 4".toList =
      some [0x0000010000080001, 0xCCFB22AA00000048] ∧
    assembleText "DELETE 65536".toList = none := by decide

/-! ### Witnesses: states and operands that meet the hypotheses of the statements -/

/-- An empty bound buffer, C = 8, HEAD = TAIL = 5 (V-K2). -/
def empty8 : State := boundAt 8 5 5 0 []
/-- A full bound buffer, C = 8 (V-B2). -/
def full8 : State := boundAt 8 0 7 7 []
/-- The smallest buffer, C = 2, empty and full (V-B3, V-B4). -/
def empty2 : State := boundAt 2 1 1 0 []
def full2 : State := boundAt 2 1 0 1 []
/-- Three bytes 41 0D 0A across the wrap (V-F1). -/
def three8 : State := boundAt 8 6 1 3 [(0x100, 0x0A), (0x106, 0x41), (0x107, 0x0D)]
/-- The same three bytes at other offsets. -/
def three8' : State := boundAt 8 2 5 3 [(0x102, 0x41), (0x103, 0x0D), (0x104, 0x0A)]
/-- The three bytes with their word issued. -/
def issued (w : CmdWord) : State := three8.withIssued w

theorem inv_empty8 : BufferInv empty8 := ⟨by decide, by decide, by decide, by decide, by decide⟩
theorem inv_full8 : BufferInv full8 := ⟨by decide, by decide, by decide, by decide, by decide⟩
theorem inv_empty2 : BufferInv empty2 := ⟨by decide, by decide, by decide, by decide, by decide⟩
theorem inv_full2 : BufferInv full2 := ⟨by decide, by decide, by decide, by decide, by decide⟩
theorem inv_three8 : BufferInv three8 := ⟨by decide, by decide, by decide, by decide, by decide⟩
theorem inv_three8' : BufferInv three8' := ⟨by decide, by decide, by decide, by decide, by decide⟩
theorem admits_default (s : State) (h : s.platform = defaultPlatform) : AdmitsAll s.platform := h ▸ admitsAll_default
theorem accesses_default (i : Instr) (s : State) (h : s.platform = defaultPlatform) : AccessesAdmitted i s :=
  accessesAdmitted_of_all (admits_default s h) i
theorem outside_4000 (n : Nat) (h : n ≤ 7) (s : State) (hb : s.base = 0x100) (hc : s.cap = 8) :
    BufferOutsideStorage s 0x4000 n := by
  rintro k hk ⟨off, ho, he⟩
  have := congrArg BitVec.toNat he
  simp [bufAddr, State.sAddr, hb] at this
  omega

theorem witness_EncodeOfDecodeIsTheWord : decode 0xCCFB22AA00000048 = .ok (.findKeyword 0xCCFB22AA 4) := by rfl
theorem witness_DecoderAgreesWithOpcodeMap :
    decode 0x0000004100000002 = .ok (.writeByte 0x41) ∧ Instr.row (.delete 0) ∈ opcodeMap ∧
    (Instr.row (.delete 0)).selects 0x0000000000020006 = true ∧ (Instr.row (.delete 9)).selects 0x0000000000020006 = true :=
  ⟨rfl, by decide, by decide, by decide⟩
theorem witness_IllegalWordEndsWithIllegalCommand :
    ((issued 0).runsCommandNext = true ∧ opcField (issued 0).commandWord = 0) ∧
    ((issued 0xB).runsCommandNext = true ∧ 0xB ≤ (opcField (issued 0xB).commandWord).toNat) ∧
    ((issued 0x89).runsCommandNext = true ∧ ∀ r ∈ opcodeMap, r.selects (issued 0x89).commandWord = false) := by decide
theorem witness_StepRunsTheDecodedCommand :
    (issued 6).runsCommandNext = true ∧ decode (issued 6).commandWord = .ok (.delete 0) := ⟨by decide, rfl⟩
theorem witness_AssembledTextIsLegal :
    (SourceCmd.writeByte 256).wellFormed = false ∧ assembleText "GET_LEN".toList = some [9] ∧
    "DELETE 65536".toList ∈ splitAtChar '\n' "GET_LEN\nDELETE 65536".toList ∧
    parseLine "DELETE 65536".toList = some (some (.delete 65536)) ∧ (SourceCmd.delete 65536).toInstr = none := by decide
theorem witness_InitBindsAndEmpties : 2 ≤ (2 : Half).toNat ∧ 2 ≤ (65535 : Half).toNat := by decide
theorem witness_FailedInitChangesOnlyResult : (0 : Half).toNat < 2 ∧ (1 : Half).toNat < 2 := by decide
theorem witness_WriteByteStoresAtTail :
    empty2.mem.wf = true ∧ empty2.bound = true ∧ BufferInv empty2 ∧ empty2.length.toNat < empty2.capacity.toNat - 1 ∧
    admits empty2.platform (empty2.sAddr empty2.tail.toNat) .write = true :=
  ⟨by decide, by decide, inv_empty2, by decide, by decide⟩
theorem witness_ReadByteDeliversTheOldestByte :
    full2.bound = true ∧ BufferInv full2 ∧ 0 < full2.length.toNat ∧
    admits full2.platform (full2.sAddr full2.head.toNat) .read = true := ⟨by decide, inv_full2, by decide, by decide⟩
theorem witness_CapacityMinusOneBytesFit :
    empty8.mem.wf = true ∧ empty8.bound = true ∧ BufferInv empty8 ∧ empty8.length = 0 ∧ AdmitsAll empty8.platform ∧
    0 < [1, 2, 3, 4, 5, 6, (7 : Byte)].length ∧ [1, 2, 3, 4, 5, 6, (7 : Byte)].length = empty8.capacity.toNat - 1 :=
  ⟨by decide, by decide, inv_empty8, by decide, admits_default _ rfl, by decide, by decide⟩
theorem witness_WriteByteIsAWriteBlockOfOneByte :
    (empty2.mem.wf = true ∧ empty2.bound = true ∧ BufferInv empty2 ∧ AccessesAdmitted (.writeBlock 0x3000 1) empty2 ∧
      empty2.length.toNat < empty2.capacity.toNat - 1) ∧
    (full8.mem.wf = true ∧ full8.bound = true ∧ BufferInv full8 ∧ AccessesAdmitted (.writeBlock 0x3000 1) full8 ∧
      full8.length.toNat = full8.capacity.toNat - 1) :=
  ⟨⟨by decide, by decide, inv_empty2, accesses_default _ _ rfl, by decide⟩,
    ⟨by decide, by decide, inv_full8, accesses_default _ _ rfl, by decide⟩⟩
theorem witness_WriteBlockCopiesInAscendingOrder :
    empty8.bound = true ∧ BufferInv empty8 ∧ empty8.length.toNat + (7 : Half).toNat ≤ empty8.capacity.toNat - 1 ∧
    AccessesAdmitted (.writeBlock 0x3000 7) empty8 :=
  ⟨by decide, inv_empty8, by decide, accesses_default _ _ rfl⟩
theorem witness_ReadBlockCopiesInAscendingOrder :
    full8.bound = true ∧ BufferInv full8 ∧ (7 : Half).toNat ≤ full8.length.toNat ∧
    AccessesAdmitted (.readBlock 0x4000 7) full8 := ⟨by decide, inv_full8, by decide, accesses_default _ _ rfl⟩
theorem witness_ZeroLengthWriteBlockChangesOnlyResult : full8.bound = true ∧ BufferInv full8 := ⟨by decide, inv_full8⟩
theorem witness_ExactLandingWrapsTailToZero :
    empty8.bound = true ∧ BufferInv empty8 ∧ (3 : Half).toNat = empty8.capacity.toNat - empty8.tail.toNat ∧
    (3 : Half).toNat ≤ empty8.capacity.toNat - 1 - empty8.length.toNat ∧
    ∃ t, exec (.writeBlock 0x3000 3) empty8 = .next t := ⟨by decide, inv_empty8, by decide, by decide, _, rfl⟩
theorem witness_ReadBlockBeyondLengthFailsWhole :
    three8.bound = true ∧ three8.length.toNat < (4 : Half).toNat ∧ three8.length.toNat < (65535 : Half).toNat := by decide
theorem witness_BlockRoundTripDeliversTheBytesInOrder :
    three8.mem.wf = true ∧ three8.bound = true ∧ BufferInv three8 ∧ AdmitsAll three8.platform ∧
    three8.length.toNat + (4 : Half).toNat ≤ three8.capacity.toNat - 1 ∧
    (7 : Half).toNat = three8.length.toNat + (4 : Half).toNat ∧
    BufferOutsideStorage three8 0x4000 (4 : Half).toNat ∧ BufferOutsideStorage three8 0x4000 (7 : Half).toNat :=
  ⟨by decide, by decide, inv_three8, admits_default _ rfl, by decide, by decide,
    outside_4000 _ (by decide) _ rfl rfl, outside_4000 _ (by decide) _ rfl rfl⟩
theorem witness_DeleteMovesHead :
    three8.bound = true ∧ BufferInv three8 ∧ (3 : Half).toNat ≤ three8.length.toNat ∧
    three8.length.toNat < (4 : Half).toNat := ⟨by decide, inv_three8, by decide, by decide⟩
theorem witness_DeleteIsAReadThatDiscards :
    three8.mem.wf = true ∧ three8.bound = true ∧ BufferInv three8 ∧ AdmitsAll three8.platform ∧
    (2 : Half).toNat ≤ three8.length.toNat ∧ BufferOutsideStorage three8 0x4000 (2 : Half).toNat :=
  ⟨by decide, by decide, inv_three8, admits_default _ rfl, by decide, outside_4000 _ (by decide) _ rfl rfl⟩
theorem witness_InsertKeywordStoresMostSignificantByteFirst :
    three8.mem.wf = true ∧ three8.bound = true ∧ BufferInv three8 ∧ 1 ≤ (4 : BitVec 3).toNat ∧
    (4 : BitVec 3).toNat ≤ 4 ∧ three8.length.toNat + (4 : BitVec 3).toNat ≤ three8.capacity.toNat - 1 ∧
    AccessesAdmitted (.insertKeyword 0xCCFB22AA 4) three8 :=
  ⟨by decide, by decide, inv_three8, by decide, by decide, by decide, accesses_default _ _ rfl⟩
theorem witness_InsertKeywordIgnoresTheHighBytes :
    (0x5678 : Word).toNat = (0x12345678 : Word).toNat % 2 ^ (8 * (2 : BitVec 3).toNat) := by decide
theorem witness_InsertKeywordIsAWriteBlockOfItsBytes :
    let s : State := { full8 with mem := [(0x4000, 0x0D), (0x4001, 0x0A)] }
    let r : State := { empty8 with mem := [(0x4000, 0x0D), (0x4001, 0x0A)] }
    (s.mem.wf = true ∧ s.bound = true ∧ BufferInv s ∧ AdmitsAll s.platform ∧ 1 ≤ (2 : BitVec 3).toNat ∧
      (2 : BitVec 3).toNat ≤ 4 ∧ (2 : Half).toNat = (2 : BitVec 3).toNat ∧ BufferOutsideStorage s 0x4000 (2 : Half).toNat ∧
      (∀ j < (2 : BitVec 3).toNat, (s.bufferByte 0x4000 j).toNat =
        (0x0D0A : Word).toNat / 2 ^ (8 * ((2 : BitVec 3).toNat - 1 - j)) % 2 ^ 8) ∧
      s.length.toNat + (2 : BitVec 3).toNat > s.capacity.toNat - 1) ∧
    (BufferInv r ∧ BufferOutsideStorage r 0x4000 (2 : Half).toNat ∧
      r.length.toNat + (2 : BitVec 3).toNat ≤ r.capacity.toNat - 1) :=
  ⟨⟨by decide, by decide, inv_full8.congr rfl rfl rfl rfl, admits_default _ rfl, by decide, by decide, by decide,
    outside_4000 _ (by decide) _ rfl rfl, by decide, by decide⟩,
    ⟨inv_empty8.congr rfl rfl rfl rfl, outside_4000 _ (by decide) _ rfl rfl, by decide⟩⟩
theorem witness_KeywordLengthOutOfRangeIsReportedFirst :
    full8.bound = true ∧ (0 : BitVec 3).toNat < 1 ∧ 4 < (5 : BitVec 3).toNat ∧ 4 < (7 : BitVec 3).toNat := by decide
theorem firstMatch_three8 : FirstMatch three8 0x0D0A (2 : BitVec 3).toNat 1 := ⟨by decide, by decide, by decide⟩
theorem witness_FindKeywordReturnsTheFirstMatch :
    three8.bound = true ∧ BufferInv three8 ∧ 1 ≤ (2 : BitVec 3).toNat ∧ (2 : BitVec 3).toNat ≤ 4 ∧
    (2 : BitVec 3).toNat ≤ three8.length.toNat ∧ AccessesAdmitted (.findKeyword 0x0D0A 2) three8 ∧
    FirstMatch three8 0x0D0A (2 : BitVec 3).toNat 1 ∧
    (∀ i ≤ 1, i + (2 : BitVec 3).toNat ≤ three8.length.toNat → three8.windowWord i (2 : BitVec 3).toNat ≠ 0x0D0D) :=
  ⟨by decide, inv_three8, by decide, by decide, by decide, accesses_default _ _ rfl, firstMatch_three8, by decide⟩
theorem witness_KeywordWiderThanItsLengthIsNeverFound :
    three8.bound = true ∧ BufferInv three8 ∧ 1 ≤ (2 : BitVec 3).toNat ∧ (2 : BitVec 3).toNat ≤ 4 ∧
    (2 : BitVec 3).toNat ≤ three8.length.toNat ∧ AccessesAdmitted (.findKeyword 0x10000 2) three8 ∧
    2 ^ (8 * (2 : BitVec 3).toNat) ≤ (0x10000 : Word).toNat :=
  ⟨by decide, inv_three8, by decide, by decide, by decide, accesses_default _ _ rfl, by decide⟩
theorem witness_FindKeywordOnTooLittleDataIsInsufficientData :
    three8.bound = true ∧ 1 ≤ (4 : BitVec 3).toNat ∧ (4 : BitVec 3).toNat ≤ 4 ∧
    three8.length.toNat < (4 : BitVec 3).toNat := by decide
theorem witness_FoundDistanceLiesInTheWindow :
    three8.bound = true ∧ BufferInv three8 ∧
    ∃ t, exec (.findKeyword 0x0D0A 2) three8 = .next t ∧ statusField t.result = 0 :=
  ⟨by decide, inv_three8, _, rfl, by decide⟩
theorem witness_InsertedKeywordIsFoundAtItsPlace :
    three8.mem.wf = true ∧ three8.bound = true ∧ BufferInv three8 ∧ AdmitsAll three8.platform ∧
    (0x4142 : Word).toNat < 2 ^ (8 * (2 : BitVec 3).toNat) ∧
    ∃ t, exec (.insertKeyword 0x4142 2) three8 = .next t ∧ statusField t.result = 0 ∧
      ∀ i < three8.length.toNat, t.windowWord i (2 : BitVec 3).toNat ≠ 0x4142 :=
  ⟨by decide, by decide, inv_three8, admits_default _ rfl, by decide, _, rfl, by decide, by decide⟩
theorem witness_ResultsDependOnTheWindowOnly :
    three8.bound = true ∧ three8'.bound = true ∧ BufferInv three8 ∧ BufferInv three8' ∧ AdmitsAll three8.platform ∧
    AdmitsAll three8'.platform ∧ three8.window = three8'.window ∧
    (∃ t, exec (.findKeyword 0x0D0A 2) three8 = .next t) ∧ (∃ t, exec (.findKeyword 0x0D0A 2) three8' = .next t) ∧
    (∃ t, exec .readByte three8 = .next t) ∧ ∃ t, exec .readByte three8' = .next t :=
  ⟨by decide, by decide, inv_three8, inv_three8', admits_default _ rfl, admits_default _ rfl, by decide, ⟨_, rfl⟩,
    ⟨_, rfl⟩, ⟨_, rfl⟩, ⟨_, rfl⟩⟩
theorem witness_GetLenAndGetFreeReportTheCounts : full8.bound = true := by decide
theorem witness_WritesAreAdmittedUpToTheFreeCount :
    three8.bound = true ∧ BufferInv three8 ∧ AdmitsAll three8.platform ∧ (∃ t, exec .getFree three8 = .next t) ∧
    1 ≤ (4 : BitVec 3).toNat ∧ (4 : BitVec 3).toNat ≤ 4 :=
  ⟨by decide, inv_three8, admits_default _ rfl, ⟨_, rfl⟩, by decide, by decide⟩
theorem witness_UnboundCommandsEndWithNotInitialized :
    State.reset.bound = false ∧ ∀ base cap, Instr.getLen ≠ .init base cap := ⟨rfl, fun _ _ h => nomatch h⟩
theorem witness_SpaceAndDataChecksReportTheirStatus :
    (full8.bound = true ∧ full8.length.toNat = full8.capacity.toNat - 1 ∧
      full8.capacity.toNat - 1 < full8.length.toNat + (1 : Half).toNat ∧ 1 ≤ (1 : BitVec 3).toNat ∧
      (1 : BitVec 3).toNat ≤ 4 ∧ full8.capacity.toNat - 1 < full8.length.toNat + (1 : BitVec 3).toNat) ∧
    (empty8.bound = true ∧ empty8.length = 0) := by decide
theorem witness_FailedCommandChangesOnlyResult :
    (∃ t, exec (.writeByte 1) full8 = .next t ∧ statusField t.result ≠ 0) ∧ (issued 0).runsCommandNext = true ∧
    ∃ t, step (issued 0) = .next t ∧ statusField t.result ≠ 0 :=
  ⟨⟨_, rfl, by decide⟩, by decide, _, rfl, by decide⟩
theorem witness_ReportedStatusIsOneOfTheOpcodes :
    (issued 6).runsCommandNext = true ∧ ∃ t, step (issued 6) = .next t := ⟨by decide, _, rfl⟩
theorem witness_NoCommandTouchesTheHostRegisters : ∃ t, exec (.writeByte 1) empty8 = .next t := ⟨_, rfl⟩
theorem inv_issued (w : CmdWord) : Inv (issued w) :=
  ⟨(by decide : three8.mem.wf = true), fun _ => inv_three8.congr rfl rfl rfl rfl, (fun h => nomatch h),
    ⟨(by decide : reservedField three8.result = 0), (by decide : (statusField three8.result).toNat ≤ 9)⟩⟩
theorem witness_StepKeepsInv : Inv (issued 6) ∧ ∃ t, step (issued 6) = .next t := ⟨inv_issued 6, _, rfl⟩
theorem witness_CommandsWriteOnlyWhatTheMatrixNames :
    three8.mem.wf = true ∧ (∃ t, exec (.init 0 8) three8 = .next t) ∧ (∃ t, exec .readByte three8 = .next t) ∧
    (∃ t, exec (.delete 1) three8 = .next t) ∧ (∃ t, exec (.findKeyword 0x0D0A 2) three8 = .next t) ∧
    (∃ t, exec .getLen three8 = .next t) ∧ (∃ t, exec .getFree three8 = .next t) ∧
    (∃ t, exec (.writeByte 1) three8 = .next t) ∧ (∃ t, exec (.writeBlock 0x3000 2) three8 = .next t) ∧
    (∃ t, exec (.insertKeyword 1 2) three8 = .next t) ∧ ∃ t, exec (.readBlock 0x4000 2) three8 = .next t :=
  ⟨by decide, ⟨_, rfl⟩, ⟨_, rfl⟩, ⟨_, rfl⟩, ⟨_, rfl⟩, ⟨_, rfl⟩, ⟨_, rfl⟩, ⟨_, rfl⟩, ⟨_, rfl⟩, ⟨_, rfl⟩, ⟨_, rfl⟩⟩
theorem witness_EveryCommandCompletesUnlessStuck :
    (three8.bound = true → BufferInv three8) ∧ AccessesAdmitted (.readBlock 0x4000 3) three8 :=
  ⟨fun _ => inv_three8, accesses_default _ _ rfl⟩
/-- An empty buffer whose storage the platform does not admit. -/
def denied8 : State := { three8 with platform := ⟨0, false, [⟨0x100, 8, .write⟩, ⟨0x106, 1, .read⟩]⟩ }
theorem witness_OnlyAnInadmissibleAccessStopsACommand :
    ∃ r, exec (.writeByte 1) denied8 = .fault r := ⟨_, rfl⟩
/-- The three bytes on a platform that does not admit the accesses of these ranges. -/
def denying (ds : List DeniedRange) : State := { three8 with platform := ⟨0, false, ds⟩ }
theorem inv_denying (ds : List DeniedRange) : BufferInv (denying ds) := inv_three8.congr rfl rfl rfl rfl
theorem witness_InadmissibleAccessIsStuck :
    denied8.bound = true ∧ BufferInv denied8 ∧ denied8.length.toNat < denied8.capacity.toNat - 1 ∧
    admits denied8.platform (denied8.sAddr denied8.tail.toNat) .write = false ∧ 0 < denied8.length.toNat ∧
    admits denied8.platform (denied8.sAddr denied8.head.toNat) .read = false ∧ (3 : BitVec 3).toNat ≤ denied8.length.toNat :=
  ⟨by decide, inv_three8.congr rfl rfl rfl rfl, by decide, by decide, by decide, by decide, by decide⟩
/-- WRITE_BLOCK: the last source byte, and the last storage byte, is not admitted. -/
theorem witness_InadmissibleAccessIsStuck_writeBlock :
    (let s := denying [⟨0x3003, 1, .read⟩];
      BufferInv s ∧ s.length.toNat + (4 : Half).toNat ≤ s.capacity.toNat - 1 ∧ 3 < (4 : Half).toNat ∧
      (∀ j < 3, admits s.platform (bufAddr 0x3000 j) .read = true ∧
        admits s.platform (s.sAddr ((s.tail.toNat + j) % s.capacity.toNat)) .write = true) ∧
      admits s.platform (bufAddr 0x3000 3) .read = false) ∧
    (let s := denying [⟨0x104, 1, .write⟩];
      BufferInv s ∧ (∀ j < 3, admits s.platform (bufAddr 0x3000 j) .read = true ∧
        admits s.platform (s.sAddr ((s.tail.toNat + j) % s.capacity.toNat)) .write = true) ∧
      admits s.platform (bufAddr 0x3000 3) .read = true ∧
      admits s.platform (s.sAddr ((s.tail.toNat + 3) % s.capacity.toNat)) .write = false) :=
  ⟨⟨inv_denying _, by decide, by decide, by decide, by decide⟩, inv_denying _, by decide, by decide, by decide⟩
/-- READ_BLOCK: the last storage byte, past the wrap, and the last destination byte, is not admitted. -/
theorem witness_InadmissibleAccessIsStuck_readBlock :
    (let s := denying [⟨0x100, 1, .read⟩];
      BufferInv s ∧ (3 : Half).toNat ≤ s.length.toNat ∧ 2 < (3 : Half).toNat ∧
      (∀ j < 2, admits s.platform (s.sAddr ((s.head.toNat + j) % s.capacity.toNat)) .read = true ∧
        admits s.platform (bufAddr 0x4000 j) .write = true) ∧
      admits s.platform (s.sAddr ((s.head.toNat + 2) % s.capacity.toNat)) .read = false) ∧
    (let s := denying [⟨0x4002, 1, .write⟩];
      BufferInv s ∧ (∀ j < 2, admits s.platform (s.sAddr ((s.head.toNat + j) % s.capacity.toNat)) .read = true ∧
        admits s.platform (bufAddr 0x4000 j) .write = true) ∧
      admits s.platform (s.sAddr ((s.head.toNat + 2) % s.capacity.toNat)) .read = true ∧
      admits s.platform (bufAddr 0x4000 2) .write = false) :=
  ⟨⟨inv_denying _, by decide, by decide, by decide, by decide⟩, inv_denying _, by decide, by decide, by decide⟩
/-- INSERT_KEYWORD of four bytes: the last byte is not admitted. -/
theorem witness_InadmissibleAccessIsStuck_insertKeyword :
    let s := denying [⟨0x104, 1, .write⟩]
    BufferInv s ∧ 1 ≤ (4 : BitVec 3).toNat ∧ (4 : BitVec 3).toNat ≤ 4 ∧
      s.length.toNat + (4 : BitVec 3).toNat ≤ s.capacity.toNat - 1 ∧ 3 < (4 : BitVec 3).toNat ∧
      (∀ j < 3, admits s.platform (s.sAddr ((s.tail.toNat + j) % s.capacity.toNat)) .write = true) ∧
      admits s.platform (s.sAddr ((s.tail.toNat + 3) % s.capacity.toNat)) .write = false :=
  ⟨inv_denying _, by decide, by decide, by decide, by decide, by decide, by decide⟩
/-- 41 is found at distance 1 where only its own byte may be read; 42 is not found; a WRITE_BLOCK completes. -/
theorem witness_CompletedCommandMadeAdmittedAccesses :
    (∃ t, exec (.writeBlock 0x3000 4) three8 = .next t) ∧ (∀ v klen, Instr.writeBlock 0x3000 4 ≠ .findKeyword v klen) ∧
    three8.bound = true ∧ BufferInv three8 ∧
    (∃ t, exec (.findKeyword 0x41 1) (denying [⟨0x107, 1, .read⟩, ⟨0x100, 1, .read⟩]) = .next t ∧
      statusField t.result = 0 ∧ 0 < (dataField t.result).toNat) ∧
    ∃ t, exec (.findKeyword 0x42 1) three8 = .next t ∧ statusField t.result = 5 ∧
      2 + (1 : BitVec 3).toNat ≤ three8.length.toNat :=
  ⟨⟨_, rfl⟩, (fun _ _ h => nomatch h), by decide, inv_three8, ⟨_, rfl, by decide, by decide⟩, _, rfl, by decide, by decide⟩
theorem witness_CommandsActOnTheWindowAsAQueue :
    three8.mem.wf = true ∧ three8.bound = true ∧ BufferInv three8 ∧ AdmitsAll three8.platform ∧
    (∃ t, exec (.writeByte 1) three8 = .next t ∧ statusField t.result = 0) ∧
    (∃ t, exec .readByte three8 = .next t ∧ statusField t.result = 0) ∧
    (∃ t, exec (.writeBlock 0x4000 2) three8 = .next t ∧ statusField t.result = 0 ∧
      BufferOutsideStorage three8 0x4000 (2 : Half).toNat) ∧
    (∃ t, exec (.readBlock 0x4000 2) three8 = .next t ∧ statusField t.result = 0) ∧
    (∃ t, exec (.delete 2) three8 = .next t ∧ statusField t.result = 0) ∧
    (∃ t, exec (.insertKeyword 1 2) three8 = .next t ∧ statusField t.result = 0) ∧
    (∃ t, exec (.findKeyword 0x0D0A 2) three8 = .next t) ∧ (∃ t, exec .getLen three8 = .next t) ∧
    (∃ t, exec .getFree three8 = .next t) ∧ ∃ t, exec (.init 0 8) three8 = .next t ∧ statusField t.result = 0 :=
  ⟨by decide, by decide, inv_three8, admits_default _ rfl, ⟨_, rfl, by decide⟩, ⟨_, rfl, by decide⟩,
    ⟨_, rfl, by decide, outside_4000 _ (by decide) _ rfl rfl⟩, ⟨_, rfl, by decide⟩, ⟨_, rfl, by decide⟩,
    ⟨_, rfl, by decide⟩, ⟨_, rfl⟩, ⟨_, rfl⟩, ⟨_, rfl⟩, ⟨_, rfl, by decide⟩⟩
/-- The three bytes with a reset pending. -/
def resetPending : State := { three8 with hostQueue := [.reset (some 5)] }
theorem witness_OnlyResetUnbinds :
    resetPending.bound = true ∧ ∃ t, step resetPending = .next t ∧ t.bound = false := ⟨by decide, _, rfl, by decide⟩
theorem witness_OnlyInitAndResetChangeTheBinding :
    (∃ t, step resetPending = .next t ∧ t.capacity ≠ resetPending.capacity) ∧
    ∃ t, step (issued 0x0000900000100001) = .next t ∧ t.base ≠ (issued 0x0000900000100001).base :=
  ⟨⟨_, rfl, by decide⟩, _, rfl, by decide⟩
/-- An idle bound engine with one host access pending. -/
def pending (a : HostAction) : State := { three8 with hostQueue := [a] }
theorem witness_RegisterBlockReadsAsTheMapSays :
    ([0x00, 0x04, 0x08, 0x0C, 0x10, 0x14, 0x18, 0x1C, 0x20, 0x24, 0x3C] : List Nat).all (fun off =>
      decide ((pending (.regLoad (.ofNat 32 off) .word)).busy = false) && decide (off < 64) && decide (off % 4 = 0) &&
      decide ((pending (.regLoad (.ofNat 32 off) .word)).hostQueue =
        [.regLoad (three8.platform.engBase + .ofNat 32 off) .word])) = true := by decide
theorem witness_RegisterBlockWritesAsTheMapSays :
    ([0x00, 0x04, 0x08, 0x3C] : List Nat).all (fun off =>
      decide ((pending (.regStore (.ofNat 32 off) .word 7)).busy = false) && decide (off < 64) && decide (off % 4 = 0) &&
      decide ((pending (.regStore (.ofNat 32 off) .word 7)).hostQueue =
        [.regStore (three8.platform.engBase + .ofNat 32 off) .word 7])) = true := by decide
theorem witness_OtherRegisterAccessesAreRefused :
    8 < 64 ∧ AccessSize.half ≠ .word ∧
    (pending (.regLoad 8 .half)).hostQueue = [.regLoad (three8.platform.engBase + .ofNat 32 8) .half] ∧
    63 < 64 ∧ 63 % 4 ≠ 0 ∧
    (pending (.regStore 63 .word 7)).hostQueue = [.regStore (three8.platform.engBase + .ofNat 32 63) .word 7] := by decide
/-- A DELETE 1 issued with one host access pending. -/
def running (a : HostAction) : State := { three8 with cmdLo := 0x00010006, busy := true, hostQueue := [a] }
/-- The same while a command executes. -/
theorem witness_OtherRegisterAccessesAreRefused_busy :
    (running (.regLoad 0x0C .byte)).busy = true ∧
    (running (.regLoad 0x0C .byte)).hostQueue = [.regLoad (three8.platform.engBase + .ofNat 32 0x0C) .byte] ∧
    (running (.regStore 5 .word 7)).hostQueue = [.regStore (three8.platform.engBase + .ofNat 32 5) .word 7] := by decide
theorem witness_AccessesAreHeldUntilTheCommandCompletes :
    (running (.regStore 4 .word 7)).busy = true ∧ (∃ t, step (running (.regStore 4 .word 7)) = .next t) ∧
    (running (.regLoad 8 .word)).busy = true ∧ ∃ t, step (running (.regLoad 8 .word)) = .next t :=
  ⟨by decide, ⟨_, rfl⟩, by decide, ⟨_, rfl⟩⟩
theorem witness_StatusReadFollowsTheFreeOrder :
    (let s := running (.regLoad 0x0C .word);
      s.busy = true ∧ s.hostQueue = [.regLoad (s.platform.engBase + 0x0C) .word] ∧
      ∃ t, runCommand { s with hostQueue := [], draws := s.draws + 1 } = .next t) ∧
    (let s := stuckRunning (.regLoad 0x0C .word);
      s.busy = true ∧ s.hostQueue = [.regLoad (s.platform.engBase + 0x0C) .word] ∧
      ∃ r, runCommand { s with hostQueue := [], draws := s.draws + 1 } = .fault r) :=
  ⟨⟨by decide, by decide, _, rfl⟩, by decide, by decide, _, rfl⟩
theorem witness_IssueSequenceDeliversTheCommandsResult :
    let s : State := { three8 with hostQueue := issueSequence three8.platform 0x00010006 }
    s.busy = false ∧ decode 0x00010006 = .ok (.delete 1) ∧ ∃ t, exec (.delete 1) s = .next t :=
  ⟨by decide, rfl, _, rfl⟩
theorem witness_ResetZeroesTheRegistersAndKeepsMem :
    resetPending.busy = false ∧ resetPending.hostQueue = [.reset (some 5)] := by decide
/-- A WRITE_BLOCK of two bytes, which has writes to abandon; the same stuck at its second; an illegal word. -/
theorem witness_ResetAbandonsTheRunningCommand :
    (let s : State := { running (.reset none) with cmdLo := 0x00020004, cmdHi := 0x3000 };
      s.busy = true ∧ s.hostQueue = [.reset none] ∧ s.mem.wf = true ∧ s.pendingWrites = [0x101, 0x102] ∧
      decode s.commandWord = .ok (.writeBlock 0x3000 2) ∧ ∃ t, exec (.writeBlock 0x3000 2) s = .next t) ∧
    (let s : State := { running (.reset none) with
        cmdLo := 0x00020004, cmdHi := 0x3000, platform := ⟨0, false, [⟨0x102, 1, .write⟩]⟩ };
      s.pendingMoves ≠ [] ∧ decode s.commandWord = .ok (.writeBlock 0x3000 2) ∧
      exec (.writeBlock 0x3000 2) s = .fault (.stuck .write 0x102)) ∧
    (∃ e, decode ({ running (.reset none) with cmdLo := 0 } : State).commandWord = .error e) :=
  ⟨⟨by decide, by decide, by decide, by decide, rfl, _, rfl⟩, ⟨by decide, rfl, rfl⟩, _, rfl⟩
/-- A WRITE_BYTE issued with a host store pending: at its byte, and elsewhere. -/
def storing (a : Word) : State := { three8 with cmdLo := 2, cmdHi := 9, busy := true, hostQueue := [.memStore a 7] }
theorem witness_HostMemoryAccessDuringACommand :
    (storing 0x101).busy = true ∧ (storing 0x101).platform.blockInMem = false ∧
    0x101 ∈ (storing 0x101).pendingWrites ∧ 0x102 ∉ (storing 0x102).pendingWrites ∧
    0x102 ∉ (storing 0x102).pendingReads := by decide
theorem witness_HostStoreChangesOnlyItsByte :
    (pending (.memStore 0x100 7)).busy = false ∧ (pending (.memStore 0x100 7)).mem.wf = true ∧
    (pending (.memStore 0x100 7)).platform.blockInMem = false ∧
    (pending (.memStore 0x100 7)).hostQueue = [.memStore 0x100 7] := by decide

end Sys2Proof.Tests
end

section
/-! What a command that goes on to a next state has done, said once, and that no command looks at the host's side of the
state. -/

namespace Sys2Proof.Machine

/-! ### How a command ends -/

section

variable {s t : State}

/-- A command behind the shared checks failed, or passed them and had its effect (60_exceptions.md R154). -/
theorem whenBound_fail_or_effect {c : Option Status} {e : Host.Outcome State Fault Refusal}
    (h : s.whenBound c e = .next t) :
    (∃ st, t = s.fail st) ∨ (s.bound = true ∧ c = none ∧ e = .next t) := by
  rcases whenBound_next h with ⟨-, rfl⟩ | ⟨-, st, -, rfl⟩ | h
  · exact .inl ⟨_, rfl⟩
  · exact .inl ⟨st, rfl⟩
  · exact .inr h

/-- A transfer behind the shared checks failed, or went on from the MEM that its moves leave. -/
theorem transfer_next {c : Option Status} {vs : List Move} {f : State → State}
    (h : s.whenBound c (s.afterMoves vs f) = .next t) :
    (∃ st, t = s.fail st) ∨
      (s.bound = true ∧ c = none ∧ t = f { s with mem := (runMoves s.platform vs s.mem).mem }) := by
  rcases whenBound_fail_or_effect h with h | ⟨hb, hc, he⟩
  · exact .inl h
  · exact .inr ⟨hb, hc, (afterMoves_next he).2⟩

/-- In a bound state, a command behind the shared checks that ends OK passed its check. -/
theorem check_none_of_ok {c : Option Status} {e : Host.Outcome State Fault Refusal} (hb : s.bound = true)
    (hc : c ≠ some .ok) (h : s.whenBound c e = .next t) (hs : statusField t.result = 0) : c = none := by
  rcases whenBound_next h with ⟨hf, -⟩ | ⟨-, st, rfl, rfl⟩ | ⟨-, hn, -⟩
  · rw [hb] at hf; cases hf
  · exact absurd (congrArg some (fail_status.mp hs)) hc
  · exact hn

/-! ### No check reports OK -/

theorem writeByteCheck_ne_ok : writeByteCheck s ≠ some .ok := by unfold writeByteCheck; split <;> simp

theorem readByteCheck_ne_ok : readByteCheck s ≠ some .ok := by unfold readByteCheck; split <;> simp

theorem spaceCheck_ne_ok {n : Nat} : spaceCheck s n ≠ some .ok := by unfold spaceCheck; split <;> simp

theorem dataCheck_ne_ok {n : Nat} : dataCheck s n ≠ some .ok := by unfold dataCheck; split <;> simp

theorem keywordLengthCheck_ne_ok {k : Nat} : keywordLengthCheck k ≠ some .ok := by
  unfold keywordLengthCheck; split <;> simp

theorem insertKeywordCheck_ne_ok {k : Nat} : insertKeywordCheck s k ≠ some .ok := by
  unfold insertKeywordCheck
  rw [ne_eq, Option.or_eq_some_iff]
  rintro (h | ⟨-, h⟩)
  · exact keywordLengthCheck_ne_ok h
  · exact spaceCheck_ne_ok h

theorem writeByteCheck_none : writeByteCheck s = none ↔ s.length.toNat ≠ s.capacity.toNat - 1 := by
  unfold writeByteCheck; split <;> simp [*]

theorem readByteCheck_none : readByteCheck s = none ↔ 0 < s.length.toNat := by
  unfold readByteCheck; split <;> simp <;> omega

/-! ### The commands that are no transfer -/

/-- INIT fails on its capacity, or binds the buffer (40_init.md R71, R72). -/
theorem exec_init_next {base : Word} {cap : Half} (h : exec (.init base cap) s = .next t) :
    t = s.fail .invalidCapacity ∨
      (2 ≤ cap.toNat ∧ t = State.ok
        { s with base := base, capacity := cap, head := 0, tail := 0, length := 0, bound := true } 0) := by
  rw [exec_init, execInit, initCheck, Config.capMin] at h
  by_cases hc : cap.toNat < 2
  · rw [if_pos hc] at h; cases h; exact .inl rfl
  · rw [if_neg hc] at h; cases h; exact .inr ⟨by omega, rfl⟩

/-- READ_BYTE fails, or takes one byte (41_byte.md R84). -/
theorem exec_readByte_next (h : exec .readByte s = .next t) :
    (∃ st, t = s.fail st) ∨
      (s.bound = true ∧ 0 < s.length.toNat ∧
        ∃ b : Byte, t = (s.consumed 1 (adv s.cap s.head.toNat 1)).ok b.toNat) := by
  rcases whenBound_fail_or_effect h with h | ⟨hb, hc, he⟩
  · exact .inl h
  · refine .inr ⟨hb, readByteCheck_none.mp hc, ?_⟩
    split at he
    · cases he
    · cases he; exact ⟨_, rfl⟩

/-- DELETE fails, or drops its bytes (43_delete.md R111). -/
theorem exec_delete_next {len : Half} (h : exec (.delete len) s = .next t) :
    (∃ st, t = s.fail st) ∨
      (s.bound = true ∧ len.toNat ≤ s.length.toNat ∧
        t = (s.consumed len.toNat (adv s.cap s.head.toNat len.toNat)).ok 0) := by
  rcases whenBound_fail_or_effect h with h | ⟨hb, hc, he⟩
  · exact .inl h
  · cases he; exact .inr ⟨hb, dataCheck_none.mp hc, rfl⟩

/-- FIND_KEYWORD writes RESULT only (44_keyword.md R127). -/
theorem exec_findKeyword_next {v : Word} {klen : BitVec 3} (h : exec (.findKeyword v klen) s = .next t) :
    ∃ d st, t = { s with result := resultWord d st } := by
  rcases whenBound_fail_or_effect h with ⟨st, rfl⟩ | ⟨-, -, he⟩
  · exact ⟨0, st, rfl⟩
  · split at he
    · cases he
    · cases he; exact ⟨_, .ok, rfl⟩
    · cases he; exact ⟨0, .notFound, rfl⟩

/-- GET_LEN fails, or answers LENGTH (45_introspection.md R141). -/
theorem exec_getLen_next (h : exec .getLen s = .next t) : (∃ st, t = s.fail st) ∨ t = s.ok s.length.toNat := by
  rw [exec_getLen, execGetLen] at h
  rcases whenBound_fail_or_effect h with h | ⟨-, -, he⟩
  · exact .inl h
  · cases he; exact .inr rfl

/-- GET_FREE fails, or answers the free count (45_introspection.md R144). -/
theorem exec_getFree_next (h : exec .getFree s = .next t) : (∃ st, t = s.fail st) ∨ t = s.ok s.freeCount := by
  rw [exec_getFree, execGetFree] at h
  rcases whenBound_fail_or_effect h with h | ⟨-, -, he⟩
  · exact .inl h
  · cases he; exact .inr rfl

/-! ### Every command -/

/-- What a command that goes on can have done: written RESULT only, bound the buffer, stored `n` bytes at TAIL, or
consumed `n` bytes at HEAD. -/
inductive CommandCase (i : Instr) (s : State) : State → Prop where
  | report (d : Nat) (st : Status) : CommandCase i s { s with result := resultWord d st }
  | bind {base : Word} {cap : Half} (hinit : i = .init base cap) (hcap : 2 ≤ cap.toNat) :
      CommandCase i s
        (State.ok { s with base := base, capacity := cap, head := 0, tail := 0, length := 0, bound := true } 0)
  | store {m : Memory} {n next : Nat} (hb : s.bound = true) (hm : s.mem.wf = true → m.wf = true)
      (hn : BufferInv s → s.length.toNat + n ≤ s.capacity.toNat - 1)
      (hx : BufferInv s → next = (s.tail.toNat + n) % s.capacity.toNat) :
      CommandCase i s ((State.stored { s with mem := m } n next).ok 0)
  | consume {m : Memory} {n next d : Nat} (hb : s.bound = true) (hm : s.mem.wf = true → m.wf = true)
      (hn : n ≤ s.length.toNat) (hx : BufferInv s → next = (s.head.toNat + n) % s.capacity.toNat) :
      CommandCase i s ((State.consumed { s with mem := m } n next).ok d)

theorem CommandCase.of_fail {i : Instr} (h : ∃ st, t = s.fail st) : CommandCase i s t := by
  obtain ⟨st, rfl⟩ := h
  exact .report 0 st

/-- A write of `n` bytes by a transfer, with TAIL moved as 20_memory.md R39 says. -/
theorem CommandCase.of_blockStore {i : Instr} {vs : List Move} {n : Nat} (hb : s.bound = true)
    (hn : s.length.toNat + n ≤ s.capacity.toNat - 1) :
    CommandCase i s
      ((State.stored { s with mem := (runMoves s.platform vs s.mem).mem } n (nextIndex s.cap s.tail.toNat n)).ok 0) :=
  .store hb (runMoves_wf vs) (fun _ => hn) fun hi =>
    nextIndex_mod hi.tail_lt (by have := hi.capacity_ge; omega)

/-- Every command that goes on has done one of the four things of `CommandCase`. -/
theorem exec_next {i : Instr} (h : exec i s = .next t) : CommandCase i s t := by
  cases i with
  | init base cap =>
    rcases exec_init_next h with rfl | ⟨hc, rfl⟩
    · exact .report 0 _
    · exact .bind rfl hc
  | writeByte b =>
    rcases transfer_next h with h | ⟨hb, hc, rfl⟩
    · exact .of_fail h
    · have hn : BufferInv s → s.length.toNat + 1 ≤ s.capacity.toNat - 1 := fun hi => by
        have := writeByteCheck_none.mp hc
        have := hi.length_le
        omega
      exact .store hb (runMoves_wf _) hn fun hi => adv_mod hi.tail_lt (by have := hi.capacity_ge; omega)
  | readByte =>
    rcases exec_readByte_next h with h | ⟨hb, hl, b, rfl⟩
    · exact .of_fail h
    · exact .consume hb id hl fun hi => adv_mod hi.head_lt (by have := hi.capacity_ge; omega)
  | writeBlock src len =>
    rcases transfer_next h with h | ⟨hb, hc, rfl⟩
    · exact .of_fail h
    · exact .of_blockStore hb (spaceCheck_none.mp hc)
  | readBlock dst len =>
    rcases transfer_next h with h | ⟨hb, hc, rfl⟩
    · exact .of_fail h
    · have hl := dataCheck_none.mp hc
      exact .consume hb (runMoves_wf _) hl fun hi =>
        nextIndex_mod hi.head_lt (by have := hi.length_le; have := hi.capacity_ge; omega)
  | delete len =>
    rcases exec_delete_next h with h | ⟨hb, hl, rfl⟩
    · exact .of_fail h
    · exact .consume hb id hl fun hi => adv_mod hi.head_lt (by have := hi.length_le; omega)
  | insertKeyword v klen =>
    rcases transfer_next h with h | ⟨hb, hc, rfl⟩
    · exact .of_fail h
    · exact .of_blockStore hb (insertKeywordCheck_none.mp hc).2
  | findKeyword v klen =>
    obtain ⟨d, st, rfl⟩ := exec_findKeyword_next h
    exact .report d st
  | getLen =>
    rcases exec_getLen_next h with h | rfl
    · exact .of_fail h
    · exact .report _ .ok
  | getFree =>
    rcases exec_getFree_next h with h | rfl
    · exact .of_fail h
    · exact .report _ .ok

end

/-! ### The host's side of the state -/

/-- The fields of the state that the engine's commands have nothing to do with (10_state.md R26; logs 5, 8, 12). -/
structure HostSide where
  cmdLo : Word
  cmdHi : Word
  busy : Bool
  hostQueue : List HostAction
  readData : Option Word
  draws : Nat

/-- The host's side of `s`. -/
def State.hostSide (s : State) : HostSide := ⟨s.cmdLo, s.cmdHi, s.busy, s.hostQueue, s.readData, s.draws⟩

/-- `s` with another host's side. -/
def State.withHostSide (s : State) (e : HostSide) : State :=
  { s with
    cmdLo := e.cmdLo, cmdHi := e.cmdHi, busy := e.busy, hostQueue := e.hostQueue
    readData := e.readData, draws := e.draws }

/-- A function on the next state of an outcome. -/
def mapNext (f : State → State) : Host.Outcome State Fault Refusal → Host.Outcome State Fault Refusal
  | .next s => .next (f s)
  | .fault r => .fault r
  | .refused r => .refused r

theorem mapNext_eq_next {f : State → State} {o : Host.Outcome State Fault Refusal} {t : State} :
    mapNext f o = .next t ↔ ∃ u, o = .next u ∧ t = f u := by
  cases o <;> simp [mapNext, eq_comm]

section

variable (s : State) (e : HostSide)

@[simp] theorem hostSide_withHostSide : (s.withHostSide e).hostSide = e := rfl
@[simp] theorem withHostSide_hostSide : s.withHostSide s.hostSide = s := rfl
@[simp] theorem withHostSide_length : (s.withHostSide e).length = s.length := rfl
@[simp] theorem withHostSide_capacity : (s.withHostSide e).capacity = s.capacity := rfl
@[simp] theorem withHostSide_base : (s.withHostSide e).base = s.base := rfl
@[simp] theorem withHostSide_bound : (s.withHostSide e).bound = s.bound := rfl

theorem whenBound_withHostSide (c : Option Status) (o : Host.Outcome State Fault Refusal) :
    (s.withHostSide e).whenBound c (mapNext (·.withHostSide e) o) = mapNext (·.withHostSide e) (s.whenBound c o) := by
  unfold State.whenBound
  rw [withHostSide_bound]
  split
  · cases c <;> rfl
  · rfl

theorem afterMoves_withHostSide (vs : List Move) {f : State → State}
    (hf : ∀ u : State, f (u.withHostSide e) = (f u).withHostSide e) :
    (s.withHostSide e).afterMoves vs f = mapNext (·.withHostSide e) (s.afterMoves vs f) := by
  have hp : runMoves (s.withHostSide e).platform vs (s.withHostSide e).mem = runMoves s.platform vs s.mem := rfl
  unfold State.afterMoves
  rw [hp]
  cases (runMoves s.platform vs s.mem).stuck with
  | some r => rfl
  | none => exact congrArg Host.Outcome.next (hf { s with mem := (runMoves s.platform vs s.mem).mem })

theorem scan_withHostSide (v : Word) (k n i : Nat) : (s.withHostSide e).scan v k n i = s.scan v k n i :=
  scan_congr (s := s) (t := s.withHostSide e) rfl rfl rfl rfl rfl v k n i

/-- A transfer behind the shared checks does the same whatever the host's side is. -/
theorem transfer_withHostSide (c : Option Status) (vs : List Move) {f : State → State}
    (hf : ∀ u : State, f (u.withHostSide e) = (f u).withHostSide e) :
    (s.withHostSide e).whenBound c ((s.withHostSide e).afterMoves vs f) =
      mapNext (·.withHostSide e) (s.whenBound c (s.afterMoves vs f)) := by
  rw [afterMoves_withHostSide s e vs hf, whenBound_withHostSide]

/-- No command looks at the host's side or changes it (10_state.md R26). -/
theorem exec_withHostSide (i : Instr) : exec i (s.withHostSide e) = mapNext (·.withHostSide e) (exec i s) := by
  cases i with
  | init base cap =>
    rw [exec_init, exec_init, execInit, execInit]
    cases initCheck cap <;> rfl
  | writeByte b => exact transfer_withHostSide s e _ _ fun _ => rfl
  | readByte =>
    have hr : memRead (s.withHostSide e).platform (s.withHostSide e).mem
        ((s.withHostSide e).sAddr (s.withHostSide e).head.toNat) =
      memRead s.platform s.mem (s.sAddr s.head.toNat) := rfl
    rw [exec_readByte, exec_readByte, execReadByte, execReadByte, ← whenBound_withHostSide, hr]
    cases memRead s.platform s.mem (s.sAddr s.head.toNat) <;> rfl
  | writeBlock src len => exact transfer_withHostSide s e _ _ fun _ => rfl
  | readBlock dst len => exact transfer_withHostSide s e _ _ fun _ => rfl
  | delete len =>
    rw [exec_delete, exec_delete, execDelete, execDelete, ← whenBound_withHostSide]
    rfl
  | insertKeyword v klen => exact transfer_withHostSide s e _ _ fun _ => rfl
  | findKeyword v klen =>
    rw [exec_findKeyword, exec_findKeyword, execFindKeyword, execFindKeyword, ← whenBound_withHostSide,
      scan_withHostSide, withHostSide_length]
    rcases s.scan v klen.toNat (s.length.toNat - klen.toNat + 1) 0 with r | (_ | i) <;> rfl
  | getLen =>
    rw [exec_getLen, exec_getLen, execGetLen, execGetLen, ← whenBound_withHostSide]
    rfl
  | getFree =>
    rw [exec_getFree, exec_getFree, execGetFree, execGetFree, ← whenBound_withHostSide]
    rfl

end

/-- A command leaves the host's side as it is: with its own host's side put in, it ends in the same state. -/
theorem exec_keeps_hostSide {i : Instr} {s t : State} (h : exec i s = .next t) : t.hostSide = s.hostSide := by
  have hw := exec_withHostSide s s.hostSide i
  rw [withHostSide_hostSide, h] at hw
  obtain ⟨u, hu, rfl⟩ := mapNext_eq_next.mp hw.symm
  rfl

end Sys2Proof.Machine
end

section
/-! What a step that goes on can have done, said once, and the invariant of the machine. -/

namespace Sys2Proof.Machine

/-- What a step from `s` to `t` can be, up to the host's side of `t`: nothing but MEM can have changed (idle, or a host
access), a reset, the issued command, or the end of an illegal word. -/
inductive StepCase (s t : State) : Prop where
  | access {m : Memory} (hm : s.mem.wf = true → m.wf = true)
      (ht : t = State.withHostSide { s with mem := m } t.hostSide)
  | reset {v : Option Word} {rest : List HostAction} {m : Memory} (hq : s.hostQueue = .reset v :: rest)
      (hm : s.mem.wf = true → m.wf = true)
      (ht : t = State.withHostSide (State.resetRegisters { s with mem := m }) t.hostSide)
  | command {i : Instr} {u : State} (hb : s.busy = true) (hd : decode s.commandWord = .ok i)
      (hu : exec i s = .next u) (ht : t = u.withHostSide t.hostSide)
  | illegal {r : Illegal} (hb : s.busy = true) (hd : decode s.commandWord = .error r)
      (ht : t = (s.fail .illegalCommand).withHostSide t.hostSide)

section

variable {s t : State}

/-- A host's access or reset that takes effect. -/
theorem StepCase.of_hostAct {a : HostAction} {rest : List HostAction} {n : Nat} (hq : s.hostQueue = a :: rest)
    (h : hostAct a { s with hostQueue := rest, draws := n } = .next t) : StepCase s t := by
  cases a with
  | regLoad addr size =>
    simp only [hostAct] at h
    split at h
    · cases h
    · cases h; exact .access (m := s.mem) id rfl
  | regStore addr size v =>
    simp only [hostAct] at h
    split at h
    · cases h
    · cases h
      unfold State.regWrite
      split <;> exact .access (m := s.mem) id rfl
  | memLoad addr =>
    simp only [hostAct] at h
    split at h
    · cases h
    · cases h; exact .access (m := s.mem) id rfl
  | memStore addr b =>
    simp only [hostAct] at h
    split at h
    · cases h
    · cases h; exact .access (m := s.mem.write addr.toNat b) (fun hm => Memory.wf_write hm (word_lt addr) b) rfl
  | reset v =>
    cases h
    unfold State.hostReset
    split
    · exact .reset hq (runMoves_wf _) rfl
    · exact .reset (m := s.mem) hq id rfl

/-- The running command completes, whatever of the host's side has been touched first or is touched after. -/
theorem StepCase.of_runCommand {q : List HostAction} {n : Nat} {w : State} (hb : s.busy = true)
    (h : runCommand { s with hostQueue := q, draws := n } = .next w) (e : HostSide) :
    StepCase s (w.withHostSide e) := by
  have hword : State.commandWord { s with hostQueue := q, draws := n } = s.commandWord := rfl
  unfold runCommand at h
  rw [hword] at h
  cases hd : decode s.commandWord with
  | error r => rw [hd] at h; cases h; exact .illegal hb hd rfl
  | ok i =>
    have hx := exec_withHostSide s ⟨s.cmdLo, s.cmdHi, s.busy, q, s.readData, n⟩ i
    change exec i { s with hostQueue := q, draws := n } = _ at hx
    simp only [hd, hx] at h
    cases hu : exec i s with
    | next u => rw [hu] at h; cases h; exact .command hb hd hu rfl
    | fault r => rw [hu] at h; cases h
    | refused r => rw [hu] at h; cases h

/-- Every step that goes on is one of the four of `StepCase`. -/
theorem step_next (h : step s = .next t) : StepCase s t := by
  unfold step stepMachine stepBusy stepIdle at h
  split at h
  · rename_i hb
    split at h
    · exact .of_runCommand (q := s.hostQueue) (n := s.draws) hb h t.hostSide
    · rename_i a rest hq
      unfold stepBusyWith at h
      split at h
      · exact .of_runCommand (q := s.hostQueue) (n := s.draws) hb h t.hostSide
      split at h
      · rcases statusAgainst_next h with ha | ⟨w, hw, rfl | rfl⟩
        · exact .of_hostAct hq ha
        · exact .of_runCommand hb hw w.statusBeforeBusyFalls.hostSide
        · exact .of_runCommand hb hw (State.hostSide { w with hostQueue := a :: rest })
      split at h
      · cases h
      · exact .of_hostAct (n := s.draws) hq h
  · split at h
    · cases h; exact .access (m := s.mem) id rfl
    · rename_i hq; exact .of_hostAct (n := s.draws) hq h

/-! ### The invariant -/

/-- `Inv` looks at MEM's form, RESULT's format, the index registers, BASE and BOUND. -/
theorem Inv.congr (hs : Inv s) (hm : t.mem.wf = true) (hr : ResultInv t) (h1 : t.head = s.head)
    (h2 : t.tail = s.tail) (h3 : t.length = s.length) (h4 : t.capacity = s.capacity) (h5 : t.base = s.base)
    (h6 : t.bound = s.bound) : Inv t := by
  refine ⟨hm, fun hb => (hs.bound_inv (h6 ▸ hb)).congr h1 h2 h3 h4, fun hb => ?_, hr⟩
  obtain ⟨a, b, c, d, e⟩ := hs.unbound_inv (h6 ▸ hb)
  exact ⟨h1.trans a, h2.trans b, h3.trans c, h4.trans d, h5.trans e⟩

/-- The host's side does not matter to the invariant. -/
theorem Inv.of_withHostSide {u : State} {e : HostSide} (hu : Inv u) (ht : t = u.withHostSide e) : Inv t := by
  subst ht
  exact hu.congr hu.mem_wf ⟨hu.result_inv.reserved_eq, hu.result_inv.status_le⟩ rfl rfl rfl rfl rfl rfl

/-- Writing RESULT keeps the invariant. -/
theorem Inv.setResult (hs : Inv s) (d : Nat) (st : Status) : Inv { s with result := resultWord d st } :=
  hs.congr hs.mem_wf (resultInv_of_eq rfl) rfl rfl rfl rfl rfl rfl

/-- A bound state with INV1 to INV5 and an OK in RESULT is in good order. -/
theorem Inv.of_bound {d : Nat} (hm : t.mem.wf = true) (hb : t.bound = true) (hi : BufferInv t)
    (hr : t.result = resultWord d .ok) : Inv t :=
  ⟨hm, fun _ => hi, fun h => (by rw [hb] at h; cases h), resultInv_of_eq hr⟩

/-- The registers that a successful INIT leaves satisfy INV1 to INV5 (10_state.md R20). -/
theorem bufferInv_of_empty (hc : 2 ≤ s.capacity.toNat) (h1 : s.head = 0) (h2 : s.tail = 0) (h3 : s.length = 0) :
    BufferInv s := by
  have h0 : 0 < s.capacity.toNat := by omega
  exact ⟨hc, by simpa [h1] using h0, by simpa [h2] using h0, by simp [h3], by simp [h1, h2, h3]⟩

/-- Every command keeps the machine in good order. -/
theorem exec_keeps_inv {i : Instr} (hs : Inv s) (h : exec i s = .next t) : Inv t := by
  cases exec_next h with
  | report d st => exact hs.setResult d st
  | bind hinit hcap => exact .of_bound hs.mem_wf rfl (bufferInv_of_empty hcap rfl rfl rfl) rfl
  | store hb hm hn hx =>
    have hi := hs.bound_inv hb
    obtain ⟨-, -, hi'⟩ := stored_inv hi (hn hi) (hx hi)
    exact .of_bound (hm hs.mem_wf) hb (hi'.congr rfl rfl rfl rfl) rfl
  | consume hb hm hn hx =>
    have hi := hs.bound_inv hb
    obtain ⟨-, -, hi'⟩ := consumed_inv hi hn (hx hi)
    exact .of_bound (hm hs.mem_wf) hb (hi'.congr rfl rfl rfl rfl) rfl

/-- The reset registers are in good order. -/
theorem inv_resetRegisters (hm : s.mem.wf = true) : Inv s.resetRegisters :=
  ⟨hm, fun h => (nomatch h), fun _ => ⟨rfl, rfl, rfl, rfl, rfl⟩, resultInv_of_eq (d := 0) (st := .ok) rfl⟩

/-! ### The binding -/

/-- No command unbinds the buffer (10_state.md R16). -/
theorem exec_keeps_bound {i : Instr} (hb : s.bound = true) (h : exec i s = .next t) : t.bound = true := by
  cases exec_next h with
  | report d st => exact hb
  | bind _ _ => rfl
  | store _ _ _ _ => exact hb
  | consume _ _ _ _ => exact hb

/-- A command keeps CAPACITY and BASE, or is an INIT whose operands they now hold (10_state.md R14, R15). -/
theorem exec_binding {i : Instr} (h : exec i s = .next t) :
    (t.capacity = s.capacity ∧ t.base = s.base) ∨
      ∃ base cap, i = .init base cap ∧ 2 ≤ cap.toNat ∧ t.capacity = cap ∧ t.base = base := by
  cases exec_next h with
  | report d st => exact .inl ⟨rfl, rfl⟩
  | bind hinit hcap => exact .inr ⟨_, _, hinit, hcap, rfl, rfl⟩
  | store _ _ _ _ => exact .inl ⟨rfl, rfl⟩
  | consume _ _ _ _ => exact .inl ⟨rfl, rfl⟩

end

/-! ### The statements about steps -/

/-- Settles O41, by what a step can be: a reset starts afresh, a command keeps the invariant, and nothing else touches
the engine's registers but the RESULT of an illegal word. -/
theorem stepKeepsInv : Obligations.StepKeepsInv := by
  intro s t hs h
  cases step_next h with
  | @access m hm ht =>
    have hi : Inv { s with mem := m } :=
      hs.congr (hm hs.mem_wf) ⟨hs.result_inv.reserved_eq, hs.result_inv.status_le⟩ rfl rfl rfl rfl rfl rfl
    exact hi.of_withHostSide ht
  | reset hq hm ht => exact (inv_resetRegisters (hm hs.mem_wf)).of_withHostSide ht
  | command hb hd hu ht => exact (exec_keeps_inv hs hu).of_withHostSide ht
  | illegal hb hd ht => exact (hs.setResult 0 .illegalCommand).of_withHostSide ht

/-- Settles O48: of what a step can be, only a reset clears BOUND. -/
theorem onlyResetUnbinds : Obligations.OnlyResetUnbinds := by
  intro s t hb h hf
  suffices hr : t.bound = true ∨ ∃ v rest, s.hostQueue = .reset v :: rest by
    rcases hr with ht | hr
    · rw [hf] at ht; cases ht
    · exact hr
  cases step_next h with
  | access hm ht => rw [ht]; exact .inl hb
  | reset hq hm ht => exact .inr ⟨_, _, hq⟩
  | command hbusy hd hu ht =>
    have hbu := exec_keeps_bound hb hu
    rw [ht]
    exact .inl hbu
  | illegal hbusy hd ht => rw [ht]; exact .inl hb

/-- Settles O49: of what a step can be, a reset and a command can change the binding, and of the commands only INIT. -/
theorem onlyInitAndResetChangeTheBinding : Obligations.OnlyInitAndResetChangeTheBinding := by
  intro s t h hne
  have hsame : ¬ (t.capacity = s.capacity ∧ t.base = s.base) := fun ⟨hc, hbase⟩ => hne.elim (· hc) (· hbase)
  cases step_next h with
  | access hm ht => rw [ht] at hsame; exact absurd ⟨rfl, rfl⟩ hsame
  | reset hq hm ht => exact .inl ⟨_, _, hq⟩
  | command hb hd hu ht =>
    rw [ht] at hsame ⊢
    rcases exec_binding hu with hk | ⟨base, cap, rfl, hcap, hc, hbase⟩
    · exact absurd hk hsame
    · exact .inr ⟨base, cap, hb, hd, hcap, hc, hbase⟩
  | illegal hb hd ht => rw [ht] at hsame; exact absurd ⟨rfl, rfl⟩ hsame

end Sys2Proof.Machine
end

section
/-! What commands read and leave unchanged, and the window as a queue. -/

namespace Sys2Proof.Machine

/-- Every command but INIT stands behind the shared checks (60_exceptions.md R154). -/
theorem exec_eq_whenBound {i : Instr} (hi : ∀ base cap, i ≠ .init base cap) (s : State) :
    ∃ c e, exec i s = s.whenBound c e := by
  cases i with
  | init base cap => exact absurd rfl (hi base cap)
  | getLen => exact ⟨none, .next (s.ok s.length.toNat), rfl⟩
  | getFree => exact ⟨none, .next (s.ok s.freeCount), rfl⟩
  | _ => exact ⟨_, _, rfl⟩

/-- Settles O35: the binding is the first of the shared checks. -/
theorem unboundCommandsEndWithNotInitialized : Obligations.UnboundCommandsEndWithNotInitialized := by
  intro i s hb hi
  obtain ⟨c, e, he⟩ := exec_eq_whenBound hi s
  rw [he, whenBound_unbound hb]
  rfl

/-- Settles O39: each command's checks and moves are the same terms with RESULT replaced, and its end overwrites RESULT;
for FIND_KEYWORD the search does not look at RESULT. -/
theorem noCommandReadsResult : Obligations.NoCommandReadsResult := by
  intro i r s
  cases i with
  | findKeyword v klen =>
    have hs := scan_congr (s := s) (t := { s with result := r }) rfl rfl rfl rfl rfl v klen.toNat
    rw [exec_findKeyword, exec_findKeyword, execFindKeyword, execFindKeyword, hs]
    rfl
  | _ => rfl

/-- Settles O40: a command commutes with putting in another host's side, so it neither reads nor changes it. -/
theorem noCommandTouchesTheHostRegisters : Obligations.NoCommandTouchesTheHostRegisters := by
  intro i s t lo hi b q h
  have hk := exec_keeps_hostSide h
  simp only [State.hostSide, HostSide.mk.injEq] at hk
  obtain ⟨hlo, hhi, hbusy, hq, hread, hdraws⟩ := hk
  refine ⟨hlo, hhi, hbusy, hq, ?_⟩
  have hw := exec_withHostSide s ⟨lo, hi, b, q, s.readData, s.draws⟩ i
  have ht : t.withHostSide ⟨lo, hi, b, q, s.readData, s.draws⟩ =
      { t with cmdLo := lo, cmdHi := hi, busy := b, hostQueue := q } := by rw [← hread, ← hdraws]; rfl
  rw [h, mapNext, ht] at hw
  exact hw

/-- A transfer behind the shared checks changes no byte outside its destinations. -/
theorem transfer_frame {s t : State} {c : Option Status} {vs : List Move} {f : State → State} (hm : s.mem.wf = true)
    (h : s.whenBound c (s.afterMoves vs f) = .next t) (hf : ∀ u, (f u).mem = u.mem) {a : Nat}
    (ha : ∀ v ∈ vs, a ≠ v.dst.toNat) : t.mem.read a = s.mem.read a := by
  rcases transfer_next h with ⟨st, rfl⟩ | ⟨-, -, rfl⟩
  · rfl
  · rw [hf]
    exact runMoves_frame vs hm fun v hv => (ha v hv).symm

/-- Settles O43, command by command: a failure writes RESULT only, and what passes its checks makes the named updates,
where a transfer changes no byte outside its destinations. -/
theorem commandsWriteOnlyWhatTheMatrixNames : Obligations.CommandsWriteOnlyWhatTheMatrixNames := by
  intro s t hm
  refine ⟨fun base cap h => ?init, fun h => ?readByte, fun len h => ?delete, fun v klen h => ?findKeyword,
    fun h => ?getLen, fun h => ?getFree, fun b h => ⟨?writeByte, fun a ha => ?writeByteMem⟩,
    fun src len h => ⟨?writeBlock, fun a ha => ?writeBlockMem⟩,
    fun v klen h => ⟨?insertKeyword, fun a ha => ?insertKeywordMem⟩,
    fun dst len h => ⟨?readBlock, fun a ha => ?readBlockMem⟩⟩
  case init => rcases exec_init_next h with rfl | ⟨-, rfl⟩ <;> rfl
  case readByte => rcases exec_readByte_next h with ⟨st, rfl⟩ | ⟨-, -, b, rfl⟩ <;> rfl
  case delete => rcases exec_delete_next h with ⟨st, rfl⟩ | ⟨-, -, rfl⟩ <;> rfl
  case findKeyword => obtain ⟨d, st, rfl⟩ := exec_findKeyword_next h; rfl
  case getLen => rcases exec_getLen_next h with ⟨st, rfl⟩ | rfl <;> rfl
  case getFree => rcases exec_getFree_next h with ⟨st, rfl⟩ | rfl <;> rfl
  case writeByte => rcases transfer_next h with ⟨st, rfl⟩ | ⟨-, -, rfl⟩ <;> rfl
  case writeByteMem => exact transfer_frame hm h (fun _ => rfl) (by simpa [State.byteMoves] using ha)
  case writeBlock => rcases transfer_next h with ⟨st, rfl⟩ | ⟨-, -, rfl⟩ <;> rfl
  case writeBlockMem => exact transfer_frame hm h (fun _ => rfl) (by simpa [State.blockInMoves] using ha)
  case insertKeyword => rcases transfer_next h with ⟨st, rfl⟩ | ⟨-, -, rfl⟩ <;> rfl
  case insertKeywordMem => exact transfer_frame hm h (fun _ => rfl) (by simpa [State.keywordMoves] using ha)
  case readBlock => rcases transfer_next h with ⟨st, rfl⟩ | ⟨-, -, rfl⟩ <;> rfl
  case readBlockMem => exact transfer_frame hm h (fun _ => rfl) (by simpa [State.blockOutMoves] using ha)

/-! ### The window as a queue, one lemma per command that moves bytes -/

section

variable {s t : State}

/-- RESULT is no part of the window. -/
theorem window_setResult (s : State) (r : Word) : State.window { s with result := r } = s.window := rfl

/-- A window that is not empty begins with the byte at HEAD (10_state.md R11). -/
theorem window_eq_cons (hi : BufferInv s) (hl : 0 < s.length.toNat) :
    s.window = s.mem.read (s.sAddr s.head.toNat).toNat :: s.window.drop 1 := by
  have hadv : adv s.cap s.head.toNat 0 = s.head.toNat := adv_zero hi.head_lt
  have hd := List.drop_eq_getElem_cons (i := 0) (l := s.window) (by simpa using hl)
  simpa [State.window, State.windowByte, State.windowAddr, hadv] using hd

/-- WRITE_BYTE's store leaves the bytes of the window. -/
theorem writeByte_old (hm : s.mem.wf = true) (hi : BufferInv s) (hl : s.length.toNat < s.capacity.toNat - 1) (b : Byte)
    {k : Nat} (hk : k < s.length.toNat) :
    (s.mem.write (s.sAddr s.tail.toNat).toNat b).read (s.windowAddr k).toNat = s.mem.read (s.windowAddr k).toNat := by
  rw [read_write_word hm, tailByte_window hi hl, if_neg]
  intro h
  have := windowAddr_inj hi (by omega) (by omega) h
  omega

/-- WRITE_BYTE's store puts its byte after the window. -/
theorem writeByte_new (hm : s.mem.wf = true) (hi : BufferInv s) (hl : s.length.toNat < s.capacity.toNat - 1)
    (b : Byte) :
    (s.mem.write (s.sAddr s.tail.toNat).toNat b).read (s.windowAddr s.length.toNat).toNat = b := by
  rw [← tailByte_window hi hl]
  exact Memory.read_write_same hm _ b

variable (hm : s.mem.wf = true) (hb : s.bound = true) (hi : BufferInv s) (ha : AdmitsAll s.platform)

include hm hb hi ha

/-- 41_byte.md R81. -/
theorem writeByte_appends {b : Byte} (h : exec (.writeByte b) s = .next t) (hs : statusField t.result = 0) :
    t.window = s.window ++ [b] := by
  have hl : s.length.toNat < s.capacity.toNat - 1 :=
    Nat.lt_of_le_of_ne hi.length_le (writeByteCheck_none.mp (check_none_of_ok hb writeByteCheck_ne_ok h hs))
  rw [execWriteByte_admitted hb hi hl (ha _ _)] at h
  cases h
  refine window_stored hi (n := 1) (by omega) (fun _ => b) rfl (fun k => writeByte_old hm hi hl b) fun k hk => ?_
  rw [Nat.lt_one_iff.mp hk]
  exact writeByte_new hm hi hl b

/-- 42_block.md R92, R95. -/
theorem writeBlock_appends {src : Word} {len : Half} (h : exec (.writeBlock src len) s = .next t)
    (hs : statusField t.result = 0) (ho : BufferOutsideStorage s src len.toNat) :
    t.window = s.window ++ (List.range len.toNat).map (s.bufferByte src) := by
  have hl := spaceCheck_none.mp (check_none_of_ok hb spaceCheck_ne_ok h hs)
  rw [execWriteBlock_admitted hb hi hl (accessesAdmitted_of_all ha _)] at h
  cases h
  exact window_stored hi hl _ rfl (fun k => blockIn_old hm hi src hl) fun k => blockIn_new hm hi src hl ho

/-- 44_keyword.md R121. -/
theorem insertKeyword_appends {v : Word} {klen : BitVec 3} (h : exec (.insertKeyword v klen) s = .next t)
    (hs : statusField t.result = 0) :
    t.window = s.window ++ (List.range klen.toNat).map (keywordByte v klen.toNat) := by
  obtain ⟨⟨h1, h4⟩, hl⟩ := insertKeywordCheck_none.mp (check_none_of_ok hb insertKeywordCheck_ne_ok h hs)
  rw [execInsertKeyword_admitted hb hi h1 h4 hl (accessesAdmitted_of_all ha _)] at h
  cases h
  exact window_stored hi hl _ rfl (fun k => keyword_old hm hi v hl) fun k => keyword_new hm hi v hl

/-- 42_block.md R98. -/
theorem readBlock_takes {dst : Word} {len : Half} (h : exec (.readBlock dst len) s = .next t)
    (hs : statusField t.result = 0) (ho : BufferOutsideStorage s dst len.toNat) :
    t.window = s.window.drop len.toNat ∧
      (List.range len.toNat).map (t.bufferByte dst) = s.window.take len.toNat := by
  have hl := dataCheck_none.mp (check_none_of_ok hb dataCheck_ne_ok h hs)
  rw [execReadBlock_admitted hb hi hl (accessesAdmitted_of_all ha _)] at h
  cases h
  constructor
  · refine window_consumed hi hl rfl fun k hk => blockOut_old hm dst ho (windowAddr_inStorage hi ?_)
    have := hi.length_le
    omega
  · rw [State.window, ← List.map_take, List.take_range, Nat.min_eq_left hl]
    exact List.map_congr_left fun k hk => blockOut_new hm hi dst hl ho (List.mem_range.mp hk)

omit hm in
/-- 41_byte.md R84. -/
theorem readByte_takes (h : exec .readByte s = .next t) (hs : statusField t.result = 0) :
    ∃ b, s.window = b :: t.window ∧ (dataField t.result).toNat = b.toNat := by
  have hl := readByteCheck_none.mp (check_none_of_ok hb readByteCheck_ne_ok h hs)
  rw [execReadByte_admitted hb hi hl (ha _ _)] at h
  cases h
  have hlt : (s.mem.read (s.sAddr s.head.toNat).toNat).toNat < 2 ^ 24 := Nat.lt_trans (BitVec.isLt _) (by decide)
  refine ⟨s.mem.read (s.sAddr s.head.toNat).toNat, ?_, dataField_resultWord hlt .ok⟩
  rw [window_consumed hi hl (m := s.mem) rfl fun _ _ => rfl]
  exact window_eq_cons hi hl

omit hm ha in
/-- 43_delete.md R111. -/
theorem delete_drops {len : Half} (h : exec (.delete len) s = .next t) (hs : statusField t.result = 0) :
    t.window = s.window.drop len.toNat := by
  have hl := dataCheck_none.mp (check_none_of_ok hb dataCheck_ne_ok h hs)
  rw [execDelete_passed hb hi hl] at h
  cases h
  exact window_consumed hi hl (m := s.mem) rfl fun _ _ => rfl

end

/-- Settles O47: the commands that move bytes by their lemmas above; the others leave the window's registers and MEM, or
set LENGTH to 0. -/
theorem commandsActOnTheWindowAsAQueue : Obligations.CommandsActOnTheWindowAsAQueue := by
  intro s t hm hb hi ha
  refine ⟨fun b => writeByte_appends hm hb hi ha, readByte_takes hb hi ha,
    fun src len => writeBlock_appends hm hb hi ha, fun dst len => readBlock_takes hm hb hi ha,
    fun len => delete_drops hb hi, fun v klen => insertKeyword_appends hm hb hi ha,
    fun v klen h => ?findKeyword, fun h => ?getLen, fun h => ?getFree, fun base cap h hs => ?init⟩
  case findKeyword =>
    obtain ⟨d, st, rfl⟩ := exec_findKeyword_next h
    exact window_setResult s _
  case getLen =>
    rw [exec_getLen, execGetLen, whenBound_passed hb] at h
    cases h
    rw [window_length]
    exact ⟨window_setResult s _, dataField_resultWord (by have := half_lt s.length; omega) .ok⟩
  case getFree =>
    rw [exec_getFree, execGetFree, whenBound_passed hb] at h
    cases h
    rw [window_length]
    have hlt : s.freeCount < 2 ^ 24 := by
      have := half_lt s.capacity
      unfold State.freeCount
      omega
    exact ⟨window_setResult s _, dataField_resultWord hlt .ok⟩
  case init =>
    rcases exec_init_next h with rfl | ⟨-, rfl⟩
    · exact absurd (fail_status.mp hs) (by decide)
    · rfl

end Sys2Proof.Machine
end

section
/-! That MemAdmit is asked before each access (20_memory.md R36): nothing else stops a command, the first access that is
not admitted does, and a command that goes on made admitted accesses only. -/

namespace Sys2Proof.Machine

/-! ### Nothing else stops a command -/

/-- The fault is an access that the platform does not admit (20_memory.md R36). -/
def Fault.Denied (p : Platform) (r : Fault) : Prop := ∃ k a, r = .stuck k a ∧ admits p a k = false

/-- An outcome is no refusal, and a fault only of an access that the platform does not admit. -/
def StopsOnlyWhereDenied (p : Platform) (o : Host.Outcome State Fault Refusal) : Prop :=
  (∀ r, o ≠ .refused r) ∧ ∀ r, o = .fault r → r.Denied p

theorem stopsOnlyWhereDenied_next (p : Platform) (t : State) : StopsOnlyWhereDenied p (.next t) :=
  ⟨fun _ h => (nomatch h), fun _ h => nomatch h⟩

theorem stopsOnlyWhereDenied_fault {p : Platform} {r : Fault} (h : r.Denied p) : StopsOnlyWhereDenied p (.fault r) :=
  ⟨fun _ h => (nomatch h), fun _ hr => by cases hr; exact h⟩

/-- A read that delivers no byte is stuck at an access the platform does not admit. -/
theorem memRead_error {p : Platform} {m : Memory} {a : Word} {r : Fault} (h : memRead p m a = .error r) :
    r.Denied p := by
  unfold memRead at h
  split at h
  · cases h
  · rename_i ha
    cases h
    exact ⟨_, _, rfl, by simpa using ha⟩

section

variable {s : State}

theorem whenBound_stopsOnlyWhereDenied (c : Option Status) {e : Host.Outcome State Fault Refusal}
    (he : StopsOnlyWhereDenied s.platform e) : StopsOnlyWhereDenied s.platform (s.whenBound c e) := by
  obtain ⟨hrefused, hfault⟩ := he
  constructor
  · intro r h
    obtain ⟨-, -, he⟩ := whenBound_refused h
    exact hrefused r he
  · intro r h
    obtain ⟨-, -, he⟩ := whenBound_fault h
    exact hfault r he

theorem afterMoves_stopsOnlyWhereDenied (vs : List Move) (f : State → State) :
    StopsOnlyWhereDenied s.platform (s.afterMoves vs f) :=
  ⟨fun _ => afterMoves_refused, fun _ h => runMoves_stuck vs (afterMoves_fault h)⟩

/-- A transfer behind the shared checks. -/
theorem transfer_stopsOnlyWhereDenied (c : Option Status) (vs : List Move) (f : State → State) :
    StopsOnlyWhereDenied s.platform (s.whenBound c (s.afterMoves vs f)) :=
  whenBound_stopsOnlyWhereDenied c (afterMoves_stopsOnlyWhereDenied vs f)

end

/-- Every command, by what stands behind its checks: a next state, a transfer, READ_BYTE's one read or the search. -/
theorem exec_stopsOnlyWhereDenied (i : Instr) (s : State) : StopsOnlyWhereDenied s.platform (exec i s) := by
  cases i with
  | init base cap =>
    rw [exec_init, execInit]
    cases initCheck cap <;> exact stopsOnlyWhereDenied_next _ _
  | writeByte b => exact transfer_stopsOnlyWhereDenied _ _ _
  | readByte =>
    apply whenBound_stopsOnlyWhereDenied
    split
    · rename_i r hr
      exact stopsOnlyWhereDenied_fault (memRead_error hr)
    · exact stopsOnlyWhereDenied_next _ _
  | writeBlock src len => exact transfer_stopsOnlyWhereDenied _ _ _
  | readBlock dst len => exact transfer_stopsOnlyWhereDenied _ _ _
  | delete len => exact whenBound_stopsOnlyWhereDenied _ (stopsOnlyWhereDenied_next _ _)
  | insertKeyword v klen => exact transfer_stopsOnlyWhereDenied _ _ _
  | findKeyword v klen =>
    apply whenBound_stopsOnlyWhereDenied
    split
    · rename_i r hr
      exact stopsOnlyWhereDenied_fault (scan_error hr)
    · exact stopsOnlyWhereDenied_next _ _
    · exact stopsOnlyWhereDenied_next _ _
  | getLen => exact whenBound_stopsOnlyWhereDenied none (stopsOnlyWhereDenied_next _ (s.ok s.length.toNat))
  | getFree => exact whenBound_stopsOnlyWhereDenied none (stopsOnlyWhereDenied_next _ (s.ok s.freeCount))

/-- Settles O45: the shared checks, a transfer, a read and the search each stop only where an access is not admitted. -/
theorem onlyAnInadmissibleAccessStopsACommand : Obligations.OnlyAnInadmissibleAccessStopsACommand :=
  exec_stopsOnlyWhereDenied

/-! ### The first access that is not admitted stops a command -/

/-- A copy of `n` bytes whose accesses before byte k are admitted is stuck at byte k, at its read or at its write
(20_memory.md R41). -/
theorem runMoves_copy_stuck {p : Platform} (src dst : Nat → Word) (m : Memory) {n k : Nat} (hk : k < n)
    (hbefore : ∀ j < k, admits p (src j) .read = true ∧ admits p (dst j) .write = true) :
    (admits p (src k) .read = false →
      (runMoves p ((List.range n).map fun j => ⟨.mem (src j), dst j⟩) m).stuck = some (.stuck .read (src k))) ∧
    (admits p (src k) .read = true → admits p (dst k) .write = false →
      (runMoves p ((List.range n).map fun j => ⟨.mem (src j), dst j⟩) m).stuck = some (.stuck .write (dst k))) := by
  obtain ⟨hread, hwrite⟩ := runMoves_range_stuck (p := p) (fun j => ⟨.mem (src j), dst j⟩) m hk
    (fun j hj => (hbefore j hj).2) (fun j hj a ha => by cases ha; exact (hbefore j hj).1)
  exact ⟨hread _ rfl, fun hr => hwrite fun a ha => by cases ha; exact hr⟩

section

variable {s : State}

/-- A transfer behind checks that pass, stuck at a move, ends the command there. -/
theorem transfer_stuck {c : Option Status} {vs : List Move} {r : Fault} (hb : s.bound = true) (hc : c = none)
    (h : (runMoves s.platform vs s.mem).stuck = some r) (f : State → State) :
    s.whenBound c (s.afterMoves vs f) = .fault r := by
  rw [hc, whenBound_passed hb, afterMoves_stuck h]

/-- Byte k of a read of no more than LENGTH bytes is at storage offset (HEAD + k) mod C (20_memory.md R39). -/
theorem headAddr_mod (hi : BufferInv s) {n k : Nat} (hn : n ≤ s.length.toNat) (hk : k < n) :
    s.headAddr n k = s.sAddr ((s.head.toNat + k) % s.capacity.toNat) := by
  have := hi.length_le
  rw [headAddr_eq hi hk, windowAddr_mod hi (by omega)]

variable (hb : s.bound = true) (hi : BufferInv s)

include hb

theorem writeByte_stuck (b : Byte) (hl : s.length.toNat < s.capacity.toNat - 1)
    (ha : admits s.platform (s.sAddr s.tail.toNat) .write = false) :
    exec (.writeByte b) s = .fault (.stuck .write (s.sAddr s.tail.toNat)) := by
  obtain ⟨-, hwrite⟩ := runMoves_cons_stuck (p := s.platform) ⟨.value b, s.sAddr s.tail.toNat⟩ [] s.mem
  exact transfer_stuck hb (writeByteCheck_none.mpr (by omega)) (hwrite (fun _ h => nomatch h) ha) _

theorem readByte_stuck (hl : 0 < s.length.toNat) (ha : admits s.platform (s.sAddr s.head.toNat) .read = false) :
    exec .readByte s = .fault (.stuck .read (s.sAddr s.head.toNat)) := by
  have hr : memRead s.platform s.mem (s.sAddr s.head.toNat) = .error (.stuck .read (s.sAddr s.head.toNat)) := by
    simp [memRead, ha]
  rw [exec_readByte, execReadByte, readByteCheck_none.mpr hl, whenBound_passed hb, hr]

include hi

theorem writeBlock_stuck (src : Word) (len : Half) (k : Nat)
    (hl : s.length.toNat + len.toNat ≤ s.capacity.toNat - 1) (hk : k < len.toNat)
    (hbefore : ∀ j < k, admits s.platform (bufAddr src j) .read = true ∧
      admits s.platform (s.sAddr ((s.tail.toNat + j) % s.capacity.toNat)) .write = true) :
    (admits s.platform (bufAddr src k) .read = false →
      exec (.writeBlock src len) s = .fault (.stuck .read (bufAddr src k))) ∧
    (admits s.platform (bufAddr src k) .read = true →
      admits s.platform (s.sAddr ((s.tail.toNat + k) % s.capacity.toNat)) .write = false →
      exec (.writeBlock src len) s =
        .fault (.stuck .write (s.sAddr ((s.tail.toNat + k) % s.capacity.toNat)))) := by
  have hc := spaceCheck_none.mpr hl
  obtain ⟨hread, hwrite⟩ := runMoves_copy_stuck (p := s.platform) (bufAddr src) (s.tailAddr len.toNat) s.mem hk
    fun j hj => by rw [tailAddr_eq hi hl (by omega)]; exact hbefore j hj
  rw [← tailAddr_eq hi hl hk]
  exact ⟨fun hr => transfer_stuck hb hc (hread hr) _, fun hr hw => transfer_stuck hb hc (hwrite hr hw) _⟩

theorem readBlock_stuck (dst : Word) (len : Half) (k : Nat) (hl : len.toNat ≤ s.length.toNat) (hk : k < len.toNat)
    (hbefore : ∀ j < k, admits s.platform (s.sAddr ((s.head.toNat + j) % s.capacity.toNat)) .read = true ∧
      admits s.platform (bufAddr dst j) .write = true) :
    (admits s.platform (s.sAddr ((s.head.toNat + k) % s.capacity.toNat)) .read = false →
      exec (.readBlock dst len) s =
        .fault (.stuck .read (s.sAddr ((s.head.toNat + k) % s.capacity.toNat)))) ∧
    (admits s.platform (s.sAddr ((s.head.toNat + k) % s.capacity.toNat)) .read = true →
      admits s.platform (bufAddr dst k) .write = false →
      exec (.readBlock dst len) s = .fault (.stuck .write (bufAddr dst k))) := by
  have hc := dataCheck_none.mpr hl
  obtain ⟨hread, hwrite⟩ := runMoves_copy_stuck (p := s.platform) (s.headAddr len.toNat) (bufAddr dst) s.mem hk
    fun j hj => by rw [headAddr_mod hi hl (by omega)]; exact hbefore j hj
  rw [← headAddr_mod hi hl hk]
  exact ⟨fun hr => transfer_stuck hb hc (hread hr) _, fun hr hw => transfer_stuck hb hc (hwrite hr hw) _⟩

theorem insertKeyword_stuck (v : Word) (klen : BitVec 3) (k : Nat) (h1 : 1 ≤ klen.toNat) (h4 : klen.toNat ≤ 4)
    (hl : s.length.toNat + klen.toNat ≤ s.capacity.toNat - 1) (hk : k < klen.toNat)
    (hbefore : ∀ j < k, admits s.platform (s.sAddr ((s.tail.toNat + j) % s.capacity.toNat)) .write = true)
    (ha : admits s.platform (s.sAddr ((s.tail.toNat + k) % s.capacity.toNat)) .write = false) :
    exec (.insertKeyword v klen) s =
      .fault (.stuck .write (s.sAddr ((s.tail.toNat + k) % s.capacity.toNat))) := by
  have hc := insertKeywordCheck_none.mpr ⟨⟨h1, h4⟩, hl⟩
  obtain ⟨-, hwrite⟩ := runMoves_range_stuck (p := s.platform)
    (fun j => ⟨.value (keywordByte v klen.toNat j), s.tailAddr klen.toNat j⟩) s.mem hk
    (fun j hj => by rw [tailAddr_eq hi hl (by omega)]; exact hbefore j hj) (fun _ _ _ h => nomatch h)
  rw [← tailAddr_eq hi hl hk] at ha ⊢
  exact transfer_stuck hb hc (hwrite (fun _ h => nomatch h) ha) _

/-- The first read of a search is that of the oldest byte, at SAddr(HEAD) (44_keyword.md R127). -/
theorem findKeyword_stuck (v : Word) (klen : BitVec 3) (h1 : 1 ≤ klen.toNat) (h4 : klen.toNat ≤ 4)
    (hl : klen.toNat ≤ s.length.toNat) (ha : admits s.platform (s.sAddr s.head.toNat) .read = false) :
    exec (.findKeyword v klen) s = .fault (.stuck .read (s.sAddr s.head.toNat)) := by
  have hc := findKeywordCheck_none.mpr ⟨⟨h1, h4⟩, hl⟩
  have hfirst : adv s.cap s.head.toNat 0 = s.head.toNat := adv_zero hi.head_lt
  have hs (n : Nat) : s.scan v klen.toNat (n + 1) 0 = .error (.stuck .read (s.sAddr s.head.toNat)) := by
    simp [State.scan, State.candidateMatches, hfirst, memRead, ha]
  rw [exec_findKeyword, execFindKeyword, hc, whenBound_passed hb, hs]

end

/-- Settles O46, by the lemmas above, one for each command that accesses MEM. -/
theorem inadmissibleAccessIsStuck : Obligations.InadmissibleAccessIsStuck :=
  fun _ hb hi => ⟨writeByte_stuck hb, readByte_stuck hb, writeBlock_stuck hb hi, readBlock_stuck hb hi,
    insertKeyword_stuck hb hi, findKeyword_stuck hb hi⟩

/-! ### A command that goes on made admitted accesses only -/

section

variable {s t : State}

/-- A command whose only accesses are those of its moves. -/
theorem accessesAdmitted_of_moves {i : Instr} (hreads : commandReads i s = (commandMoves i s).filterMap Move.readAddr)
    (hw : ∀ v ∈ commandMoves i s, admits s.platform v.dst .write = true)
    (hr : ∀ v ∈ commandMoves i s, ∀ a, v.src = .mem a → admits s.platform a .read = true) :
    AccessesAdmitted i s where
  reads a ha := by
    rw [hreads] at ha
    obtain ⟨v, hv, hva⟩ := List.mem_filterMap.mp ha
    unfold Move.readAddr at hva
    split at hva
    · cases hva
      exact hr v hv a (by assumption)
    · cases hva
  writes a ha := by
    obtain ⟨v, hv, rfl⟩ := List.mem_map.mp ha
    exact hw v hv

/-- A command that accesses no MEM byte. -/
theorem accessesAdmitted_of_none {i : Instr} (hreads : commandReads i s = []) (hmoves : commandMoves i s = []) :
    AccessesAdmitted i s :=
  accessesAdmitted_of_moves (by rw [hreads, hmoves]; rfl) (by simp [hmoves]) (by simp [hmoves])

/-- A transfer behind the shared checks that goes on: a check failed and it made no move, or all its moves were
admitted. -/
theorem transfer_accessesAdmitted {i : Instr} {c : Option Status} {vs : List Move} {f : State → State}
    (hmoves : commandMoves i s = movesIfAdmitted s c vs)
    (hreads : commandReads i s = (commandMoves i s).filterMap Move.readAddr)
    (h : s.whenBound c (s.afterMoves vs f) = .next t) : AccessesAdmitted i s := by
  rcases whenBound_next h with ⟨hb, -⟩ | ⟨-, st, rfl, -⟩ | ⟨hb, rfl, he⟩
  · have hnone : commandMoves i s = [] := by simp [hmoves, movesIfAdmitted, hb]
    exact accessesAdmitted_of_none (by rw [hreads, hnone]; rfl) hnone
  · have hnone : commandMoves i s = [] := by simp [hmoves, movesIfAdmitted]
    exact accessesAdmitted_of_none (by rw [hreads, hnone]; rfl) hnone
  · have hall : commandMoves i s = vs := by simp [hmoves, movesIfAdmitted, hb]
    obtain ⟨hw, hr⟩ := runMoves_finished vs (afterMoves_next he).1
    exact accessesAdmitted_of_moves hreads (hall ▸ hw) (hall ▸ hr)

/-- READ_BYTE that goes on failed its checks, or read SAddr(HEAD) (41_byte.md R84). -/
theorem readByte_accessesAdmitted (h : exec .readByte s = .next t) : AccessesAdmitted .readByte s where
  reads a ha := by
    simp only [commandReads] at ha
    split at ha
    · rename_i hpass
      simp only [Bool.and_eq_true, Option.isNone_iff_eq_none] at hpass
      obtain ⟨hb, hc⟩ := hpass
      rw [List.mem_singleton.mp ha]
      rw [exec_readByte, execReadByte, hc, whenBound_passed hb] at h
      split at h
      · cases h
      · exact memRead_ok (by assumption)
    · cases ha
  writes a ha := nomatch ha

/-- The accesses of every command but FIND_KEYWORD, which may end before it has read its whole window. -/
theorem exec_accessesAdmitted {i : Instr} (hi : ∀ v klen, i ≠ .findKeyword v klen) (h : exec i s = .next t) :
    AccessesAdmitted i s := by
  cases i with
  | init base cap => exact accessesAdmitted_of_none rfl rfl
  | writeByte b => exact transfer_accessesAdmitted rfl rfl h
  | readByte => exact readByte_accessesAdmitted h
  | writeBlock src len => exact transfer_accessesAdmitted rfl rfl h
  | readBlock dst len => exact transfer_accessesAdmitted rfl rfl h
  | delete len => exact accessesAdmitted_of_none rfl rfl
  | insertKeyword v klen => exact transfer_accessesAdmitted rfl rfl h
  | findKeyword v klen => exact absurd rfl (hi v klen)
  | getLen => exact accessesAdmitted_of_none rfl rfl
  | getFree => exact accessesAdmitted_of_none rfl rfl

/-! ### The search -/

/-- The status that a RESULT word's status field shows. -/
theorem code_of_statusField {d : Nat} {st : Status} {x : BitVec 4} (h : statusField (resultWord d st) = x) :
    st.code = x.toNat := by
  rw [← h, statusField_resultWord]

/-- The match a search answers is one of its candidates (44_keyword.md R127). -/
theorem scan_some_lt {v : Word} {k n i j : Nat} (h : s.scan v k n i = .ok (some j)) : j < i + n := by
  induction n generalizing i with
  | zero => cases h
  | succ n ih =>
    rw [State.scan] at h
    split at h
    · cases h
    · cases h; omega
    · have := ih h; omega

/-- FIND_KEYWORD's checks report neither OK nor NotFound (44_keyword.md R127). -/
theorem findKeywordCheck_some_code {k : Nat} {st : Status} (h : findKeywordCheck s k = some st) :
    st.code ≠ 0 ∧ st.code ≠ 5 := by
  unfold findKeywordCheck keywordLengthCheck dataCheck at h
  split at h
  · cases h; decide
  · split at h
    · cases h; decide
    · cases h

/-- How FIND_KEYWORD goes on in a bound state: it failed a check, or its search found a match or none. -/
theorem exec_findKeyword_bound_next {v : Word} {klen : BitVec 3} (hb : s.bound = true)
    (h : exec (.findKeyword v klen) s = .next t) :
    (∃ st, findKeywordCheck s klen.toNat = some st ∧ t = s.fail st) ∨
      (klen.toNat ≤ s.length.toNat ∧
        ((∃ j, s.scan v klen.toNat (s.length.toNat - klen.toNat + 1) 0 = .ok (some j) ∧
            t = s.ok (j + klen.toNat)) ∨
          (s.scan v klen.toNat (s.length.toNat - klen.toNat + 1) 0 = .ok none ∧ t = s.fail .notFound))) := by
  rcases whenBound_next h with ⟨hf, -⟩ | ⟨-, st, hc, rfl⟩ | ⟨-, hc, he⟩
  · rw [hb] at hf; cases hf
  · exact .inl ⟨st, hc, rfl⟩
  · refine .inr ⟨(findKeywordCheck_none.mp hc).2, ?_⟩
    split at he
    · cases he
    · rename_i j hj
      cases he
      exact .inl ⟨j, hj, rfl⟩
    · rename_i hn
      cases he
      exact .inr ⟨hn, rfl⟩

/-- A search that ends OK has read the window up to the distance it returns, one that ends with NotFound every
candidate's first byte (44_keyword.md R127, R131). -/
theorem findKeyword_reads {v : Word} {klen : BitVec 3} (hb : s.bound = true) (hi : BufferInv s)
    (h : exec (.findKeyword v klen) s = .next t) :
    (statusField t.result = 0 →
      ∀ p < (dataField t.result).toNat, admits s.platform (s.windowAddr p) .read = true) ∧
    (statusField t.result = 5 →
      ∀ p, p + klen.toNat ≤ s.length.toNat → admits s.platform (s.windowAddr p) .read = true) := by
  rcases exec_findKeyword_bound_next hb h with ⟨st, hc, rfl⟩ | ⟨hl, ⟨j, hs, rfl⟩ | ⟨hs, rfl⟩⟩
  · obtain ⟨hok, hnotFound⟩ := findKeywordCheck_some_code hc
    exact ⟨fun hx => absurd (code_of_statusField hx) hok, fun hx => absurd (code_of_statusField hx) hnotFound⟩
  · refine ⟨fun _ p hp => ?_, fun hx => absurd (code_of_statusField hx) (by decide)⟩
    have hj := scan_some_lt hs
    have hlen := half_lt s.length
    rw [State.ok_result, dataField_resultWord (by omega)] at hp
    exact (scan_reads hi _ (by omega)).1 j hs p (Nat.zero_le p) hp
  · refine ⟨fun hx => absurd (code_of_statusField hx) (by decide), fun _ p hp => ?_⟩
    exact (scan_reads hi _ (by omega)).2 hs p (Nat.zero_le p) (by omega)

end

/-- Settles O60: a transfer that finished made admitted moves only, READ_BYTE read its byte, and the search read what it
went past. -/
theorem completedCommandMadeAdmittedAccesses : Obligations.CompletedCommandMadeAdmittedAccesses := by
  intro i s t h
  refine ⟨fun hi => exec_accessesAdmitted hi h, ?_⟩
  rintro v klen rfl hb hi
  exact findKeyword_reads hb hi h

end Sys2Proof.Machine
end

section
/-! The decoder, the encoder and the opcode map agree: the legal words are the encodings of the commands, which are the
words that the rows select (30_encoding.md R51 to R56). -/

namespace Sys2Proof

/-! ### A command's fields -/

/-- The fields that the opcode of a command does not use are zero in the word (30_encoding.md R53). -/
def Instr.UnusedZero (w : CmdWord) : Instr → Prop
  | .init _ _ => rsvField w = 0 ∧ klenField w = 0
  | .writeByte _ => valHighField w = 0 ∧ lenField w = 0 ∧ rsvField w = 0 ∧ klenField w = 0
  | .readByte => valField w = 0 ∧ lenField w = 0 ∧ rsvField w = 0 ∧ klenField w = 0
  | .writeBlock _ _ => rsvField w = 0 ∧ klenField w = 0
  | .readBlock _ _ => rsvField w = 0 ∧ klenField w = 0
  | .delete _ => valField w = 0 ∧ rsvField w = 0 ∧ klenField w = 0
  | .insertKeyword _ _ => lenField w = 0 ∧ rsvField w = 0
  | .findKeyword _ _ => lenField w = 0 ∧ rsvField w = 0
  | .getLen => valField w = 0 ∧ lenField w = 0 ∧ rsvField w = 0 ∧ klenField w = 0
  | .getFree => valField w = 0 ∧ lenField w = 0 ∧ rsvField w = 0 ∧ klenField w = 0

/-- The command with the same opcode whose operands are the fields of the word (30_encoding.md R52). -/
def Instr.withOperands (w : CmdWord) : Instr → Instr
  | .init _ _ => .init (valField w) (lenField w)
  | .writeByte _ => .writeByte (byteField w)
  | .readByte => .readByte
  | .writeBlock _ _ => .writeBlock (valField w) (lenField w)
  | .readBlock _ _ => .readBlock (valField w) (lenField w)
  | .delete _ => .delete (lenField w)
  | .insertKeyword _ _ => .insertKeyword (valField w) (klenField w)
  | .findKeyword _ _ => .findKeyword (valField w) (klenField w)
  | .getLen => .getLen
  | .getFree => .getFree

@[simp] theorem row_withOperands (w : CmdWord) (i : Instr) : (i.withOperands w).row = i.row := by cases i <;> rfl

/-- A packed word is `w` when its operands are the fields of `w` and RSV of `w` is zero. -/
theorem packWord_eq_iff {v : Word} {l : Half} {k : BitVec 3} {o : BitVec 4} {w : CmdWord} :
    packWord v l k o = w ↔ v = valField w ∧ l = lenField w ∧ 0 = rsvField w ∧ k = klenField w ∧ o = opcField w := by
  rw [word_eq_iff_fields, valField_packWord, lenField_packWord, rsvField_packWord, klenField_packWord,
    opcField_packWord]

/-- A word with a command's opcode and zero in the fields that it does not use is an encoding of that opcode. -/
theorem encode_withOperands {w : CmdWord} {i : Instr} (hz : i.UnusedZero w) (ho : opcField w = i.opcode) :
    encode (i.withOperands w) = w := by
  cases i with
  | init | writeBlock | readBlock =>
    obtain ⟨hr, hk⟩ := hz
    exact packWord_eq_iff.mpr ⟨rfl, rfl, hr.symm, hk.symm, ho.symm⟩
  | writeByte =>
    obtain ⟨hv, hl, hr, hk⟩ := hz
    exact packWord_eq_iff.mpr ⟨(valField_of_high_zero hv).symm, hl.symm, hr.symm, hk.symm, ho.symm⟩
  | readByte | getLen | getFree =>
    obtain ⟨hv, hl, hr, hk⟩ := hz
    exact packWord_eq_iff.mpr ⟨hv.symm, hl.symm, hr.symm, hk.symm, ho.symm⟩
  | delete =>
    obtain ⟨hv, hr, hk⟩ := hz
    exact packWord_eq_iff.mpr ⟨hv.symm, rfl, hr.symm, hk.symm, ho.symm⟩
  | insertKeyword | findKeyword =>
    obtain ⟨hl, hr⟩ := hz
    exact packWord_eq_iff.mpr ⟨rfl, hl.symm, hr.symm, rfl, ho.symm⟩

/-! ### Encoder and decoder -/

/-- The decoder reads a command's own fields out of its word. -/
theorem decode_encode (i : Instr) : decode (encode i) = .ok i := by
  cases i <;> simp [decode, encode, Instr.opcode, whenUnusedZero]

/-- A word that decodes has the command's opcode, zero in the fields that it does not use and its operands in the
others. -/
theorem fields_of_decode {w : CmdWord} {i : Instr} (h : decode w = .ok i) :
    i.UnusedZero w ∧ opcField w = i.opcode ∧ i.withOperands w = i := by
  unfold decode at h
  split at h
  case h_1 | h_12 => cases h
  all_goals
    rename_i ho
    obtain ⟨hz, rfl⟩ := whenUnusedZero_ok h
    refine ⟨?_, opcField_of_toNat ho, rfl⟩
    simp only [Bool.and_eq_true, beq_iff_eq] at hz
    simp [Instr.UnusedZero, hz]

/-- The legal words are the encodings. -/
theorem decode_eq_ok_iff {w : CmdWord} {i : Instr} : decode w = .ok i ↔ encode i = w := by
  constructor
  · intro h
    obtain ⟨hz, ho, hi⟩ := fields_of_decode h
    rw [← hi, encode_withOperands hz ho]
  · rintro rfl
    exact decode_encode i

/-! ### The opcode map -/

/-- The rows of the opcode map are the rows of the commands. -/
theorem mem_opcodeMap {r : OpcodeRow} : r ∈ opcodeMap ↔ ∃ i : Instr, i.row = r := by
  constructor
  · intro h
    simp only [opcodeMap, List.mem_cons, List.not_mem_nil, or_false] at h
    rcases h with rfl | rfl | rfl | rfl | rfl | rfl | rfl | rfl | rfl | rfl <;> exact ⟨_, rfl⟩
  · rintro ⟨i, rfl⟩
    cases i <;> simp [opcodeMap, Instr.row]

/-- A field under a mask of ones is the field: `BitVec.and_allOnes` for a mask written as a number. -/
theorem and_eq_of_allOnes {n : Nat} {x m : BitVec n} (hm : m = BitVec.allOnes n) : x &&& m = x := by
  rw [hm, BitVec.and_allOnes]

/-- The row of a command tests its opcode and the fields that it does not use (30_encoding.md R53, R54). The fields of
the row's two constants are computed; each is zero or all ones, but for the VAL of WRITE_BYTE's mask. -/
theorem row_selects_iff (i : Instr) (w : CmdWord) :
    i.row.selects w = true ↔ i.UnusedZero w ∧ opcField w = i.opcode := by
  have hv : valField w &&& 0xFFFFFF00#32 = 0#32 ↔ valHighField w = 0#24 := valField_high_mask w
  rw [selects_iff]
  cases i <;>
    simp +ground [Instr.row, Instr.UnusedZero, Instr.opcode, and_eq_of_allOnes, hv, and_assoc]

/-- A row of the map that selects a word is the row of the command the word decodes to. -/
theorem exists_decode_of_selects {w : CmdWord} {r : OpcodeRow} (hr : r ∈ opcodeMap) (hs : r.selects w = true) :
    ∃ i, decode w = .ok i ∧ i.row = r := by
  obtain ⟨i, rfl⟩ := mem_opcodeMap.mp hr
  obtain ⟨hz, ho⟩ := (row_selects_iff i w).mp hs
  exact ⟨i.withOperands w, decode_eq_ok_iff.mpr (encode_withOperands hz ho), row_withOperands w i⟩

/-- A word that decodes is selected by the row of its command. -/
theorem selects_of_decode {w : CmdWord} {i : Instr} (h : decode w = .ok i) : i.row.selects w = true := by
  obtain ⟨hz, ho, -⟩ := fields_of_decode h
  exact (row_selects_iff i w).mpr ⟨hz, ho⟩

/-- The opcodes of the commands are 1 to 0xA (30_encoding.md R54). -/
theorem opcode_range (i : Instr) : 0 < i.opcode.toNat ∧ i.opcode.toNat < 0xB := by
  cases i <;> simp [Instr.opcode]

/-- No illegal word decodes (30_encoding.md R56). -/
theorem exists_error_of_illegal {w : CmdWord}
    (h : opcField w = 0 ∨ 0xB ≤ (opcField w).toNat ∨ ∀ r ∈ opcodeMap, r.selects w = false) :
    ∃ e, decode w = .error e := by
  cases hd : decode w with
  | error e => exact ⟨e, rfl⟩
  | ok i =>
    exfalso
    obtain ⟨-, ho, -⟩ := fields_of_decode hd
    obtain ⟨hpos, hlt⟩ := opcode_range i
    rcases h with h | h | h
    · rw [← ho, h] at hpos; cases hpos
    · rw [ho] at h; omega
    · have hs := selects_of_decode hd
      rw [h i.row (mem_opcodeMap.mpr ⟨i, rfl⟩)] at hs; cases hs

/-! ### The statements about words -/

/-- Settles O2: each field of a packed word is the operand packed there. -/
theorem decodeOfEncodeIsTheCommand : Obligations.DecodeOfEncodeIsTheCommand := decode_encode

/-- Settles O3: a legal word has its opcode and operands in the fields that its opcode uses and zero in the others. -/
theorem encodeOfDecodeIsTheWord : Obligations.EncodeOfDecodeIsTheWord := fun _ _ => decode_eq_ok_iff.mp

/-- Settles O4: decoder and row test the same fields, and a word that selects two rows decodes to one command, whose row
both are. -/
theorem decoderAgreesWithOpcodeMap : Obligations.DecoderAgreesWithOpcodeMap := by
  refine ⟨fun w i h => ⟨mem_opcodeMap.mpr ⟨i, rfl⟩, selects_of_decode h⟩, fun w r => exists_decode_of_selects, ?_⟩
  intro w r r' hr hr' hs hs'
  obtain ⟨i, hi, rfl⟩ := exists_decode_of_selects hr hs
  obtain ⟨j, hj, rfl⟩ := exists_decode_of_selects hr' hs'
  rw [hi] at hj
  cases hj
  rfl

/-- Settles O1: each word is the encoding of its command. -/
theorem workedWordsDecode : Obligations.WorkedWordsDecode :=
  ⟨decode_encode (.init 0x2000 256), decode_encode (.writeByte 0x41), decode_encode .readByte,
    decode_encode (.writeBlock 0x3000 13), decode_encode (.readBlock 0x4000 13), decode_encode (.delete 4),
    decode_encode (.insertKeyword 0xCCFB22AA 4), decode_encode (.findKeyword 0xCCFB22AA 4), decode_encode .getLen,
    decode_encode .getFree⟩

end Sys2Proof
end

section
/-! The issued word, legal or illegal, and a keyword length out of range. -/

namespace Sys2Proof.Machine

/-- Settles O5: no illegal word decodes, and the engine ends a word that does not decode with IllegalCommand. -/
theorem illegalWordEndsWithIllegalCommand : Obligations.IllegalWordEndsWithIllegalCommand := by
  intro s hs h
  obtain ⟨e, he⟩ := exists_error_of_illegal h
  rw [(step_of_runsCommandNext hs).2, runCommand, he]
  rfl

/-- Settles O7: a word just issued runs next, and a command's word decodes to the command. -/
theorem issuedWordIsTheCommandThatRuns : Obligations.IssuedWordIsTheCommandThatRuns := by
  intro s i
  rw [State.withFetchWord, tableWord_toNat, (step_of_runsCommandNext (withIssued_runsCommandNext _ _)).2, runCommand,
    withIssued_commandWord, decode_encode]

/-- Settles O26: the words decode as every command's do, and both commands check K before anything else. -/
theorem keywordLengthOutOfRangeIsReportedFirst : Obligations.KeywordLengthOutOfRangeIsReportedFirst := by
  intro v klen s hb hk
  have hc := keywordLengthCheck_some hk
  have hi : insertKeywordCheck s klen.toNat = some .invalidKeywordLength := by
    rw [insertKeywordCheck, hc, Option.some_or]
  have hf : findKeywordCheck s klen.toNat = some .invalidKeywordLength := by
    rw [findKeywordCheck, hc, Option.some_or]
  refine ⟨decode_encode _, decode_encode _, ?_, ?_⟩
  · rw [exec_insertKeyword, execInsertKeyword, hi, whenBound_failed hb]; rfl
  · rw [exec_findKeyword, execFindKeyword, hf, whenBound_failed hb]; rfl

end Sys2Proof.Machine
end

section
/-! The assembler: a text assembles to the encodings of its lines' commands, or not at all (30_encoding.md R59, R60). -/

namespace Sys2Proof.Machine

/-- A line that assembles has no command, or one that stands for an instruction. -/
theorem assembleLine_eq_some {l : List Char} {ws : List CmdWord} (h : assembleLine l = some ws) :
    (parseLine l = some none ∧ ws = []) ∨
      ∃ c i, parseLine l = some (some c) ∧ c.toInstr = some i ∧ ws = [encode i] := by
  unfold assembleLine at h
  split at h
  · cases h
  · rename_i hp; cases h; exact .inl ⟨hp, rfl⟩
  · rename_i c hp
    obtain ⟨i, hi, rfl⟩ := Option.map_eq_some_iff.mp h
    exact .inr ⟨c, i, hp, hi, rfl⟩

/-- Lines assemble when each of them does, to the words of each in order. -/
theorem assembleLines_cons_eq_some {l : List Char} {ls : List (List Char)} {ws : List CmdWord} :
    assembleLines (l :: ls) = some ws ↔
      ∃ u us, assembleLine l = some u ∧ assembleLines ls = some us ∧ ws = u ++ us := by
  rw [assembleLines]
  cases assembleLine l <;> cases assembleLines ls <;> simp [eq_comm]

/-- Each line of a text that assembles does so by itself. -/
theorem assembleLine_of_mem {ls : List (List Char)} {ws : List CmdWord} (h : assembleLines ls = some ws)
    {l : List Char} (hl : l ∈ ls) : ∃ u, assembleLine l = some u := by
  induction ls generalizing ws with
  | nil => cases hl
  | cons m ls ih =>
    obtain ⟨u, us, hu, hus, -⟩ := assembleLines_cons_eq_some.mp h
    rcases List.mem_cons.mp hl with rfl | hl
    · exact ⟨u, hu⟩
    · exact ih hus hl

/-- Each word of lines that assemble is the encoding of a command. -/
theorem exists_encode_of_mem_assembleLines {ls : List (List Char)} {ws : List CmdWord} (h : assembleLines ls = some ws)
    {w : CmdWord} (hw : w ∈ ws) : ∃ i, encode i = w := by
  induction ls generalizing ws with
  | nil => cases h; cases hw
  | cons l ls ih =>
    obtain ⟨u, us, hu, hus, rfl⟩ := assembleLines_cons_eq_some.mp h
    rcases List.mem_append.mp hw with hw | hw
    · rcases assembleLine_eq_some hu with ⟨-, rfl⟩ | ⟨c, i, -, -, rfl⟩
      · cases hw
      · exact ⟨i, (List.mem_singleton.mp hw).symm⟩
    · exact ih hus hw

/-- A text with a line whose command stands for no instruction does not assemble. -/
theorem assembleText_eq_none {text line : List Char} {c : SourceCmd} (hl : line ∈ splitAtChar '\n' text)
    (hp : parseLine line = some (some c)) (hc : c.toInstr = none) : assembleText text = none := by
  rw [Option.eq_none_iff_forall_ne_some]
  intro ws h
  obtain ⟨u, hu⟩ := assembleLine_of_mem h hl
  rcases assembleLine_eq_some hu with ⟨hn, -⟩ | ⟨d, i, hd, hi, -⟩
  · rw [hp] at hn; cases hn
  · rw [hp] at hd; cases hd; rw [hc] at hi; cases hi

/-- A source command stands for the instruction it is written for where its operands are in range, and for none
elsewhere. -/
theorem toInstr_eq_ite {c : SourceCmd} {p : Prop} [Decidable p] (h : c.wellFormed = true ↔ p) :
    c.toInstr = if p then some c.expand else none :=
  if_congr h rfl rfl

/-- Settles O8: the range of each operand is the check of `SourceCmd.wellFormed`, and the words of a text are encodings,
which are legal. -/
theorem assembledTextIsLegal : Obligations.AssembledTextIsLegal := by
  refine ⟨fun _ _ => rfl, fun c hc => ?illFormed, fun base cap => toInstr_eq_ite ?init, fun b => toInstr_eq_ite ?byte,
    rfl, fun src len => toInstr_eq_ite ?writeBlock, fun dst len => toInstr_eq_ite ?readBlock,
    fun len => toInstr_eq_ite ?delete, fun v klen => toInstr_eq_ite ?insert, fun v klen => toInstr_eq_ite ?find,
    rfl, rfl, fun _ _ _ => assembleText_eq_none, fun text ws h w hw => ?words⟩
  case illFormed => rw [SourceCmd.toInstr, hc]; rfl
  case words =>
    obtain ⟨i, hi⟩ := exists_encode_of_mem_assembleLines h hw
    exact ⟨i, decode_eq_ok_iff.mpr hi⟩
  all_goals simp [SourceCmd.wellFormed]

end Sys2Proof.Machine
end

section
/-! INIT on its two sides of the least capacity (40_init.md R71 to R73). -/

namespace Sys2Proof.Machine

/-- A capacity below 2 fails INIT's one check. -/
theorem initCheck_some {cap : Half} (h : cap.toNat < 2) : initCheck cap = some .invalidCapacity :=
  if_pos h

/-- A capacity of at least 2 passes INIT's one check. -/
theorem initCheck_none {cap : Half} (h : 2 ≤ cap.toNat) : initCheck cap = none :=
  if_neg (Nat.not_lt.mpr h)

/-- Settles O9: the capacity passes INIT's check, so INIT ends OK with its bindings. -/
theorem initBindsAndEmpties : Obligations.InitBindsAndEmpties := by
  intro base cap s h
  rw [exec_init, execInit, initCheck_none h]
  rfl

/-- Settles O10: the capacity fails INIT's check, and a failing check writes RESULT only. -/
theorem failedInitChangesOnlyResult : Obligations.FailedInitChangesOnlyResult := by
  intro base cap s h
  rw [exec_init, execInit, initCheck_some h]
  rfl

end Sys2Proof.Machine
end

section
/-! WRITE_BYTE and READ_BYTE: the byte they move, the full buffer, and WRITE_BYTE as a WRITE_BLOCK of one byte
(41_byte.md R81 to R84). -/

namespace Sys2Proof.Machine

section

variable {s : State}

/-! ### The full buffer -/

/-- WRITE_BYTE on a full buffer writes RESULT only, with BufferFull (41_byte.md R81). -/
theorem execWriteByte_full (hb : s.bound = true) (hl : s.length.toNat = s.capacity.toNat - 1) (b : Byte) :
    exec (.writeByte b) s = .next (s.fail .bufferFull) := by
  have hc : writeByteCheck s = some .bufferFull := if_pos hl
  rw [exec_writeByte, execWriteByte, hc, whenBound_failed hb]

/-- A WRITE_BLOCK without room writes RESULT only, with InsufficientSpace (42_block.md R91). -/
theorem execWriteBlock_noRoom (hb : s.bound = true) {len : Half}
    (hl : s.capacity.toNat - 1 < s.length.toNat + len.toNat) (src : Word) : exec (.writeBlock src len) s = .next (s.fail .insufficientSpace) := by
  rw [exec_writeBlock, execWriteBlock, spaceCheck_some hl, whenBound_failed hb]

/-! ### A block of one byte -/

/-- A WRITE_BLOCK of one byte makes one move, to SAddr(TAIL) (41_byte.md R82). -/
theorem blockInMoves_one (hi : BufferInv s) (src : Word) :
    s.blockInMoves src 1 = [⟨.mem (bufAddr src 0), s.sAddr s.tail.toNat⟩] := by
  have htail : s.tail.toNat < s.cap := hi.tail_lt
  have hoff : splitOffset s.cap s.tail.toNat 1 0 = s.tail.toNat := by
    rw [splitOffset_eq_adv htail Nat.one_pos, adv_zero htail]
  simp [State.blockInMoves, State.tailAddr, hoff]

/-- With room, a platform that admits the accesses of a WRITE_BLOCK of one byte admits the store at SAddr(TAIL). -/
theorem admits_tail_of_writeBlock_one (hb : s.bound = true) (hi : BufferInv s) {src : Word}
    (hl : s.length.toNat < s.capacity.toNat - 1) (ha : AccessesAdmitted (.writeBlock src 1) s) :
    admits s.platform (s.sAddr s.tail.toNat) .write = true := by
  have hc : spaceCheck s (1 : Half).toNat = none := spaceCheck_none.mpr hl
  refine ha.writes _ ?_
  rw [commandWrites, commandMoves, movesIfAdmitted, hb, hc]
  simp [blockInMoves_one hi]

/-- With room, WRITE_BYTE of the source byte and WRITE_BLOCK of that one byte have the same next state (41_byte.md
R82). -/
theorem execWriteByte_eq_writeBlock_one (hb : s.bound = true) (hi : BufferInv s) {src : Word}
    (hl : s.length.toNat < s.capacity.toNat - 1) (ha : AccessesAdmitted (.writeBlock src 1) s) :
    ∃ t, exec (.writeByte (s.bufferByte src 0)) s = .next t ∧ exec (.writeBlock src 1) s = .next t := by
  have hmem : s.mem.write (s.sAddr s.tail.toNat).toNat (s.bufferByte src 0) =
      movesApplied (s.blockInMoves src 1) s.mem := by rw [blockInMoves_one hi]; rfl
  have hbyte := execWriteByte_admitted hb hi (b := s.bufferByte src 0) hl (admits_tail_of_writeBlock_one hb hi hl ha)
  rw [hmem] at hbyte
  exact ⟨_, hbyte, execWriteBlock_admitted hb hi (len := 1) hl ha⟩

/-! ### Bytes written one after another -/

/-- The state is bound and in good order, on a platform on which no command is stuck. -/
structure Ready (s : State) : Prop where
  mem_wf : s.mem.wf = true
  bound : s.bound = true
  inv : BufferInv s
  admits_all : AdmitsAll s.platform

/-- WRITE_BYTE with room ends OK with its byte appended to the window, and the next command finds the engine as ready
(41_byte.md R81). -/
theorem Ready.writeByte (hr : Ready s) (hl : s.length.toNat < s.capacity.toNat - 1) (b : Byte) :
    ∃ t, exec (.writeByte b) s = .next t ∧ Ready t ∧ t.capacity = s.capacity ∧ t.window = s.window ++ [b] ∧
      statusField t.result = 0 := by
  obtain ⟨hm, hb, hi, ha⟩ := hr
  have hx := execWriteByte_admitted hb hi (b := b) hl (ha _ _)
  obtain ⟨-, -, hi'⟩ := stored_inv hi (n := 1) hl rfl
  exact ⟨_, hx, ⟨Memory.wf_write hm (word_lt _) b, hb, hi'.congr rfl rfl rfl rfl, ha⟩, rfl,
    writeByte_appends hm hb hi ha hx (ok_status _ _), ok_status _ _⟩

/-- WRITE_BYTE commands for which there is room run and append their bytes to the window in order (41_byte.md R81). -/
theorem Ready.writeBytes (bs : List Byte) (hr : Ready s) (hl : s.length.toNat + bs.length ≤ s.capacity.toNat - 1) :
    ∃ t, runProgram (bs.map Instr.writeByte) s = .next t ∧ Ready t ∧ t.capacity = s.capacity ∧
      t.window = s.window ++ bs ∧ (bs ≠ [] ∨ statusField s.result = 0 → statusField t.result = 0) := by
  induction bs generalizing s with
  | nil => exact ⟨s, rfl, hr, rfl, (List.append_nil _).symm, by simp⟩
  | cons b bs ih =>
    rw [List.length_cons] at hl
    obtain ⟨u, hx, hu, hc, hw, hs⟩ := hr.writeByte (by omega) b
    have hlen : u.length.toNat = s.length.toNat + 1 := by simpa using congrArg List.length hw
    obtain ⟨t, hrun, ht, hct, hwt, hst⟩ := ih hu (by rw [hlen, hc]; omega)
    refine ⟨t, ?_, ht, hct.trans hc, ?_, fun _ => hst (.inr hs)⟩
    · rw [List.map_cons, runProgram, hx]
      exact hrun
    · rw [hwt, hw, List.append_assoc, List.singleton_append]

end

/-! ### The statements about single bytes -/

/-- Settles O11: with room WRITE_BYTE makes its one store, which MEM's read-after-write laws describe. -/
theorem writeByteStoresAtTail : Obligations.WriteByteStoresAtTail := by
  intro b s hm hb hi hl ha
  obtain ⟨hlen, htail, -⟩ := stored_inv hi (n := 1) hl rfl
  exact ⟨_, execWriteByte_admitted hb hi hl ha, hlen, htail, rfl, Memory.read_write_same hm _ b,
    fun a hne => Memory.read_write_other hm hne b, rfl⟩

/-- Settles O12: READ_BYTE on a buffer that is not empty consumes one byte, which is small enough for RESULT.DATA. -/
theorem readByteDeliversTheOldestByte : Obligations.ReadByteDeliversTheOldestByte := by
  intro s hb hi hl ha
  obtain ⟨hlen, hhead, -⟩ := consumed_inv hi (n := 1) hl rfl
  have hbyte : (s.mem.read (s.sAddr s.head.toNat).toNat).toNat < 2 ^ 24 := Nat.lt_trans (BitVec.isLt _) (by decide)
  have hres := resultWord_toNat hbyte .ok
  rw [Status.code, Nat.add_zero] at hres
  exact ⟨_, execReadByte_admitted hb hi hl ha, hlen, hhead, hres, rfl⟩

/-- Settles O13, by induction on the list of bytes; LENGTH is the window's length, which decides whether the next
WRITE_BYTE finds room. -/
theorem capacityMinusOneBytesFit : Obligations.CapacityMinusOneBytesFit := by
  intro bs s hm hb hi h0 ha hpos hle
  have hl0 : s.length.toNat = 0 := by rw [h0]; rfl
  obtain ⟨t, hrun, ht, hc, hw, hs⟩ := Ready.writeBytes bs ⟨hm, hb, hi, ha⟩ (by omega)
  have hempty : s.window = [] := List.eq_nil_of_length_eq_zero (by rw [window_length, hl0])
  rw [hempty, List.nil_append] at hw
  have hlen : t.length.toNat = bs.length := by rw [← window_length, hw]
  refine ⟨t, hrun, hs (.inl (List.ne_nil_of_length_pos hpos)), hlen, hw, fun hfull b => ?_⟩
  exact execWriteByte_full ht.bound (by rw [hlen, hc, hfull]) b

/-- Settles O14: INV4 makes the two tests one, the one move of the block is WRITE_BYTE's store, and on a full buffer
each fails by its own check. -/
theorem writeByteIsAWriteBlockOfOneByte : Obligations.WriteByteIsAWriteBlockOfOneByte := by
  intro src s hm hb hi ha
  refine ⟨⟨fun hl => hl.ge, Nat.le_antisymm hi.length_le⟩, fun hl => execWriteByte_eq_writeBlock_one hb hi hl ha,
    fun hl b => ⟨execWriteByte_full hb hl b, ?_⟩⟩
  exact execWriteBlock_noRoom hb (len := 1) (Nat.lt_succ_of_le hl.ge) src

end Sys2Proof.Machine
end

section
/-! WRITE_BLOCK and READ_BLOCK: the order of their copies, the wrap of TAIL, the round trip, and that FIND_KEYWORD and
READ_BYTE answer from the window bytes alone (42_block.md R91 to R99). -/

namespace Sys2Proof.Machine

section

variable {s t : State}

/-! ### A block of no bytes -/

@[simp] theorem blockInMoves_zero (s : State) (src : Word) : s.blockInMoves src 0 = [] := rfl

@[simp] theorem movesApplied_nil (m : Memory) : movesApplied [] m = m := rfl

@[simp] theorem stored_zero (s : State) : s.stored 0 s.tail.toNat = s := by simp [State.stored]

/-- A WRITE_BLOCK of no bytes asks the platform nothing (42_block.md R93). -/
theorem accessesAdmitted_writeBlock_zero (s : State) (src : Word) : AccessesAdmitted (.writeBlock src 0) s := by
  have hmoves : commandMoves (.writeBlock src 0) s = [] := by simp [commandMoves, movesIfAdmitted]
  exact accessesAdmitted_of_none (by rw [commandReads, hmoves]; rfl) hmoves

/-! ### INV1 to INV5 after a command -/

/-- Every command keeps INV1 to INV5 of a bound state, whatever MEM and RESULT hold (10_state.md R20). -/
theorem exec_keeps_bufferInv {i : Instr} (hi : BufferInv s) (h : exec i s = .next t) : BufferInv t := by
  cases exec_next h with
  | report d st => exact hi.congr rfl rfl rfl rfl
  | bind _ hcap => exact bufferInv_of_empty hcap rfl rfl rfl
  | store _ _ hn hx =>
    obtain ⟨-, -, hi'⟩ := stored_inv hi (hn hi) (hx hi)
    exact hi'.congr rfl rfl rfl rfl
  | consume _ _ hn hx =>
    obtain ⟨-, -, hi'⟩ := consumed_inv hi hn (hx hi)
    exact hi'.congr rfl rfl rfl rfl

/-- INV3: TAIL is an index below CAPACITY, so it never holds CAPACITY (10_state.md R20). -/
theorem BufferInv.tail_ne_capacity (hi : BufferInv s) : s.tail ≠ s.capacity := fun h =>
  absurd hi.tail_lt (by rw [h]; exact Nat.lt_irrefl _)

/-- INV5: HEAD and TAIL of an empty buffer are one index (10_state.md R20). -/
theorem BufferInv.head_eq_tail (hi : BufferInv s) (hl : s.length.toNat = 0) : s.head = s.tail := by
  apply BitVec.eq_of_toNat_eq
  rw [hi.tail_eq, hl, Nat.add_zero, Nat.mod_eq_of_lt hi.head_lt]

/-! ### The exact landing -/

/-- A transfer that ends exactly at the last slot is one segment (42_block.md R94). -/
theorem segments_of_exactLanding {c i n : Nat} (hi : i ≤ c) (hn : n = c - i) :
    firstSegment c i n = n ∧ secondSegment c i n = 0 ∧ i + firstSegment c i n = c := by
  unfold secondSegment firstSegment; omega

/-- A WRITE_BLOCK that fits and goes on has moved TAIL to (TAIL + L) mod C (42_block.md R92). -/
theorem exec_writeBlock_tail {src : Word} {len : Half} (hb : s.bound = true) (hi : BufferInv s)
    (hl : s.length.toNat + len.toNat ≤ s.capacity.toNat - 1) (h : exec (.writeBlock src len) s = .next t) :
    t.tail = .ofNat 16 ((s.tail.toNat + len.toNat) % s.capacity.toNat) := by
  rw [execWriteBlock_admitted hb hi hl (exec_accessesAdmitted (fun _ _ => Instr.noConfusion) h)] at h
  cases h
  rfl

/-! ### Blocks on a ready engine -/

/-- WRITE_BLOCK that fits, from a source outside the storage region, ends with its bytes appended to the window, and the
next command finds the engine as ready (42_block.md R92, R95). -/
theorem Ready.writeBlock {src : Word} {len : Half} (hr : Ready s)
    (hl : s.length.toNat + len.toNat ≤ s.capacity.toNat - 1) (ho : BufferOutsideStorage s src len.toNat) :
    ∃ u, exec (.writeBlock src len) s = .next u ∧ Ready u ∧ u.base = s.base ∧ u.capacity = s.capacity ∧
      u.window = s.window ++ (List.range len.toNat).map (s.bufferByte src) := by
  obtain ⟨hm, hb, hi, ha⟩ := hr
  have hx := execWriteBlock_admitted hb hi hl (accessesAdmitted_of_all ha (.writeBlock src len))
  exact ⟨_, hx, ⟨movesApplied_wf _ hm, hb, exec_keeps_bufferInv hi hx, ha⟩, rfl, rfl,
    writeBlock_appends hm hb hi ha hx (ok_status _ _) ho⟩

/-- READ_BLOCK of the whole window, to a destination outside the storage region, empties the buffer and delivers the
window (42_block.md R98). -/
theorem Ready.readWholeWindow {dst : Word} {len : Half} (hr : Ready s) (hl : len.toNat = s.length.toNat)
    (ho : BufferOutsideStorage s dst len.toNat) :
    ∃ t, exec (.readBlock dst len) s = .next t ∧ t.length = 0 ∧ t.head = t.tail ∧ t.result = 0 ∧
      (List.range len.toNat).map (t.bufferByte dst) = s.window := by
  obtain ⟨hm, hb, hi, ha⟩ := hr
  obtain ⟨t, hx, hres⟩ : ∃ t, exec (.readBlock dst len) s = .next t ∧ t.result = 0 :=
    ⟨_, execReadBlock_admitted hb hi hl.le (accessesAdmitted_of_all ha _), rfl⟩
  obtain ⟨hdrop, htake⟩ := readBlock_takes hm hb hi ha hx (by rw [hres]; rfl) ho
  have hempty : t.length.toNat = 0 := by
    rw [← window_length, hdrop, List.length_drop, window_length, hl, Nat.sub_self]
  refine ⟨t, hx, BitVec.eq_of_toNat_eq hempty, (exec_keeps_bufferInv hi hx).head_eq_tail hempty, hres, ?_⟩
  rw [htake, hl, ← window_length, List.take_length]

/-- A buffer outside the storage region is outside any region with the same BASE and CAPACITY. -/
theorem BufferOutsideStorage.congr {a : Word} {n : Nat} (ho : BufferOutsideStorage s a n) (hbase : t.base = s.base)
    (hcap : t.capacity = s.capacity) : BufferOutsideStorage t a n := by
  intro k hk
  simpa only [InStorage, State.cap, State.sAddr, hbase, hcap] using ho k hk

/-- Two lists of indexed bytes, one after the other, agree with one indexed list where they agree byte by byte. -/
theorem map_range_add_eq_append {α : Type} {f g h : Nat → α} {m n : Nat}
    (hfgh : (List.range (m + n)).map f = (List.range m).map g ++ (List.range n).map h) :
    (∀ k < m, f k = g k) ∧ ∀ k < n, f (m + k) = h k := by
  rw [List.range_add, List.map_append, List.map_map] at hfgh
  obtain ⟨hg, hh⟩ := List.append_inj hfgh (by simp)
  exact ⟨fun k hk => List.map_inj_left.mp hg k (List.mem_range.mpr hk),
    fun k hk => List.map_inj_left.mp hh k (List.mem_range.mpr hk)⟩

end

/-! ### Two states with the same window -/

section

variable {s s' t t' : State}

/-- States with the same window have the same LENGTH. -/
theorem length_eq_of_window (hw : s.window = s'.window) : s.length.toNat = s'.length.toNat := by
  rw [← window_length s, hw, window_length]

theorem windowByte_eq_of_window (hw : s.window = s'.window) {k : Nat} (hk : k < s.length.toNat) :
    s.windowByte k = s'.windowByte k := by
  have hbyte := window_getElem? (s := s') (length_eq_of_window hw ▸ hk)
  rw [← hw, window_getElem? hk] at hbyte
  exact Option.some.inj hbyte

theorem windowWord_eq_of_window (hw : s.window = s'.window) {i : Nat} (k : Nat) (hik : i + k ≤ s.length.toNat) :
    s.windowWord i k = s'.windowWord i k := by
  induction k with
  | zero => rfl
  | succ k ih => rw [State.windowWord, State.windowWord, ih (by omega), windowByte_eq_of_window hw (by omega)]

theorem findKeywordCheck_eq_of_window (hw : s.window = s'.window) (k : Nat) :
    findKeywordCheck s k = findKeywordCheck s' k := by
  rw [findKeywordCheck, findKeywordCheck, dataCheck, dataCheck, length_eq_of_window hw]

theorem readByteCheck_eq_of_window (hw : s.window = s'.window) : readByteCheck s = readByteCheck s' := by
  rw [readByteCheck, readByteCheck, length_eq_of_window hw]

variable (hi : BufferInv s) (hi' : BufferInv s') (ha : AdmitsAll s.platform) (ha' : AdmitsAll s'.platform)
  (hw : s.window = s'.window)

include hi hi' ha ha' hw

/-- The search depends on the window bytes only, wherever they are in storage (42_block.md R96, 44_keyword.md R127). -/
theorem scan_eq_of_window {v : Word} {k : Nat} (hk : 1 ≤ k) (hk4 : k ≤ 4) (n : Nat) {i : Nat}
    (hn : i + n + k ≤ s.length.toNat + 1) : s.scan v k n i = s'.scan v k n i := by
  have hlen := length_eq_of_window hw
  induction n generalizing i with
  | zero => rfl
  | succ n ih =>
    have hc := candidateMatches_window hi (v := v) hk hk4 (i := i) (by omega) fun _ _ => ha _ _
    have hc' := candidateMatches_window hi' (v := v) hk hk4 (i := i) (by omega) fun _ _ => ha' _ _
    rw [State.scan, State.scan, hc, hc', windowWord_eq_of_window hw k (by omega), ih (by omega)]

variable (hb : s.bound = true) (hb' : s'.bound = true)

include hb hb'

/-- FIND_KEYWORD answers from the window bytes alone (42_block.md R96, 44_keyword.md R127). -/
theorem findKeyword_result_eq_of_window {v : Word} {klen : BitVec 3} (h : exec (.findKeyword v klen) s = .next t)
    (h' : exec (.findKeyword v klen) s' = .next t') : t.result = t'.result := by
  have hcheck := findKeywordCheck_eq_of_window hw klen.toNat
  rw [exec_findKeyword, execFindKeyword] at h h'
  rw [← hcheck, ← length_eq_of_window hw] at h'
  cases hc : findKeywordCheck s klen.toNat with
  | some st =>
    rw [hc, whenBound_failed (by assumption)] at h h'
    cases h; cases h'; rfl
  | none =>
    obtain ⟨⟨h1, h4⟩, hl⟩ := findKeywordCheck_none.mp hc
    rw [hc, whenBound_passed (by assumption)] at h h'
    rw [← scan_eq_of_window hi hi' ha ha' hw h1 h4 _ (by omega)] at h'
    cases hs : s.scan v klen.toNat (s.length.toNat - klen.toNat + 1) 0 with
    | error r => rw [hs] at h; cases h
    | ok answer =>
      rw [hs] at h h'
      cases answer <;> cases h <;> cases h' <;> rfl

/-- READ_BYTE answers from the window bytes alone (42_block.md R96, 41_byte.md R84). -/
theorem readByte_result_eq_of_window (h : exec .readByte s = .next t) (h' : exec .readByte s' = .next t') :
    t.result = t'.result := by
  cases hc : readByteCheck s with
  | some st =>
    have hc' := (readByteCheck_eq_of_window hw).symm.trans hc
    rw [exec_readByte, execReadByte, hc, whenBound_failed hb] at h
    rw [exec_readByte, execReadByte, hc', whenBound_failed hb'] at h'
    cases h; cases h'; rfl
  | none =>
    have hl := readByteCheck_none.mp hc
    have hl' := length_eq_of_window hw ▸ hl
    rw [execReadByte_admitted hb hi hl (ha _ _)] at h
    rw [execReadByte_admitted hb' hi' hl' (ha' _ _)] at h'
    rw [window_eq_cons hi hl, window_eq_cons hi' hl'] at hw
    cases h; cases h'
    rw [State.ok_result, State.ok_result, List.head_eq_of_cons_eq hw]

end

/-! ### The statements about blocks -/

/-- Settles O15: with room and its accesses admitted WRITE_BLOCK makes all its moves, whose destinations are the storage
offsets from TAIL on. -/
theorem writeBlockCopiesInAscendingOrder : Obligations.WriteBlockCopiesInAscendingOrder := by
  intro src len s hb hi hl ha
  obtain ⟨hlen, htail, -⟩ := stored_inv hi hl rfl
  exact ⟨_, execWriteBlock_admitted hb hi hl ha, hlen, htail, rfl, blockIn_applied hi src hl s.mem, rfl⟩

/-- Settles O16: with enough data and its accesses admitted READ_BLOCK makes all its moves, whose sources are the
storage offsets from HEAD on. -/
theorem readBlockCopiesInAscendingOrder : Obligations.ReadBlockCopiesInAscendingOrder := by
  intro dst len s hb hi hl ha
  obtain ⟨hlen, hhead, -⟩ := consumed_inv hi hl rfl
  exact ⟨_, execReadBlock_admitted hb hi hl ha, hlen, hhead, rfl, blockOut_applied hi dst hl s.mem, rfl⟩

/-- Settles O18: TAIL + L = C is 0 modulo C, and INV3, which every command keeps, has TAIL below C. -/
theorem exactLandingWrapsTailToZero : Obligations.ExactLandingWrapsTailToZero := by
  intro src len s hb hi
  refine ⟨fun hland hroom => ?_, fun i t h => (exec_keeps_bufferInv hi h).tail_ne_capacity⟩
  obtain ⟨hfirst, hsecond, hend⟩ := segments_of_exactLanding hi.tail_lt.le hland
  refine ⟨hfirst, hsecond, hend, fun t h => ?_⟩
  have hsum : s.tail.toNat + len.toNat = s.capacity.toNat := hfirst ▸ hend
  rw [exec_writeBlock_tail hb hi (by have := hi.length_le; omega) h, hsum, Nat.mod_self]
  rfl

/-- Settles O20: WRITE_BLOCK appends the source bytes to the window, and READ_BLOCK of the whole window delivers it. -/
theorem blockRoundTripDeliversTheBytesInOrder : Obligations.BlockRoundTripDeliversTheBytesInOrder := by
  intro src dst len total s hm hb hi ha hl htotal hsrc hdst
  obtain ⟨u, hwrite, hu, hbase, hcap, hwu⟩ := Ready.writeBlock ⟨hm, hb, hi, ha⟩ hl hsrc
  have hlu : total.toNat = u.length.toNat := by
    rw [htotal, ← window_length u, hwu]
    simp
  obtain ⟨t, hread, hlen, hht, hres, hbytes⟩ := hu.readWholeWindow hlu (hdst.congr hbase hcap)
  have hrun : runProgram [.writeBlock src len, .readBlock dst total] s = .next t := by
    simp only [runProgram, hwrite, hread]
  rw [htotal, hwu] at hbytes
  obtain ⟨hold, hnew⟩ := map_range_add_eq_append hbytes
  exact ⟨t, hrun, hlen, hht, hres, hold, hnew⟩

/-- Settles O32: the checks look at LENGTH, the search at the window's words, and READ_BYTE at the window's first
byte. -/
theorem resultsDependOnTheWindowOnly : Obligations.ResultsDependOnTheWindowOnly :=
  fun _ _ _ _ _ _ hb hb' hi hi' ha ha' hw =>
    ⟨findKeyword_result_eq_of_window hi hi' ha ha' hw hb hb', readByte_result_eq_of_window hi hi' ha ha' hw hb hb'⟩

/-- Settles O17: INV4 makes a block of no bytes pass its check, and it makes no move. -/
theorem zeroLengthWriteBlockChangesOnlyResult : Obligations.ZeroLengthWriteBlockChangesOnlyResult := by
  intro src s hb hi
  rw [execWriteBlock_admitted hb hi (len := 0) hi.length_le (accessesAdmitted_writeBlock_zero s src)]
  have hzero : (0 : Half).toNat = 0 := rfl
  simp only [hzero, Nat.add_zero, Nat.mod_eq_of_lt hi.tail_lt, blockInMoves_zero, movesApplied_nil,
    stored_zero]
  rfl

/-- Settles O19: READ_BLOCK fails its check, and a failure changes RESULT only. -/
theorem readBlockBeyondLengthFailsWhole : Obligations.ReadBlockBeyondLengthFailsWhole := by
  intro dst len s hb hl
  rw [exec_readBlock, execReadBlock, dataCheck_some hl, whenBound_failed hb]
  rfl

end Sys2Proof.Machine
end

section
/-! DELETE: it drops its bytes from the front of the window by moving HEAD, as a READ_BLOCK does whose destination
nobody reads (43_delete.md R111, R112). -/

namespace Sys2Proof.Machine

/-- A DELETE of more than LENGTH bytes writes RESULT only, with InsufficientData (43_delete.md R111). -/
theorem execDelete_tooLong {s : State} (hb : s.bound = true) {len : Half} (hl : s.length.toNat < len.toNat) :
    exec (.delete len) s = .next (s.fail .insufficientData) := by
  rw [exec_delete, execDelete, dataCheck_some hl, whenBound_failed hb]

/-- Settles O21: DELETE consumes its bytes where the data check passes, and fails where it does not. -/
theorem deleteMovesHead : Obligations.DeleteMovesHead := by
  intro len s hb hi
  refine ⟨fun hl => ?_, fun hl => execDelete_tooLong hb hl⟩
  obtain ⟨hlen, hhead, -⟩ := consumed_inv hi hl rfl
  exact ⟨_, execDelete_passed hb hi hl, hlen, hhead, rfl, rfl⟩

/-- Settles O22: both commands consume the same bytes, the READ_BLOCK's moves leave the storage region, and each leaves
the old window without its first L bytes. -/
theorem deleteIsAReadThatDiscards : Obligations.DeleteIsAReadThatDiscards := by
  intro dst len s hm hb hi ha hl ho
  have hdelete := execDelete_passed hb hi hl
  have hread := execReadBlock_admitted hb hi hl (accessesAdmitted_of_all ha (.readBlock dst len))
  have hdropped := delete_drops hb hi hdelete (ok_status _ _)
  obtain ⟨htaken, -⟩ := readBlock_takes hm hb hi ha hread (ok_status _ _) ho
  exact ⟨_, _, hdelete, hread, rfl, rfl, rfl, rfl, fun off hoff => (blockOut_old hm dst ho ⟨off, hoff, rfl⟩).symm,
    hdropped.trans htaken.symm⟩

end Sys2Proof.Machine
end

section
/-! INSERT_KEYWORD and FIND_KEYWORD: the bytes of a keyword in the window, the first match, and what an insertion leaves
for a search to find (44_keyword.md R121 to R132). -/

namespace Sys2Proof.Machine

/-! ### The bytes of a keyword -/

/-- The bytes of a K-byte keyword are the same with all bits from 8K on cleared (44_keyword.md R123). -/
theorem keywordByte_eq_of_low {v v' : Word} {k j : Nat} (hj : j < k) (h : v'.toNat = v.toNat % 2 ^ (8 * k)) :
    keywordByte v k j = keywordByte v' k j := by
  have hsplit : 2 ^ (8 * k) = 2 ^ (8 * (k - 1 - j)) * 2 ^ (8 * (j + 1)) := by
    rw [← Nat.pow_add]
    congr 1
    omega
  have hdvd : 2 ^ 8 ∣ 2 ^ (8 * (j + 1)) := Nat.pow_dvd_pow 2 (by omega)
  apply BitVec.eq_of_toNat_eq
  rw [keywordByte_toNat, keywordByte_toNat, h, hsplit, Nat.mod_mul_right_div_self, Nat.mod_mod_of_dvd _ hdvd]

section

variable {s t : State}

/-- The first j of K window bytes that are the bytes of V, most significant first, are V without its K − j low bytes
(44_keyword.md R126). -/
theorem windowWord_toNat_of_keywordBytes {v : Word} {i k : Nat} (hk : k ≤ 4) (hv : v.toNat < 2 ^ (8 * k))
    (hbytes : ∀ j < k, s.windowByte (i + j) = keywordByte v k j) {j : Nat} (hj : j ≤ k) :
    (s.windowWord i j).toNat = v.toNat / 2 ^ (8 * (k - j)) := by
  induction j with
  | zero => exact (Nat.div_eq_of_lt hv).symm
  | succ j ih =>
    have hpow : 2 ^ (8 * (k - j)) = 2 ^ (8 * (k - 1 - j)) * 2 ^ 8 := by
      rw [← Nat.pow_add]
      congr 1
      omega
    rw [windowWord_succ_toNat s i j (by omega), ih (by omega), hbytes j hj, keywordByte_toNat, hpow,
      ← Nat.div_div_eq_div_mul, Nat.div_add_mod', Nat.sub_sub, Nat.add_comm 1 j]

/-- K window bytes that are the bytes of a V below 2^(8K) make the word V (44_keyword.md R122, R126). -/
theorem windowWord_of_keywordBytes {v : Word} {i k : Nat} (hk : k ≤ 4) (hv : v.toNat < 2 ^ (8 * k))
    (hbytes : ∀ j < k, s.windowByte (i + j) = keywordByte v k j) : s.windowWord i k = v := by
  apply BitVec.eq_of_toNat_eq
  rw [windowWord_toNat_of_keywordBytes hk hv hbytes (Nat.le_refl k), Nat.sub_self, Nat.mul_zero, Nat.pow_zero,
    Nat.div_one]

/-- The first byte of K window bytes is the high byte of their word (44_keyword.md R128). -/
theorem windowByte_eq_highByte {i k : Nat} (h1 : 1 ≤ k) (h4 : k ≤ 4) :
    (s.windowByte i).setWidth 32 = highByte (s.windowWord i k) k := by
  obtain ⟨k, rfl⟩ := Nat.exists_eq_add_of_le' h1
  have hbyte := (s.windowByte i).isLt
  apply BitVec.eq_of_toNat_eq
  rw [highByte, BitVec.toNat_ushiftRight, Nat.shiftRight_eq_div_pow, Nat.add_sub_cancel, windowWord_div s i k h4,
    BitVec.toNat_setWidth, Nat.mod_eq_of_lt (by omega)]

/-! ### INSERT_KEYWORD -/

/-- INSERT_KEYWORD without room writes RESULT only, with InsufficientSpace (44_keyword.md R121). -/
theorem execInsertKeyword_noRoom (hb : s.bound = true) {klen : BitVec 3} (h1 : 1 ≤ klen.toNat) (h4 : klen.toNat ≤ 4)
    (hl : s.capacity.toNat - 1 < s.length.toNat + klen.toNat) (v : Word) :
    exec (.insertKeyword v klen) s = .next (s.fail .insufficientSpace) := by
  have hc : insertKeywordCheck s klen.toNat = some .insufficientSpace := by
    rw [insertKeywordCheck, keywordLengthCheck_none.mpr ⟨h1, h4⟩, spaceCheck_some hl, Option.none_or]
  rw [exec_insertKeyword, execInsertKeyword, hc, whenBound_failed hb]

/-- The storage offset of byte j of a write is window position LENGTH + j (20_memory.md R39, 10_state.md R20 INV5). -/
theorem sAddr_tail_add (hi : BufferInv s) {n j : Nat} (hn : s.length.toNat + n ≤ s.capacity.toNat - 1) (hj : j < n) :
    s.sAddr ((s.tail.toNat + j) % s.capacity.toNat) = s.windowAddr (s.length.toNat + j) := by
  rw [← tailAddr_eq hi hn hj, tailAddr_window hi hn hj]

/-- INSERT_KEYWORD that ends OK appends the K bytes of V to the window, and the next command finds the engine as ready
(44_keyword.md R121, R122). -/
theorem Ready.insertKeyword {v : Word} {klen : BitVec 3} (hr : Ready s)
    (h : exec (.insertKeyword v klen) s = .next t) (hs : statusField t.result = 0) :
    (1 ≤ klen.toNat ∧ klen.toNat ≤ 4) ∧ Ready t ∧ t.length.toNat = s.length.toNat + klen.toNat ∧
      ∀ j < klen.toNat, t.windowByte (s.length.toNat + j) = keywordByte v klen.toNat j := by
  obtain ⟨hm, hb, hi, ha⟩ := hr
  obtain ⟨⟨h1, h4⟩, hl⟩ := insertKeywordCheck_none.mp (check_none_of_ok hb insertKeywordCheck_ne_ok h hs)
  have hwindow := insertKeyword_appends hm hb hi ha h hs
  have hlen : t.length.toNat = s.length.toNat + klen.toNat := by
    rw [← window_length t, hwindow]
    simp
  have hready : Ready t := by
    have hi' := exec_keeps_bufferInv hi h
    rw [execInsertKeyword_admitted hb hi h1 h4 hl (accessesAdmitted_of_all ha _)] at h
    cases h
    exact ⟨movesApplied_wf _ hm, hb, hi', ha⟩
  rw [State.window, hlen] at hwindow
  exact ⟨⟨h1, h4⟩, hready, hlen, (map_range_add_eq_append hwindow).2⟩

/-! ### A transfer as stores of known bytes -/

/-- The store of the byte that a move's source holds in a given MEM. -/
def Move.fixed (m : Memory) (v : Move) : Move := ⟨.value (v.src.byteIn m), v.dst⟩

/-- A write elsewhere leaves the byte that a source holds. -/
theorem Source.byteIn_apply {m : Memory} (hm : m.wf = true) {x : Source} {u : Move} (hx : x ≠ .mem u.dst) :
    x.byteIn (u.apply m) = x.byteIn m := by
  cases x with
  | value b => rfl
  | mem a => exact (u.apply_read hm a).trans (if_neg fun h => hx (congrArg Source.mem h))

/-- A transfer none of whose destinations is a source stores the bytes that its sources held at the start. -/
theorem movesApplied_fixed (vs : List Move) {m : Memory} (hm : m.wf = true)
    (hs : ∀ v ∈ vs, ∀ w ∈ vs, v.src ≠ .mem w.dst) :
    movesApplied vs m = movesApplied (vs.map (Move.fixed m)) m := by
  induction vs generalizing m with
  | nil => rfl
  | cons u vs ih =>
    have hrest : vs.map (Move.fixed (u.apply m)) = vs.map (Move.fixed m) := by
      refine List.map_congr_left fun v hv => ?_
      rw [Move.fixed, Move.fixed, Source.byteIn_apply hm (hs v (by simp [hv]) u (by simp))]
    calc movesApplied (u :: vs) m
        = movesApplied vs (u.apply m) := rfl
      _ = movesApplied (vs.map (Move.fixed (u.apply m))) (u.apply m) :=
        ih (u.apply_wf hm) fun v hv w hw => hs v (by simp [hv]) w (by simp [hw])
      _ = movesApplied ((u :: vs).map (Move.fixed m)) m := by rw [hrest]; rfl

/-- From a source buffer outside the storage region that holds a keyword's bytes, WRITE_BLOCK leaves the MEM that
INSERT_KEYWORD leaves (44_keyword.md R124). -/
theorem movesApplied_blockIn_eq_keyword (hm : s.mem.wf = true) (hi : BufferInv s) {v src : Word} {n : Nat}
    (hn : s.length.toNat + n ≤ s.capacity.toNat - 1) (ho : BufferOutsideStorage s src n)
    (hbytes : ∀ j < n, s.bufferByte src j = keywordByte v n j) :
    movesApplied (s.blockInMoves src n) s.mem = movesApplied (s.keywordMoves v n) s.mem := by
  have hcap := hi.capacity_ge
  have hmoves : (s.blockInMoves src n).map (Move.fixed s.mem) = s.keywordMoves v n := by
    rw [State.blockInMoves, State.keywordMoves, List.map_map]
    refine List.map_congr_left fun j hj => ?_
    rw [← hbytes j (List.mem_range.mp hj)]
    rfl
  rw [movesApplied_fixed _ hm, hmoves]
  intro x hx y hy h
  obtain ⟨j, hj, rfl⟩ := mem_blockInMoves.mp hx
  obtain ⟨l, hl, rfl⟩ := mem_blockInMoves.mp hy
  refine ho j hj ?_
  rw [Source.mem.inj h, tailAddr_window hi hn hl]
  exact windowAddr_inStorage hi (by omega)

/-! ### FIND_KEYWORD where its reads are admitted -/

/-- RESULT.STATUS of a command that ends OK is 0, so RESULT is DATA · 2^8 (60_exceptions.md R152). -/
theorem ok_eq_setResult (s : State) (d : Nat) : s.ok d = { s with result := .ofNat 32 (d * 2 ^ 8) } := by
  rw [State.ok, resultWord, Status.code, Nat.add_zero]

theorem FirstMatch.unique {v : Word} {k i j : Nat} (h : FirstMatch s v k i) (h' : FirstMatch s v k j) : i = j := by
  rcases Nat.lt_trichotomy i j with hlt | heq | hgt
  · exact absurd h.is_match (h'.is_first i hlt)
  · exact heq
  · exact absurd h'.is_match (h.is_first j hgt)

section

variable (hb : s.bound = true) (hi : BufferInv s) {v : Word} {klen : BitVec 3} (h1 : 1 ≤ klen.toNat)
  (h4 : klen.toNat ≤ 4) (hl : klen.toNat ≤ s.length.toNat) (ha : AccessesAdmitted (.findKeyword v klen) s)

include hb hi h1 h4 hl ha

/-- 44_keyword.md R128, R130. -/
theorem execFindKeyword_firstMatch {i : Nat} (hf : FirstMatch s v klen.toNat i) :
    exec (.findKeyword v klen) s = .next (s.ok (i + klen.toNat)) := by
  rcases execFindKeyword_admitted hb hi h1 h4 hl ha with ⟨j, hj, hx⟩ | ⟨hnone, -⟩
  · rw [hx, hj.unique hf]
  · exact absurd hf.is_match (hnone i hf.in_range)

/-- 44_keyword.md R127, R128. -/
theorem execFindKeyword_noMatch (hnone : ∀ i, i + klen.toNat ≤ s.length.toNat → s.windowWord i klen.toNat ≠ v) :
    exec (.findKeyword v klen) s = .next (s.fail .notFound) := by
  rcases execFindKeyword_admitted hb hi h1 h4 hl ha with ⟨j, hj, -⟩ | ⟨-, hx⟩
  · exact absurd hj.is_match (hnone j hj.in_range)
  · exact hx

end

/-! ### What a search answers on any platform -/

theorem memRead_eq_read {p : Platform} {m : Memory} {a : Word} {b : Byte} (h : memRead p m a = .ok b) :
    b = m.read a.toNat := by
  rw [memRead, if_pos (memRead_ok h)] at h
  exact (Except.ok.inj h).symm

/-- RECON that ends delivers the window's word, whatever the platform admits elsewhere (44_keyword.md R126). -/
theorem recon_eq_windowWord (hi : BufferInv s) (n : Nat) {i j : Nat} (hn : i + j + n ≤ s.length.toNat) {w : Word}
    (h : s.recon n (adv s.cap s.head.toNat (i + j)) (s.windowWord i j) = .ok w) : w = s.windowWord i (j + n) := by
  induction n generalizing j with
  | zero => exact (Except.ok.inj h).symm
  | succ n ih =>
    have hlen := hi.length_le
    have hcap := hi.capacity_ge
    have hstep : adv s.cap (adv s.cap s.head.toNat (i + j)) 1 = adv s.cap s.head.toNat (i + (j + 1)) :=
      adv_adv hi.head_lt (by unfold State.cap; omega)
    rw [State.recon, hstep] at h
    split at h
    · cases h
    · rename_i b hread
      rw [memRead_eq_read hread] at h
      have hw := ih (j := j + 1) (by omega) h
      rwa [Nat.add_assoc, Nat.add_comm 1 n] at hw

/-- A candidate that matches has the keyword value as its K window bytes (44_keyword.md R127, R129). -/
theorem windowWord_of_candidateMatches (hi : BufferInv s) {v : Word} {k i : Nat} (hik : i + k ≤ s.length.toNat)
    (h : s.candidateMatches v k (adv s.cap s.head.toNat i) = .ok true) : s.windowWord i k = v := by
  unfold State.candidateMatches at h
  split at h
  · cases h
  · split at h
    · split at h
      · cases h
      · rename_i w hw
        have hword := recon_eq_windowWord hi k (i := i) (j := 0) hik hw
        rw [Nat.zero_add] at hword
        rw [← hword, beq_iff_eq.mp (Except.ok.inj h)]
    · cases h

/-- The position that a search answers has the keyword value as its K window bytes (44_keyword.md R127, R131). -/
theorem windowWord_of_scan (hi : BufferInv s) {v : Word} {k n i j : Nat} (hn : i + n + k ≤ s.length.toNat + 1)
    (h : s.scan v k n i = .ok (some j)) : s.windowWord j k = v := by
  induction n generalizing i with
  | zero => cases h
  | succ n ih =>
    rw [State.scan] at h
    split at h
    · cases h
    · rename_i hc
      cases h
      exact windowWord_of_candidateMatches hi (by omega) hc
    · exact ih (by omega) h

theorem findKeywordCheck_ne_ok {k : Nat} : findKeywordCheck s k ≠ some .ok := fun h =>
  (findKeywordCheck_some_code h).1 rfl

end

/-! ### The statements about keywords -/

/-- Settles O23: with room INSERT_KEYWORD makes all its stores, whose destinations are the storage offsets from TAIL
on. -/
theorem insertKeywordStoresMostSignificantByteFirst : Obligations.InsertKeywordStoresMostSignificantByteFirst := by
  intro v klen s hm hb hi h1 h4 hl ha
  have hx := execInsertKeyword_admitted hb hi h1 h4 hl ha
  obtain ⟨hlen, htail, -⟩ := stored_inv hi hl rfl
  refine ⟨_, hx, hlen, htail, rfl, fun j hj => ?_, fun a hne => ?_, rfl⟩
  · rw [← keywordByte_toNat, ← keyword_new hm hi v hl hj, sAddr_tail_add hi hl hj]
    rfl
  · refine transfer_frame hm hx (fun _ => rfl) fun w hw => ?_
    obtain ⟨j, hj, rfl⟩ := mem_keywordMoves.mp hw
    rw [tailAddr_eq hi hl hj]
    exact hne j hj

/-- Settles O24: the stores are those of the low K bytes, and the checks do not look at V. -/
theorem insertKeywordIgnoresTheHighBytes : Obligations.InsertKeywordIgnoresTheHighBytes := by
  intro v v' klen s hv
  have hmoves : s.keywordMoves v klen.toNat = s.keywordMoves v' klen.toNat :=
    List.map_congr_left fun j hj => by rw [keywordByte_eq_of_low (List.mem_range.mp hj) hv]
  rw [exec_insertKeyword, exec_insertKeyword, execInsertKeyword, execInsertKeyword, hmoves]

/-- Settles O25: with room both commands leave the same MEM and registers, and without room both fail the same check. -/
theorem insertKeywordIsAWriteBlockOfItsBytes : Obligations.InsertKeywordIsAWriteBlockOfItsBytes := by
  intro v src klen len s hm hb hi ha h1 h4 hlen ho hbytes
  rcases Nat.lt_or_ge (s.capacity.toNat - 1) (s.length.toNat + klen.toNat) with hfull | hroom
  · exact ⟨_, execInsertKeyword_noRoom hb h1 h4 hfull v, execWriteBlock_noRoom hb (hlen ▸ hfull) src, fun _ => rfl⟩
  · have hkeyword := execInsertKeyword_admitted hb hi h1 h4 hroom (accessesAdmitted_of_all ha (.insertKeyword v klen))
    have hblock := execWriteBlock_admitted hb hi (hlen ▸ hroom) (accessesAdmitted_of_all ha (.writeBlock src len))
    have hmem := movesApplied_blockIn_eq_keyword (v := v) hm hi hroom (hlen ▸ ho) fun j hj =>
      BitVec.eq_of_toNat_eq ((hbytes j hj).trans (keywordByte_toNat v _ j).symm)
    rw [hlen, hmem] at hblock
    exact ⟨_, hkeyword, hblock, fun hfull => absurd hroom (Nat.not_le.mpr hfull)⟩

/-- Settles O27: the first byte of a match is the high byte of V, and the search answers its first match or none. -/
theorem findKeywordReturnsTheFirstMatch : Obligations.FindKeywordReturnsTheFirstMatch := by
  intro v klen s hb hi h1 h4 hl ha
  refine ⟨fun i _ hmatch => ?_, fun i hf => ?_, fun hnone => execFindKeyword_noMatch hb hi h1 h4 hl ha hnone⟩
  · rw [← hmatch]
    exact windowByte_eq_highByte h1 h4
  · rw [execFindKeyword_firstMatch hb hi h1 h4 hl ha hf, ok_eq_setResult]

/-- Settles O28: the word of K window bytes is below 2^(8K), so no candidate matches. -/
theorem keywordWiderThanItsLengthIsNeverFound : Obligations.KeywordWiderThanItsLengthIsNeverFound := by
  intro v klen s hb hi h1 h4 hl ha hv
  refine execFindKeyword_noMatch hb hi h1 h4 hl ha fun i _ hmatch => ?_
  exact absurd (windowWord_lt s i klen.toNat h4) (Nat.not_lt.mpr (hmatch ▸ hv))

/-- Settles O30: K passed FIND_KEYWORD's checks, the distance is a candidate's position + K, and that candidate
matches. -/
theorem foundDistanceLiesInTheWindow : Obligations.FoundDistanceLiesInTheWindow := by
  intro v klen s t hb hi h hs
  obtain ⟨⟨h1, -⟩, hl⟩ := findKeywordCheck_none.mp (check_none_of_ok hb findKeywordCheck_ne_ok h hs)
  have hlen := hi.length_le
  have hcap := half_lt s.capacity
  rcases exec_findKeyword_bound_next hb h with ⟨st, hc, rfl⟩ | ⟨-, ⟨j, hj, rfl⟩ | ⟨-, rfl⟩⟩
  · exact absurd (fail_status.mp hs ▸ hc) findKeywordCheck_ne_ok
  · have hlt := scan_some_lt hj
    rw [State.ok_result, dataField_resultWord (by omega), Nat.add_sub_cancel]
    exact ⟨h1, by omega, by omega, by omega, windowWord_of_scan hi (by omega) hj⟩
  · exact absurd (fail_status.mp hs) (by decide)

/-- Settles O31: the inserted bytes stand at window position n, and no earlier candidate matches. -/
theorem insertedKeywordIsFoundAtItsPlace : Obligations.InsertedKeywordIsFoundAtItsPlace := by
  intro v klen s t hm hb hi ha h hs hv hnone
  obtain ⟨⟨h1, h4⟩, ht, hlen, hbytes⟩ := Ready.insertKeyword ⟨hm, hb, hi, ha⟩ h hs
  have hfirst : FirstMatch t v klen.toNat s.length.toNat :=
    ⟨hlen.ge, windowWord_of_keywordBytes h4 hv hbytes, hnone⟩
  rw [execFindKeyword_firstMatch ht.bound ht.inv h1 h4 (by omega) (accessesAdmitted_of_all ht.admits_all _) hfirst,
    ok_eq_setResult]

/-- Settles O29: K passes the length check, and the data check fails. -/
theorem findKeywordOnTooLittleDataIsInsufficientData : Obligations.FindKeywordOnTooLittleDataIsInsufficientData := by
  intro v klen s hb h1 h4 hl
  have hc : findKeywordCheck s klen.toNat = some .insufficientData := by
    rw [findKeywordCheck, keywordLengthCheck_none.mpr ⟨h1, h4⟩, dataCheck_some hl, Option.none_or]
  rw [exec_findKeyword, execFindKeyword, hc, whenBound_failed hb]
  rfl

end Sys2Proof.Machine
end

section
/-! GET_LEN and GET_FREE: the counts they report, and that the free count is the bound up to which the writes are
admitted (45_introspection.md R142 to R145). -/

namespace Sys2Proof.Machine

section

variable {s : State}

/-! ### The counts -/

/-- On a bound engine GET_LEN answers LENGTH (45_introspection.md R142). -/
theorem execGetLen_bound (hb : s.bound = true) : exec .getLen s = .next (s.ok s.length.toNat) := by
  rw [exec_getLen, execGetLen, whenBound_passed hb]

/-- On a bound engine GET_FREE answers the free count (45_introspection.md R143). -/
theorem execGetFree_bound (hb : s.bound = true) : exec .getFree s = .next (s.ok s.freeCount) := by
  rw [exec_getFree, execGetFree, whenBound_passed hb]

/-- LENGTH has 16 bits, so RESULT.DATA holds it. -/
theorem length_lt_dataField (s : State) : s.length.toNat < 2 ^ 24 := Nat.lt_trans (half_lt s.length) (by decide)

/-- The free count is at most CAPACITY, so RESULT.DATA holds it. -/
theorem freeCount_lt_dataField (s : State) : s.freeCount < 2 ^ 24 := by
  have hcap := half_lt s.capacity
  rw [State.freeCount]
  omega

/-- The RESULT of a command that ends OK with a count is that count in DATA and zeros below (10_state.md R17). -/
theorem ok_result_toNat {d : Nat} (hd : d < 2 ^ 24) : (s.ok d).result.toNat = d * 2 ^ 8 := by
  rw [State.ok_result, resultWord_toNat hd, Status.code, Nat.add_zero]

/-- Under INV4 the free count is the room that the write commands check for: LENGTH + n ≤ C - 1. -/
theorem BufferInv.le_freeCount (hi : BufferInv s) {n : Nat} :
    n ≤ s.freeCount ↔ s.length.toNat + n ≤ s.capacity.toNat - 1 :=
  Nat.le_sub_iff_add_le' hi.length_le

/-! ### The writes that end OK -/

variable (hb : s.bound = true) (hi : BufferInv s) (ha : AdmitsAll s.platform)

include hb hi ha

/-- WRITE_BLOCK passes its check exactly up to the free count, and its check is all that can fail (45_introspection.md
R145). -/
theorem writeBlock_ok_iff (src : Word) (len : Half) :
    (∃ u, exec (.writeBlock src len) s = .next u ∧ statusField u.result = 0) ↔ len.toNat ≤ s.freeCount := by
  rw [hi.le_freeCount]
  constructor
  · rintro ⟨u, h, hs⟩
    exact spaceCheck_none.mp (check_none_of_ok hb spaceCheck_ne_ok h hs)
  · exact fun hl => ⟨_, execWriteBlock_admitted hb hi hl (accessesAdmitted_of_all ha _), ok_status _ _⟩

/-- INSERT_KEYWORD with K in range is admitted exactly up to the free count (45_introspection.md R145). -/
theorem insertKeyword_ok_iff (v : Word) {klen : BitVec 3} (h1 : 1 ≤ klen.toNat) (h4 : klen.toNat ≤ 4) :
    (∃ u, exec (.insertKeyword v klen) s = .next u ∧ statusField u.result = 0) ↔ klen.toNat ≤ s.freeCount := by
  rw [hi.le_freeCount]
  constructor
  · rintro ⟨u, h, hs⟩
    exact (insertKeywordCheck_none.mp (check_none_of_ok hb insertKeywordCheck_ne_ok h hs)).2
  · exact fun hl => ⟨_, execInsertKeyword_admitted hb hi h1 h4 hl (accessesAdmitted_of_all ha _), ok_status _ _⟩

/-- WRITE_BYTE tests for a full buffer only, which under INV4 is a free count of 0 (45_introspection.md R145). -/
theorem writeByte_ok_iff (b : Byte) :
    (∃ u, exec (.writeByte b) s = .next u ∧ statusField u.result = 0) ↔ 1 ≤ s.freeCount := by
  rw [hi.le_freeCount]
  constructor
  · rintro ⟨u, h, hs⟩
    have hnotFull := writeByteCheck_none.mp (check_none_of_ok hb writeByteCheck_ne_ok h hs)
    exact Nat.lt_of_le_of_ne hi.length_le hnotFull
  · exact fun hl => ⟨_, execWriteByte_admitted hb hi hl (ha _ _), ok_status _ _⟩

end

/-! ### The statements about the counts -/

/-- Settles O34: DATA is the free count, which is the room that each write's own check asks for. -/
theorem writesAreAdmittedUpToTheFreeCount : Obligations.WritesAreAdmittedUpToTheFreeCount := by
  intro s t hb hi ha h
  rw [execGetFree_bound hb] at h
  cases h
  have hdata : (dataField (s.ok s.freeCount).result).toNat = s.freeCount :=
    dataField_resultWord (freeCount_lt_dataField s) .ok
  rw [hdata]
  exact ⟨rfl, writeBlock_ok_iff hb hi ha, fun v _ => insertKeyword_ok_iff hb hi ha v, writeByte_ok_iff hb hi ha⟩

/-- Settles O33: both commands end OK with a count that fits in RESULT.DATA. -/
theorem getLenAndGetFreeReportTheCounts : Obligations.GetLenAndGetFreeReportTheCounts := by
  intro s hb
  exact ⟨⟨_, execGetLen_bound hb, ok_result_toNat (length_lt_dataField s), rfl⟩,
    ⟨_, execGetFree_bound hb, ok_result_toNat (freeCount_lt_dataField s), rfl⟩⟩

end Sys2Proof.Machine
end

section
/-! How a command ends: OK, or with a status of its opcode's row, and then with nothing but RESULT written
(60_exceptions.md R150 to R155). -/

namespace Sys2Proof.Machine

/-! ### The statuses of the table -/

/-- `st` is one of the statuses that the table of statuses gives for the command (60_exceptions.md R155). -/
def canReport (i : Instr) (st : Status) : Bool := (statusesOfOpcode i.opcode.toNat).contains st.code

theorem canReport_iff {i : Instr} {st : Status} :
    canReport i st = true ↔ st.code ∈ statusesOfOpcode i.opcode.toNat :=
  List.contains_iff_mem

/-- Every command can end OK (60_exceptions.md R155). -/
theorem canReport_ok (i : Instr) : canReport i .ok = true := by cases i <;> rfl

/-- Every opcode can end with IllegalCommand (60_exceptions.md R155, 30_encoding.md R56). -/
theorem illegalCommand_mem_statusesOfOpcode (n : Nat) : Status.illegalCommand.code ∈ statusesOfOpcode n := by
  unfold statusesOfOpcode
  split <;> decide

/-! ### The status of each check -/

section

variable {s t : State} {st : Status} {n k : Nat}

/-- What a check of one condition reports. -/
theorem status_of_ite_some {p : Prop} [Decidable p] {x : Status} (h : (if p then some x else none) = some st) :
    st = x := by
  obtain ⟨-, h⟩ := Option.ite_none_right_eq_some.mp h
  exact (Option.some.inj h).symm

theorem writeByteCheck_status (h : writeByteCheck s = some st) : st = .bufferFull := status_of_ite_some h

theorem readByteCheck_status (h : readByteCheck s = some st) : st = .empty := status_of_ite_some h

theorem spaceCheck_status (h : spaceCheck s n = some st) : st = .insufficientSpace := status_of_ite_some h

theorem dataCheck_status (h : dataCheck s n = some st) : st = .insufficientData := status_of_ite_some h

theorem keywordLengthCheck_status (h : keywordLengthCheck k = some st) : st = .invalidKeywordLength :=
  status_of_ite_some h

theorem insertKeywordCheck_status (h : insertKeywordCheck s k = some st) :
    st = .invalidKeywordLength ∨ st = .insufficientSpace :=
  (Option.or_eq_some_iff.mp h).imp keywordLengthCheck_status fun ⟨_, h⟩ => spaceCheck_status h

theorem findKeywordCheck_status (h : findKeywordCheck s k = some st) :
    st = .invalidKeywordLength ∨ st = .insufficientData :=
  (Option.or_eq_some_iff.mp h).imp keywordLengthCheck_status fun ⟨_, h⟩ => dataCheck_status h

/-! ### How a command ends -/

/-- How a command that goes on has ended: it failed with a status of its row of the table, or it ended OK. -/
inductive CommandEnd (i : Instr) (s : State) : State → Prop where
  | fail {st : Status} (hst : canReport i st = true) : CommandEnd i s (s.fail st)
  | ok (u : State) (d : Nat) : CommandEnd i s (u.ok d)

variable {i : Instr} {c : Option Status}

/-- A command behind the shared checks, in the order of 60_exceptions.md R154. -/
theorem CommandEnd.of_whenBound {e : Host.Outcome State Fault Refusal} (hunbound : canReport i .notInitialized = true)
    (hcheck : ∀ st, c = some st → canReport i st = true) (heffect : e = .next t → CommandEnd i s t)
    (h : s.whenBound c e = .next t) : CommandEnd i s t := by
  rcases whenBound_next h with ⟨-, rfl⟩ | ⟨-, st, hst, rfl⟩ | ⟨-, -, he⟩
  · exact .fail hunbound
  · exact .fail (hcheck st hst)
  · exact heffect he

/-- A transfer behind the shared checks fails on its checks only. -/
theorem CommandEnd.of_transfer {vs : List Move} {f : State → State} (hunbound : canReport i .notInitialized = true)
    (hcheck : ∀ st, c = some st → canReport i st = true)
    (h : s.whenBound c (s.afterMoves vs fun u => (f u).ok 0) = .next t) : CommandEnd i s t :=
  .of_whenBound hunbound hcheck (fun he => by obtain ⟨-, rfl⟩ := afterMoves_next he; exact .ok _ 0) h

/-- Every command that goes on ends OK or fails with a status of its row (60_exceptions.md R155). -/
theorem exec_end (h : exec i s = .next t) : CommandEnd i s t := by
  cases i with
  | init base cap =>
    rcases exec_init_next h with rfl | ⟨-, rfl⟩
    · exact .fail rfl
    · exact .ok _ 0
  | writeByte b => exact .of_transfer rfl (fun st hst => by rw [writeByteCheck_status hst]; rfl) h
  | readByte =>
    refine .of_whenBound rfl (fun st hst => by rw [readByteCheck_status hst]; rfl) (fun he => ?_) h
    split at he
    · cases he
    · cases he; exact .ok _ _
  | writeBlock src len => exact .of_transfer rfl (fun st hst => by rw [spaceCheck_status hst]; rfl) h
  | readBlock dst len => exact .of_transfer rfl (fun st hst => by rw [dataCheck_status hst]; rfl) h
  | delete len =>
    exact .of_whenBound rfl (fun st hst => by rw [dataCheck_status hst]; rfl) (fun he => by cases he; exact .ok _ 0) h
  | insertKeyword v klen =>
    exact .of_transfer rfl (fun st hst => by rcases insertKeywordCheck_status hst with rfl | rfl <;> rfl) h
  | findKeyword v klen =>
    refine .of_whenBound rfl (fun st hst => by rcases findKeywordCheck_status hst with rfl | rfl <;> rfl)
      (fun he => ?_) h
    split at he
    · cases he
    · cases he; exact .ok s _
    · cases he; exact .fail rfl
  | getLen =>
    rw [exec_getLen, execGetLen] at h
    exact .of_whenBound (c := none) rfl nofun (fun he => by cases he; exact .ok s _) h
  | getFree =>
    rw [exec_getFree, execGetFree] at h
    exact .of_whenBound (c := none) rfl nofun (fun he => by cases he; exact .ok s _) h

/-- A failed command's RESULT is the bare status (60_exceptions.md R153). -/
theorem fail_result_bare (s : State) (st : Status) :
    dataField (s.fail st).result = 0 ∧ reservedField (s.fail st).result = 0 :=
  ⟨BitVec.eq_of_toNat_eq (dataField_resultWord (by decide) st), reservedField_resultWord 0 st⟩

/-! ### The issued word -/

/-- How the issued word goes on: as its command and the completion, or with IllegalCommand (60_exceptions.md R154,
R173). -/
theorem runCommand_next (h : runCommand s = .next t) :
    (∃ i u, decode s.commandWord = .ok i ∧ exec i s = .next u ∧ t = { u with busy := false }) ∨
      t = { s.fail .illegalCommand with busy := false } := by
  unfold runCommand at h
  cases hd : decode s.commandWord with
  | error e => rw [hd] at h; cases h; exact .inr rfl
  | ok i =>
    simp only [hd] at h
    cases hu : exec i s with
    | next u => rw [hu] at h; cases h; exact .inl ⟨i, u, rfl, hu, rfl⟩
    | fault r => rw [hu] at h; cases h
    | refused r => rw [hu] at h; cases h

/-- The issued word fails with a status of its opcode's row, or ends OK where that row has OK (60_exceptions.md
R155). -/
theorem runCommand_end (h : runCommand s = .next t) :
    (∃ st, st.code ∈ statusesOfOpcode (opcField s.commandWord).toNat ∧ t = { s.fail st with busy := false }) ∨
      (Status.ok.code ∈ statusesOfOpcode (opcField s.commandWord).toNat ∧ statusField t.result = 0) := by
  rcases runCommand_next h with ⟨i, u, hd, hu, rfl⟩ | rfl
  · obtain ⟨-, hopc, -⟩ := fields_of_decode hd
    rw [hopc]
    cases exec_end hu with
    | fail hst => exact .inl ⟨_, canReport_iff.mp hst, rfl⟩
    | ok u d => exact .inr ⟨canReport_iff.mp (canReport_ok i), ok_status u d⟩
  · exact .inl ⟨_, illegalCommand_mem_statusesOfOpcode _, rfl⟩

end

/-! ### The statements about the issued word and its status -/

/-- Settles O6: the engine runs the issued word, which is the command that it decodes to. -/
theorem stepRunsTheDecodedCommand : Obligations.StepRunsTheDecodedCommand := by
  intro s i hr hd
  rw [(step_of_runsCommandNext hr).2, runCommand, hd]

/-- Settles O37: a command that does not end OK, and a word that does not, is a failure, which writes RESULT only. -/
theorem failedCommandChangesOnlyResult : Obligations.FailedCommandChangesOnlyResult := by
  constructor
  · intro i s t h hs
    cases exec_end h with
    | @fail st _ => exact ⟨rfl, fail_result_bare s st⟩
    | ok u d => exact absurd (ok_status u d) hs
  · intro s t hr h hs
    rw [(step_of_runsCommandNext hr).2] at h
    rcases runCommand_end h with ⟨st, -, rfl⟩ | ⟨-, hok⟩
    · exact ⟨rfl, fail_result_bare s st⟩
    · exact absurd hok hs

/-- Settles O38: the word ends with a failure of its opcode's row, or OK where the row has it. -/
theorem reportedStatusIsOneOfTheOpcodes : Obligations.ReportedStatusIsOneOfTheOpcodes := by
  intro s t hr h
  rw [(step_of_runsCommandNext hr).2] at h
  rcases runCommand_end h with ⟨st, hst, rfl⟩ | ⟨hmem, hok⟩
  · rwa [State.fail_result, statusField_resultWord]
  · rw [hok]; exact hmem

/-- READ_BYTE on an empty buffer writes RESULT only, with Empty (41_byte.md R84). -/
theorem execReadByte_empty {s : State} (hb : s.bound = true) (hl : s.length = 0) :
    exec .readByte s = .next (s.fail .empty) := by
  have hc : readByteCheck s = some .empty := if_pos (congrArg BitVec.toNat hl)
  rw [exec_readByte, execReadByte, hc, whenBound_failed hb]

/-- Settles O36: each command fails its own check, and a failing check writes RESULT only. -/
theorem spaceAndDataChecksReportTheirStatus : Obligations.SpaceAndDataChecksReportTheirStatus := by
  intro s hb
  exact ⟨execWriteByte_full hb, execReadByte_empty hb, fun src _ hl => execWriteBlock_noRoom hb hl src,
    fun v _ h1 h4 hl => execInsertKeyword_noRoom hb h1 h4 hl v⟩

end Sys2Proof.Machine
end

section
/-! The register block: what a read returns and a write does, which accesses are refused, and which are held beside a
running command (60_exceptions.md R171 to R173). -/

namespace Sys2Proof.Machine

section

variable {s t : State}

/-! ### The registers of the map -/

/-- STATUS of an idle engine is BOUND in bit 1 (60_exceptions.md R171). -/
theorem statusWord_toNat_of_idle (hb : s.busy = false) : s.statusWord.toNat = if s.bound then 2 else 0 := by
  rw [statusWord_toNat, hb]
  cases s.bound <;> rfl

/-- STATUS of a running engine has bit 0 set (60_exceptions.md R171). -/
theorem statusWord_toNat_of_busy (hb : s.busy = true) : s.statusWord.toNat = if s.bound then 3 else 1 := by
  rw [statusWord_toNat, hb]
  cases s.bound <;> rfl

/-- The offsets from 0x24 on are reserved and read as 0 (60_exceptions.md R171). -/
theorem regValue_reserved {off : Nat} (h : 0x24 ≤ off) : s.regValue off = 0 := by
  unfold State.regValue
  split
  case h_10 => rfl
  all_goals omega

/-- Only CMD_LO and CMD_HI can be written (60_exceptions.md R171). -/
theorem regWrite_ignored {off : Nat} (h : 0x08 ≤ off) (v : Word) : s.regWrite off v = s := by
  unfold State.regWrite
  split
  case h_3 => rfl
  all_goals omega

/-- An index register, read as a word, is its number (60_exceptions.md R171). -/
theorem setWidth_half_toNat (x : Half) : (x.setWidth 32).toNat = x.toNat :=
  BitVec.toNat_setWidth_of_le (by decide)

/-! ### Accesses of the right shape -/

section

variable {off : Nat} (hoff : off < 64) (h4 : off % 4 = 0)

include hoff h4

/-- An aligned word read delivers the register at its offset (60_exceptions.md R171). -/
theorem hostAct_regLoad :
    hostAct (.regLoad (s.platform.engBase + .ofNat 32 off) .word) s =
      .next { s with readData := some (s.regValue off) } := by
  rw [hostAct, regOffset_word s hoff h4]

/-- An aligned word write writes the register at its offset (60_exceptions.md R171). -/
theorem hostAct_regStore (v : Word) :
    hostAct (.regStore (s.platform.engBase + .ofNat 32 off) .word v) s = .next (s.regWrite off v) := by
  rw [hostAct, regOffset_word s hoff h4]

theorem step_idle_regLoad {rest : List HostAction} (hb : s.busy = false)
    (hq : s.hostQueue = .regLoad (s.platform.engBase + .ofNat 32 off) .word :: rest) :
    step s = .next { s with hostQueue := rest, readData := some (s.regValue off) } := by
  rw [step_idle hb hq]
  exact hostAct_regLoad (s := { s with hostQueue := rest }) hoff h4

theorem step_idle_regStore {rest : List HostAction} {v : Word} (hb : s.busy = false)
    (hq : s.hostQueue = .regStore (s.platform.engBase + .ofNat 32 off) .word v :: rest) :
    step s = .next (State.regWrite { s with hostQueue := rest } off v) := by
  rw [step_idle hb hq]
  exact hostAct_regStore (s := { s with hostQueue := rest }) hoff h4 v

/-- A read is held while BUSY = 1 when its offset is one of those that R173 names. -/
theorem heldWhileBusy_regLoad :
    s.heldWhileBusy (.regLoad (s.platform.engBase + .ofNat 32 off) .word) = heldLoadOffsets.contains off := by
  rw [State.heldWhileBusy, regOffset_word s hoff h4]

/-- A write is held while BUSY = 1 when its offset is one of those that R172 names. -/
theorem heldWhileBusy_regStore (v : Word) :
    s.heldWhileBusy (.regStore (s.platform.engBase + .ofNat 32 off) .word v) = heldStoreOffsets.contains off := by
  rw [State.heldWhileBusy, regOffset_word s hoff h4]

/-- A read of STATUS is one at offset 0x0C (60_exceptions.md R171). -/
theorem isStatusLoad_regLoad :
    s.isStatusLoad (.regLoad (s.platform.engBase + .ofNat 32 off) .word) = (off == statusOffset) := by
  rw [State.isStatusLoad, regOffset_word s hoff h4]

end

/-! ### Accesses of another shape -/

/-- An access to the registers of a shape that R171 does not accept is refused, whether the engine is idle or runs a
command. -/
theorem step_refused {a : HostAction} {rest : List HostAction} {r : Refusal} (hq : s.hostQueue = a :: rest)
    (hheld : s.heldWhileBusy a = false) (hstatus : s.isStatusLoad a = false) (hrace : s.raceAddr a = none)
    (hact : hostAct a { s with hostQueue := rest } = .refused r) : step s = .refused r := by
  cases hb : s.busy with
  | false => rw [step_idle hb hq, hact]
  | true => rw [step_busy_access hb hq hheld hstatus hrace, hact]

/-! ### The host's side of a running command -/

/-- The completion clears BUSY and leaves the rest of the host's side as it is (60_exceptions.md R172, R173). -/
theorem runCommand_hostSide (h : runCommand s = .next t) : t.hostSide = { s.hostSide with busy := false } := by
  rcases runCommand_next h with ⟨i, u, -, hu, rfl⟩ | rfl
  · rw [← exec_keeps_hostSide hu]; rfl
  · rfl

/-- No command changes the platform (00_scope.md R5). -/
theorem exec_keeps_platform {i : Instr} (h : exec i s = .next t) : t.platform = s.platform := by
  cases exec_next h <;> rfl

theorem runCommand_keeps_platform (h : runCommand s = .next t) : t.platform = s.platform := by
  rcases runCommand_next h with ⟨i, u, -, hu, rfl⟩ | rfl
  · exact exec_keeps_platform (t := u) hu
  · rfl

/-- Beside a held access the issued command runs next (60_exceptions.md R172, R173). -/
theorem runsCommandNext_of_held {a : HostAction} {rest : List HostAction} (hb : s.busy = true)
    (hq : s.hostQueue = a :: rest) (hheld : s.heldWhileBusy a = true) : s.runsCommandNext = true := by
  rw [State.runsCommandNext, hb, hq]
  exact hheld

end

/-! ### The statements about the register block -/

/-- Settles O50: the read delivers the map's register, offset by offset. -/
theorem registerBlockReadsAsTheMapSays : Obligations.RegisterBlockReadsAsTheMapSays := by
  intro s rest off hb hoff h4 hq
  refine ⟨s.regValue off, step_idle_regLoad hoff h4 hb hq, ?cmdLo, ?cmdHi, ?result, ?status, ?head, ?tail, ?length,
    ?capacity, ?base, regValue_reserved⟩
  case status => rintro rfl; exact statusWord_toNat_of_idle hb
  case head | tail | length | capacity => rintro rfl; exact setWidth_half_toNat _
  all_goals rintro rfl; rfl

/-- Settles O51: the write is the map's write at its offset, which is ignored from 0x08 on. -/
theorem registerBlockWritesAsTheMapSays : Obligations.RegisterBlockWritesAsTheMapSays := by
  intro s rest off v hb hoff h4 hq
  have hstep := step_idle_regStore hoff h4 hb hq
  refine ⟨?cmdLo, ?cmdHi, fun h => ?ignored⟩
  case ignored => rw [hstep, regWrite_ignored h]
  all_goals rintro rfl; exact hstep

/-- Settles O52: such an access selects no offset, so it is neither held nor a read of STATUS, and it is refused
where it takes effect. -/
theorem otherRegisterAccessesAreRefused : Obligations.OtherRegisterAccessesAreRefused := by
  intro s rest off size v hoff hshape
  have hoffset := regOffset_other s hoff hshape
  have hoffset' := regOffset_other { s with hostQueue := rest } hoff hshape
  constructor <;> intro hq
  · apply step_refused hq
    · rw [State.heldWhileBusy, hoffset]
    · rw [State.isStatusLoad, hoffset]
    · rfl
    · rw [hostAct, hoffset']
  · apply step_refused hq
    · rw [State.heldWhileBusy, hoffset]
    · rfl
    · rfl
    · rw [hostAct, hoffset']

/-- Settles O53: the access is held, so the command runs, and its completion touches nothing of the host's side but
BUSY. -/
theorem accessesAreHeldUntilTheCommandCompletes : Obligations.AccessesAreHeldUntilTheCommandCompletes := by
  intro s t a rest off hb hq ha h
  have hheld : s.heldWhileBusy a = true := by
    rcases ha with ⟨⟨v, rfl⟩, hoff⟩ | ⟨rfl, hoff⟩
    · rw [heldWhileBusy_regStore (by omega) (by omega)]; simpa [heldStoreOffsets] using hoff
    · rw [heldWhileBusy_regLoad (by omega) (by omega)]; simpa [heldLoadOffsets] using hoff
  rw [(step_of_runsCommandNext (runsCommandNext_of_held hb hq hheld)).2] at h
  have hside := runCommand_hostSide h
  exact ⟨h, congrArg HostSide.busy hside, (congrArg HostSide.hostQueue hside).trans hq, congrArg HostSide.cmdLo hside,
    congrArg HostSide.cmdHi hside⟩

/-- Settles O54: the read is no held access, so it is ordered against the command, and each order answers it with the
STATUS of the state it falls in. -/
theorem statusReadFollowsTheFreeOrder : Obligations.StatusReadFollowsTheFreeOrder := by
  intro s rest hb hq
  have hstep := step_busy_status hb hq (heldWhileBusy_regLoad (off := 0x0C) (by decide) (by decide))
    (isStatusLoad_regLoad (off := 0x0C) (by decide) (by decide))
  have hact := hostAct_regLoad (s := { s with hostQueue := rest, draws := s.draws + 1 }) (off := 0x0C) (by decide)
    (by decide)
  rw [stepBusyStatus] at hstep
  constructor
  · intro r hr
    rw [hr, statusAgainst_fault] at hstep
    exact ⟨_, hstep.trans hact, statusWord_toNat_of_busy hb⟩
  · intro t ht
    rw [ht] at hstep
    cases horder : Config.freeStatusOrder s.draws with
    | beforeCommand =>
      rw [horder] at hstep
      exact ⟨_, hstep.trans hact, statusWord_toNat_of_busy hb⟩
    | beforeBusyFalls =>
      rw [horder] at hstep
      exact ⟨_, hstep, statusWord_toNat_of_busy rfl⟩
    | afterCommand =>
      rw [horder, statusAgainst_afterCommand, ← hq] at hstep
      have hside := runCommand_hostSide ht
      have hidle : t.busy = false := congrArg HostSide.busy hside
      have hrest : t.hostQueue = rest := congrArg HostSide.hostQueue hside
      have hplatform := runCommand_keeps_platform ht
      have hread := step_idle_regLoad (s := { t with hostQueue := s.hostQueue }) (off := 0x0C) (by decide) (by decide)
        hidle (hplatform ▸ hq)
      rw [← hrest] at hread
      exact ⟨hstep, hidle, _, hread, statusWord_toNat_of_idle hidle⟩

/-! ### One command's use of the register block -/

/-- A step that goes on is the first of a run's steps. -/
theorem run_succ {M : Host.Core} {s t : M.State} (n : Nat) (h : M.step s = .next t) : M.run (n + 1) s = M.run n t := by
  rw [Host.Core.run, h]

theorem core_run_succ {s t : State} (n : Nat) (h : step s = .next t) : core.run (n + 1) s = core.run n t :=
  run_succ (M := core) n h

/-- `s` with the word `w` in CMD_LO and CMD_HI, BUSY at `b` and the accesses `q` pending. -/
def State.withCommand (s : State) (w : CmdWord) (b : Bool) (q : List HostAction) : State :=
  { s with cmdLo := loHalf w, cmdHi := hiHalf w, busy := b, hostQueue := q }

/-- The read of RESULT that ends one command's use of the register block (60_exceptions.md R173). -/
def resultRead (p : Platform) : HostAction := .regLoad (p.engBase + 8) .word

section

variable {s t : State} {w : CmdWord}

/-- The two writes of an idle engine's host issue the word (60_exceptions.md R172). -/
theorem run_issueSequence (n : Nat) (hb : s.busy = false) (hq : s.hostQueue = issueSequence s.platform w) :
    core.run (n + 2) s = core.run n (s.withCommand w true [resultRead s.platform]) := by
  have hqueue : s.hostQueue = .regStore (s.platform.engBase + .ofNat 32 0) .word (loHalf w) ::
      [.regStore (s.platform.engBase + 4) .word (hiHalf w), resultRead s.platform] := by
    rw [hq, issueSequence, BitVec.add_zero]; rfl
  have hlo := step_idle_regStore (by decide) (by decide) hb hqueue
  have hhi : step { s with
      cmdLo := loHalf w
      hostQueue := [.regStore (s.platform.engBase + 4) .word (hiHalf w), resultRead s.platform] } =
      .next (s.withCommand w true [resultRead s.platform]) :=
    step_idle_regStore (off := 4) (by decide) (by decide) hb rfl
  exact (core_run_succ (n + 1) hlo).trans (core_run_succ n hhi)

/-- With the read of RESULT pending, the issued word's command runs and completes (60_exceptions.md R173). -/
theorem step_withCommand {i : Instr} (hd : decode w = .ok i) (h : exec i s = .next t) :
    step (s.withCommand w true [resultRead s.platform]) = .next (t.withCommand w false [resultRead s.platform]) := by
  have hheld : (s.withCommand w true [resultRead s.platform]).heldWhileBusy (resultRead s.platform) = true :=
    heldWhileBusy_regLoad (off := 8) (by decide) (by decide)
  have hword : (s.withCommand w true [resultRead s.platform]).commandWord = w := halves_append w
  obtain ⟨-, -, -, -, hexec⟩ := noCommandTouchesTheHostRegisters i s t (loHalf w) (hiHalf w) true
    [resultRead s.platform] h
  change exec i (s.withCommand w true [resultRead s.platform]) = _ at hexec
  rw [stepRunsTheDecodedCommand _ i (runsCommandNext_of_held rfl rfl hheld) (by rw [hword, hd]), hexec]
  rfl

end

/-- Settles O55: the two writes issue the word, the read of RESULT is held while the command runs, and then it is
answered. -/
theorem issueSequenceDeliversTheCommandsResult : Obligations.IssueSequenceDeliversTheCommandsResult := by
  intro s t w i hb hq hd h
  have hread := step_idle_regLoad (s := t.withCommand w false [resultRead t.platform]) (off := 8) (by decide)
    (by decide) rfl rfl
  rw [exec_keeps_platform h] at hread
  rw [run_issueSequence 2 hb hq]
  exact (core_run_succ 1 (step_withCommand hd h)).trans (core_run_succ 0 hread)

end Sys2Proof.Machine
end

section
/-! That every command completes where its accesses are admitted, and what of a command's MEM writes a reset leaves
(70_reset_and_hazards.md R182, R197). -/

namespace Sys2Proof.Machine

section

variable {s t : State} {c : Option Status} {vs : List Move} {f : State → State} {i : Instr}

/-! ### A command whose accesses are admitted goes on -/

/-- A command behind the shared checks goes on where the effect that it has past them does. -/
theorem whenBound_completes {e : Host.Outcome State Fault Refusal}
    (he : s.bound = true → c = none → ∃ t, e = .next t) : ∃ t, s.whenBound c e = .next t := by
  cases hb : s.bound with
  | false => exact ⟨_, whenBound_unbound hb c e⟩
  | true =>
    cases c with
    | some st => exact ⟨_, whenBound_failed hb st e⟩
    | none => rw [whenBound_passed hb]; exact he hb rfl

/-- A transfer behind the shared checks goes on where the accesses of its command are admitted. -/
theorem transfer_completes (hmoves : commandMoves i s = movesIfAdmitted s c vs)
    (hreads : commandReads i s = (commandMoves i s).filterMap Move.readAddr) (ha : AccessesAdmitted i s) :
    ∃ t, s.whenBound c (s.afterMoves vs f) = .next t :=
  whenBound_completes fun hb hc =>
    have ⟨hw, hr⟩ := moves_admitted hmoves hreads hb hc ha
    ⟨_, afterMoves_admitted f hw hr⟩

/-- READ_BYTE goes on where the read of SAddr(HEAD) is admitted (41_byte.md R84). -/
theorem execReadByte_completes (ha : AccessesAdmitted .readByte s) : ∃ t, exec .readByte s = .next t := by
  apply whenBound_completes
  intro hb hc
  have hread : admits s.platform (s.sAddr s.head.toNat) .read = true := ha.reads _ (by simp [commandReads, hb, hc])
  rw [memRead, if_pos hread]
  exact ⟨_, rfl⟩

/-- FIND_KEYWORD goes on where the reads of its window are admitted (44_keyword.md R127). -/
theorem execFindKeyword_completes {v : Word} {klen : BitVec 3} (hi : s.bound = true → BufferInv s)
    (ha : AccessesAdmitted (.findKeyword v klen) s) : ∃ t, exec (.findKeyword v klen) s = .next t := by
  apply whenBound_completes
  intro hb hc
  obtain ⟨⟨h1, h4⟩, hl⟩ := findKeywordCheck_none.mp hc
  have hend := execFindKeyword_admitted hb (hi hb) h1 h4 hl ha
  rw [exec_findKeyword, execFindKeyword, hc, whenBound_passed hb] at hend
  rcases hend with ⟨j, -, hj⟩ | ⟨-, hn⟩
  · exact ⟨_, hj⟩
  · exact ⟨_, hn⟩

/-! ### The moves that a command makes are those it is said to make -/

theorem movesIfAdmitted_unbound (hb : s.bound = false) : movesIfAdmitted s c vs = [] := by simp [movesIfAdmitted, hb]

@[simp] theorem movesIfAdmitted_failed (s : State) (st : Status) (vs : List Move) :
    movesIfAdmitted s (some st) vs = [] := by simp [movesIfAdmitted]

theorem movesIfAdmitted_passed (hb : s.bound = true) : movesIfAdmitted s none vs = vs := by
  simp [movesIfAdmitted, hb]

/-- A transfer behind the shared checks that goes on leaves the MEM of its moves, of which a failure makes none. -/
theorem transfer_mem (h : s.whenBound c (s.afterMoves vs f) = .next t) (hf : ∀ u, (f u).mem = u.mem) :
    t.mem = (runMoves s.platform (movesIfAdmitted s c vs) s.mem).mem := by
  rcases whenBound_next h with ⟨hb, rfl⟩ | ⟨-, st, rfl, rfl⟩ | ⟨hb, rfl, he⟩
  · rw [movesIfAdmitted_unbound hb]; rfl
  · rw [movesIfAdmitted_failed]; rfl
  · obtain ⟨-, rfl⟩ := afterMoves_next he
    rw [movesIfAdmitted_passed hb, hf]

/-- A transfer behind the shared checks stops at the access that its moves are stuck at. -/
theorem transfer_fault {r : Fault} (h : s.whenBound c (s.afterMoves vs f) = .fault r) :
    (runMoves s.platform (movesIfAdmitted s c vs) s.mem).stuck = some r := by
  obtain ⟨hb, rfl, he⟩ := whenBound_fault h
  rw [movesIfAdmitted_passed hb]
  exact afterMoves_fault he

/-- A command that goes on leaves the MEM of its moves (20_memory.md R41). -/
theorem exec_mem (h : exec i s = .next t) : t.mem = (runMoves s.platform (commandMoves i s) s.mem).mem := by
  cases i with
  | init base cap => rcases exec_init_next h with rfl | ⟨-, rfl⟩ <;> rfl
  | writeByte b => exact transfer_mem h fun _ => rfl
  | readByte => rcases exec_readByte_next h with ⟨st, rfl⟩ | ⟨-, -, b, rfl⟩ <;> rfl
  | writeBlock src len => exact transfer_mem h fun _ => rfl
  | readBlock dst len => exact transfer_mem h fun _ => rfl
  | delete len => rcases exec_delete_next h with ⟨st, rfl⟩ | ⟨-, -, rfl⟩ <;> rfl
  | insertKeyword v klen => exact transfer_mem h fun _ => rfl
  | findKeyword v klen => obtain ⟨d, st, rfl⟩ := exec_findKeyword_next h; rfl
  | getLen => rcases exec_getLen_next h with ⟨st, rfl⟩ | rfl <;> rfl
  | getFree => rcases exec_getFree_next h with ⟨st, rfl⟩ | rfl <;> rfl

/-- A command that has moves stops at the access that they are stuck at (20_memory.md R36). -/
theorem exec_fault {r : Fault} (h : exec i s = .fault r) (hne : commandMoves i s ≠ []) :
    (runMoves s.platform (commandMoves i s) s.mem).stuck = some r := by
  cases i with
  | writeByte _ | writeBlock _ _ | readBlock _ _ | insertKeyword _ _ => exact transfer_fault h
  | init _ _ | readByte | delete _ | findKeyword _ _ | getLen | getFree => exact absurd rfl hne

/-! ### The issued command's moves -/

theorem pendingMoves_of_legal (hd : decode s.commandWord = .ok i) : s.pendingMoves = commandMoves i s := by
  rw [State.pendingMoves, hd]

/-- An illegal word makes no move (30_encoding.md R56). -/
theorem pendingMoves_of_illegal {e : Illegal} (hd : decode s.commandWord = .error e) : s.pendingMoves = [] := by
  rw [State.pendingMoves, hd]

/-- The drawn prefix is no longer than the command's writes (70_reset_and_hazards.md R182). -/
theorem drawnPrefix_le (s : State) : s.drawnPrefix ≤ s.pendingWrites.length := by
  rw [State.pendingWrites, List.length_map]
  exact Nat.le_of_lt_succ (Nat.mod_lt _ (Nat.succ_pos _))

/-- A byte that the command does not write reads as before after any prefix of its writes. -/
theorem abandonedMem_frame (hm : s.mem.wf = true) (k : Nat) {a : Nat} (ha : ∀ x ∈ s.pendingWrites, x.toNat ≠ a) :
    (s.abandonedMem k).read a = s.mem.read a :=
  runMoves_frame _ hm fun _ hv => ha _ (List.mem_map_of_mem (List.mem_of_mem_take hv))

/-! ### Reset -/

theorem hostReset_of_idle (hb : s.busy = false) : s.hostReset = s.resetRegisters := by
  rw [State.hostReset, hb]; rfl

theorem hostReset_of_busy (hb : s.busy = true) : s.hostReset =
    { s.resetRegisters with mem := s.abandonedMem s.drawnPrefix, draws := s.draws + 1 } := by
  rw [State.hostReset, hb]; rfl

/-- A pending reset takes effect at once, whether the engine is idle or runs a command (70_reset_and_hazards.md R180,
R182; log 26). -/
theorem step_reset {v : Option Word} {rest : List HostAction} (hq : s.hostQueue = .reset v :: rest) :
    step s = .next (State.hostReset { s with hostQueue := rest }) := by
  change step s = hostAct (.reset v) { s with hostQueue := rest }
  rcases Bool.eq_false_or_eq_true s.busy with hb | hb
  · exact step_busy_access hb hq rfl rfl rfl
  · exact step_idle hb hq

/-! ### A host's store to MEM -/

/-- While BUSY = 1 an access that races the command is refused (70_reset_and_hazards.md R191; log 9). -/
theorem step_busy_race {a : HostAction} {rest : List HostAction} {x : Word} (hb : s.busy = true)
    (hq : s.hostQueue = a :: rest) (hheld : s.heldWhileBusy a = false) (hstatus : s.isStatusLoad a = false)
    (hrace : s.raceAddr a = some x) : step s = .refused (.hostRace x) := by
  unfold step stepMachine stepBusy
  simp only [hb, if_true, hq, stepBusyWith, hheld, hstatus, hrace, Bool.false_eq_true, if_false]

/-- A store races the command at the bytes that it writes or reads. -/
theorem raceAddr_memStore (s : State) (a : Word) (b : Byte) :
    s.raceAddr (.memStore a b) = if a ∈ s.pendingWrites ∨ a ∈ s.pendingReads then some a else none := by
  simp [State.raceAddr]

/-- A store where the register block is not mapped replaces the byte (20_memory.md R34, R35). -/
theorem hostAct_memStore (hmap : s.platform.blockInMem = false) (a : Word) (b : Byte) :
    hostAct (.memStore a b) s = .next { s with mem := s.mem.write a.toNat b } := by
  rw [hostAct, State.hiddenByBlock, hmap]; rfl

end

/-! ### The statements about completion, reset and hazards -/

/-- Settles O44: past its checks a transfer, READ_BYTE's read and the search go on where what they access is admitted,
and the other commands access nothing. -/
theorem everyCommandCompletesUnlessStuck : Obligations.EveryCommandCompletesUnlessStuck := by
  intro i s hi ha
  cases i with
  | init base cap =>
    rw [exec_init, execInit]
    cases initCheck cap <;> exact ⟨_, rfl⟩
  | writeByte b => exact transfer_completes rfl rfl ha
  | readByte => exact execReadByte_completes ha
  | writeBlock src len => exact transfer_completes rfl rfl ha
  | readBlock dst len => exact transfer_completes rfl rfl ha
  | delete len => exact whenBound_completes fun _ _ => ⟨_, rfl⟩
  | insertKeyword v klen => exact transfer_completes rfl rfl ha
  | findKeyword v klen => exact execFindKeyword_completes hi ha
  | getLen => exact whenBound_completes (c := none) fun _ _ => ⟨s.ok s.length.toNat, rfl⟩
  | getFree => exact whenBound_completes (c := none) fun _ _ => ⟨s.ok s.freeCount, rfl⟩

/-- Settles O57: the pending moves are those of the command's own execution, and the reset leaves the MEM of the drawn
prefix of them. -/
theorem resetAbandonsTheRunningCommand : Obligations.ResetAbandonsTheRunningCommand := by
  intro s v rest hb hq
  refine ⟨fun i t hd h => ?completes, fun i r hd h hne => ?stuck, fun e hd => pendingMoves_of_illegal hd, ?reset⟩
  case completes => rw [pendingMoves_of_legal hd]; exact exec_mem h
  case stuck =>
    rw [pendingMoves_of_legal hd] at hne ⊢
    exact exec_fault h hne
  case reset =>
    have hstep := step_reset hq
    rw [hostReset_of_busy (s := { s with hostQueue := rest }) hb] at hstep
    exact ⟨_, s.drawnPrefix, hstep, drawnPrefix_le s, rfl, rfl, fun hm _ => abandonedMem_frame hm s.drawnPrefix⟩

/-- Settles O42: the reset state has the reset registers, and its MEM lists no byte. -/
theorem resetStateHasInv : Obligations.ResetStateHasInv := inv_resetRegisters (s := State.reset) rfl

/-- Settles O56: on an idle engine a reset, whatever CMD_HI write coincides with it, is the reset of the registers. -/
theorem resetZeroesTheRegistersAndKeepsMem : Obligations.ResetZeroesTheRegistersAndKeepsMem := by
  intro s v rest hb hq
  rw [step_reset hq, hostReset_of_idle (s := { s with hostQueue := rest }) hb]
  rfl

/-- Settles O58: the store is no held access and no read of STATUS, so it is refused where it races the command and
takes effect elsewhere. -/
theorem hostMemoryAccessDuringACommand : Obligations.HostMemoryAccessDuringACommand := by
  intro s a b rest hb hmap hq
  have hrace := raceAddr_memStore s a b
  constructor
  · intro htouched
    rw [if_pos htouched] at hrace
    exact step_busy_race hb hq rfl rfl hrace
  · intro hw hr
    rw [if_neg (not_or.mpr ⟨hw, hr⟩)] at hrace
    rw [step_busy_access hb hq rfl rfl hrace]
    exact hostAct_memStore (s := { s with hostQueue := rest }) hmap a b

/-- Settles O59: on an idle engine the store is a write of its byte. -/
theorem hostStoreChangesOnlyItsByte : Obligations.HostStoreChangesOnlyItsByte := by
  intro s a b rest hb hm hmap hq
  have hstep := (step_idle hb hq).trans (hostAct_memStore (s := { s with hostQueue := rest }) hmap a b)
  exact ⟨_, hstep, rfl, Memory.read_write_same hm a.toNat b, fun _ hx => Memory.read_write_other hm hx b⟩

end Sys2Proof.Machine
end
